-- ==== Sys2Proof/Word.lean ====
section
/-! DEFINITION. The word types of ADL-CORE (spec/00_scope.md R9: registers, command words and samples are 32 bits). -/

namespace Sys2Proof

/-- A 32-bit register value, command word or binary32 pattern (00 R9). -/
abbrev Word := BitVec 32

/-- One DMEM byte (20 R100). -/
abbrev Byte := BitVec 8

end Sys2Proof
end

