-- ==== Sys2Proof/Syntax.lean ====
section
/-! DEFINITION. The 23 commands of ADL-CORE (spec/30_encoding.md R132), one constructor per row of
spec/opcode_table.json. -/

namespace Sys2Proof

/-- A command. The operand of a class I command is the per-invocation index i (for MIX_ADVANCE the count n), a
non-negative integer (30 R131); `wellFormed` bounds it. -/
inductive Instr where
  | nop
  | resetState
  | convElem (i : Nat)
  | convBlock
  | mixElem (i : Nat)
  | mixBlock
  | mixGenlut
  | mixAdvance (n : Nat)
  | mixRefresh
  | mixReset
  | firRcElem (i : Nat)
  | firRrElem (i : Nat)
  | firCcElem (i : Nat)
  | firRcBlock
  | firRrBlock
  | firCcBlock
  | firRefreshC
  | firRefreshR
  | firClear
  | demElem (i : Nat)
  | demBlock
  | demSave
  | demReset
  deriving DecidableEq, Repr

end Sys2Proof
end

