-- ==== Sys2Proof/WellFormed.lean ====
section
/-! DEFINITION. Which commands can be written in a command word (spec/30_encoding.md R131, R138). -/

namespace Sys2Proof

/-- An immediate operand is an integer 0 to 2^24 - 1 (30 R131). -/
def immFits (n : Nat) : Bool := n < 2 ^ 24

/-- The check an assembler makes of a class I operand (30 R138); a class Z command has no operand to check. -/
def wellFormed (i : Instr) : Bool :=
  match i with
  | .nop => true
  | .resetState => true
  | .convElem n => immFits n
  | .convBlock => true
  | .mixElem n => immFits n
  | .mixBlock => true
  | .mixGenlut => true
  | .mixAdvance n => immFits n
  | .mixRefresh => true
  | .mixReset => true
  | .firRcElem n => immFits n
  | .firRrElem n => immFits n
  | .firCcElem n => immFits n
  | .firRcBlock => true
  | .firRrBlock => true
  | .firCcBlock => true
  | .firRefreshC => true
  | .firRefreshR => true
  | .firClear => true
  | .demElem n => immFits n
  | .demBlock => true
  | .demSave => true
  | .demReset => true

end Sys2Proof
end

