-- ==== Sys2Proof/Decode.lean ====
section
/-! DEFINITION. The decoder and the encoder of command words (spec/30_encoding.md R130 to R136). -/

namespace Sys2Proof

/-- Why a command word is illegal; both raise ILLEGAL_CMD (60 R301). -/
inductive Illegal where
  /-- OP is none of the 23 opcodes (30 R134). -/
  | undefinedOpcode (op : BitVec 8)
  /-- OP is a class Z opcode and IMM is not 0 (30 R133). -/
  | immediateNotZero (op : BitVec 8)
  deriving DecidableEq, Repr

/-- OP = w[7:0] (30 R130). -/
def opField (w : Word) : BitVec 8 := w.extractLsb' 0 8

/-- IMM = w[31:8] (30 R130). -/
def immField (w : Word) : BitVec 24 := w.extractLsb' 8 24

/-- A class Z command: the IMM field must be 0 (30 R130, R133). -/
def decodeClassZ (w : Word) (i : Instr) : Except Illegal Instr :=
  if immField w = 0#24 then .ok i else .error (.immediateNotZero (opField w))

/-- A class I command: its operand is zext(w[31:8]) (30 R131). -/
def decodeClassI (w : Word) (i : Nat → Instr) : Except Illegal Instr :=
  .ok (i (immField w).toNat)

/-- The decision procedure of 30 R136 over the opcode map of 30 R132, total over all words. -/
def decode (w : Word) : Except Illegal Instr :=
  match (opField w).toNat with
  | 0x00 => decodeClassZ w .nop
  | 0x01 => decodeClassZ w .resetState
  | 0x08 => decodeClassI w .convElem
  | 0x09 => decodeClassZ w .convBlock
  | 0x10 => decodeClassI w .mixElem
  | 0x11 => decodeClassZ w .mixBlock
  | 0x12 => decodeClassZ w .mixGenlut
  | 0x13 => decodeClassI w .mixAdvance
  | 0x14 => decodeClassZ w .mixRefresh
  | 0x15 => decodeClassZ w .mixReset
  | 0x20 => decodeClassI w .firRcElem
  | 0x21 => decodeClassI w .firRrElem
  | 0x22 => decodeClassI w .firCcElem
  | 0x24 => decodeClassZ w .firRcBlock
  | 0x25 => decodeClassZ w .firRrBlock
  | 0x26 => decodeClassZ w .firCcBlock
  | 0x28 => decodeClassZ w .firRefreshC
  | 0x29 => decodeClassZ w .firRefreshR
  | 0x2A => decodeClassZ w .firClear
  | 0x30 => decodeClassI w .demElem
  | 0x31 => decodeClassZ w .demBlock
  | 0x32 => decodeClassZ w .demSave
  | 0x33 => decodeClassZ w .demReset
  | _ => .error (.undefinedOpcode (opField w))

/-- The OP value of a command (30 R132). -/
def opcode (i : Instr) : BitVec 8 :=
  match i with
  | .nop => 0x00#8
  | .resetState => 0x01#8
  | .convElem _ => 0x08#8
  | .convBlock => 0x09#8
  | .mixElem _ => 0x10#8
  | .mixBlock => 0x11#8
  | .mixGenlut => 0x12#8
  | .mixAdvance _ => 0x13#8
  | .mixRefresh => 0x14#8
  | .mixReset => 0x15#8
  | .firRcElem _ => 0x20#8
  | .firRrElem _ => 0x21#8
  | .firCcElem _ => 0x22#8
  | .firRcBlock => 0x24#8
  | .firRrBlock => 0x25#8
  | .firCcBlock => 0x26#8
  | .firRefreshC => 0x28#8
  | .firRefreshR => 0x29#8
  | .firClear => 0x2A#8
  | .demElem _ => 0x30#8
  | .demBlock => 0x31#8
  | .demSave => 0x32#8
  | .demReset => 0x33#8

/-- The operand of a class I command, none for class Z (30 R131, R132). -/
def operand (i : Instr) : Option Nat :=
  match i with
  | .nop => none
  | .resetState => none
  | .convElem n => some n
  | .convBlock => none
  | .mixElem n => some n
  | .mixBlock => none
  | .mixGenlut => none
  | .mixAdvance n => some n
  | .mixRefresh => none
  | .mixReset => none
  | .firRcElem n => some n
  | .firRrElem n => some n
  | .firCcElem n => some n
  | .firRcBlock => none
  | .firRrBlock => none
  | .firCcBlock => none
  | .firRefreshC => none
  | .firRefreshR => none
  | .firClear => none
  | .demElem n => some n
  | .demBlock => none
  | .demSave => none
  | .demReset => none

/-- The command word w = {imm[23:0], OP[7:0]} (30 R138), IMM 0 for class Z. -/
def encode (i : Instr) : Word := BitVec.ofNat 24 ((operand i).getD 0) ++ opcode i

/-- The command the decoder reads from the word whose bits are `w`, numbered as spec/opcode_table.json numbers them.
A command is exactly one 32-bit word (30 R130); bits above `nbits` are 0. -/
def decodeTableWord (nbits w : Nat) : Option Instr :=
  match decode (BitVec.ofNat 32 (w % 2 ^ nbits)) with
  | .ok i => some i
  | .error _ => none

end Sys2Proof
end

