-- ==== Sys2Proof/Config.lean ====
section
/-! DEFINITION. What one ADL-CORE fixes (spec/00_scope.md R10, R11) and the free values of the model. The opaque
constants have no body: nothing in Lean can evaluate them or prove a value of them. -/

namespace Sys2Proof

/-- The size parameters of 00 R10. -/
structure Params where
  /-- FIR_MAX_ORDER, the largest filterOrder the FIR accepts. -/
  firMaxOrder : Nat
  /-- MIX_COSLEN_MAX, the largest cosineLength the mixer accepts. -/
  mixCoslenMax : Nat
  /-- DMEM_SIZE, the number of DMEM bytes. -/
  dmemSize : Nat
  deriving DecidableEq, Repr

/-- The bounds 00 R10 sets on the parameters. -/
abbrev Params.Legal (p : Params) : Prop :=
  (1 ≤ p.firMaxOrder ∧ p.firMaxOrder ≤ 65535) ∧
  (1 ≤ p.mixCoslenMax ∧ p.mixCoslenMax ≤ 2 ^ 24 - 1) ∧
  (1 ≤ p.dmemSize ∧ p.dmemSize ≤ 2 ^ 32)

/-- The parameter values of the test configuration of spec/95_test_vectors.md section 0, which `State.reset` takes.
DESIGN CHOICE (log entry 1): every statement about a state holds for all parameters the state carries. -/
def Params.test : Params := { firMaxOrder := 16, mixCoslenMax := 64, dmemSize := 0x10000 }

/-- The internal memories whose contents are unspecified after reset (70 R342). -/
inductive InternalMem where
  | convLut | mlutRe | mlutIm | tapRe | tapIm | remRe | remIm
  deriving DecidableEq, Repr

/-- FREE VALUE (log entry 2). The pattern entry `entry` of memory `mem` holds after reset number `epoch`:
"any 32-bit pattern per entry, chosen independently per entry" (10 R71). -/
opaque Config.unspecified (mem : InternalMem) (epoch entry : Nat) : Word

/-- FREE VALUE (log entries 5 and 6). The n-th free word: the result of a race (20 R112) or of a command abandoned
by a reset (70 R340). -/
opaque Config.freeWord (n : Nat) : Word

/-- PARAMETER LUTGEN(signed, f_mix, f_sample, t, v) of 42 R212 (log entry 7): the pair of binary32 patterns the mixer
stores for phase step t and byte index v. -/
opaque Config.lutgen (signed : Bool) (freq : Int) (rate t v : Nat) : Word × Word

/-- PARAMETER ATAN2(y, x) of 44 R281 (log entry 8). -/
opaque Config.atan2 (y x : Word) : Word

end Sys2Proof
end

