-- ==== Sys2Proof/Machine/State.lean ====
section
/-! DEFINITION. The state of ADL-CORE (spec/10_state.md R30) as plain data, the reasons a step can stop, and the
state after reset (10 R71). -/

namespace Sys2Proof.Machine

/-- The error causes of 60 R300 (code 0, NONE, is the absence of a cause). -/
inductive Cause where
  | illegalCmd | badOrder | badDecim | badCoslen | badRate | lutStale | align | memRange | overlap | regRange
  deriving DecidableEq, Repr

/-- One entry of an internal memory, with the written bit 70 R342 asks for. -/
inductive Entry where
  /-- The entry was written since reset and holds this pattern. -/
  | written (v : Word)
  /-- The entry was not written; it holds the unspecified pattern that entry `origin` of the same memory held after
  reset. A refresh copy of a not-written entry is itself not written (70 R342), so `origin` may be another entry. -/
  | unspecified (origin : Nat)
  deriving DecidableEq, Repr

/-- An internal memory: index and entry, indexes rising. An unlisted entry k is `.unspecified k`. -/
abbrev EntryMem := List (Nat × Entry)

/-- DMEM: address and byte, addresses rising. An unlisted byte is 0 (log entry 3). -/
abbrev Memory := List Host.Cell

/-- The converter bank (10 R44 to R47). -/
structure ConvBank where
  signed : Bool
  ilv : Bool
  ooff : BitVec 24
  olen : BitVec 24
  inAddr : Word
  outRe : Word
  outIm : Word
  lut : EntryMem
  deriving DecidableEq, Repr

/-- The mixer bank (10 R48 to R57). -/
structure MixBank where
  signed : Bool
  ilv : Bool
  freq : Word
  rate : Word
  coslen : BitVec 24
  base : BitVec 24
  ooff : BitVec 24
  olen : BitVec 24
  inAddr : Word
  outRe : Word
  outIm : Word
  lidx : Word
  lutRe : EntryMem
  lutIm : EntryMem
  lutValid : Bool
  deriving DecidableEq, Repr

/-- The FIR bank (10 R58 to R64). -/
structure FirBank where
  xtap : Bool
  order : BitVec 24
  decim : BitVec 24
  ioff : BitVec 24
  ooff : BitVec 24
  olen : BitVec 24
  inRe : Word
  inIm : Word
  outRe : Word
  outIm : Word
  tidx : BitVec 16
  ridx : BitVec 16
  tapRe : EntryMem
  tapIm : EntryMem
  remRe : EntryMem
  remIm : EntryMem
  deriving DecidableEq, Repr

/-- The demodulator bank (10 R65 to R68). -/
structure DemBank where
  gain : Word
  hre : Word
  him : Word
  ioff : BitVec 24
  ooff : BitVec 24
  olen : BitVec 24
  inRe : Word
  inIm : Word
  out : Word
  deriving DecidableEq, Repr

/-- The host's moves (60 R330). -/
inductive HostMove where
  /-- A register-port write of `bytes` bytes at a window offset (10 R35); at offset 0x018 it issues a command. -/
  | regWrite (off : BitVec 12) (bytes : Nat) (v : Word)
  /-- A register-port read of `bytes` bytes at a window offset. -/
  | regRead (off : BitVec 12) (bytes : Nat)
  /-- A host DMEM write of 4 bytes (MEMW, 30 R137). -/
  | memWrite (addr : Nat) (v : Word)
  /-- A host DMEM write of 1 byte (MEMW8, 30 R137). -/
  | memWrite8 (addr : Nat) (v : Byte)
  /-- A host DMEM read of 4 bytes (MEMR, 30 R137). -/
  | memRead (addr : Nat)
  /-- A host DMEM read of 1 byte (60 R330 gives a DMEM read a width). -/
  | memRead8 (addr : Nat)
  /-- The reset input is asserted and released (70 R340). -/
  | reset
  /-- The host looks at the `irq` output (60 R317). -/
  | observeIrq
  deriving DecidableEq, Repr

/-- An entry of the host's queue (log entry 4). -/
inductive HostTurn where
  /-- One move. `early` says that the move, if it is one that need not wait, is made before the step of a command that
  is pending. -/
  | once (early : Bool) (move : HostMove)
  /-- The host loop WAIT (30 R139): read STATUS until BUSY = 0. `polls` is how many of its reads are made before the
  step of a command that is pending. -/
  | wait (polls : Nat)
  deriving DecidableEq, Repr

/-- What the host got back from its last move (60 R330, column "host gets back"). -/
inductive Reply where
  /-- Nothing (no move yet, or a reset). -/
  | none
  /-- Completion of a write. -/
  | completed
  /-- The value of a read (a byte read zero-extended). -/
  | value (v : Word)
  /-- The observed level of `irq`. -/
  | irq (level : Bool)
  deriving DecidableEq, Repr

/-- The machine. STATUS.BUSY is 1 exactly while `pending` holds a command word (10 R69); STATUS.ERR is 1 exactly
while `error` holds a cause, whose code is STATUS.CAUSE (10 R39). -/
structure State where
  /-- The size parameters, read through PARAM0 and PARAM1 (10 R33, R34). -/
  params : Params
  /-- CTRL.DONEIE (10 R38). -/
  doneIe : Bool
  /-- CTRL.ERRIE (10 R38). -/
  errIe : Bool
  /-- STATUS.DONE (10 R39). -/
  done : Bool
  /-- STATUS.ERR and STATUS.CAUSE (10 R39). -/
  error : Option Cause
  /-- ERRINFO (10 R42). -/
  errInfo : Word
  /-- ERRADDR (10 R43). -/
  errAddr : Word
  conv : ConvBank
  mix : MixBank
  fir : FirBank
  dem : DemBank
  /-- The pending command word P (10 R69). -/
  pending : Option Word
  /-- DMEM (20 R101), outside the core. -/
  dmem : Memory
  /-- MODEL: the moves the host will still make, in order (log entry 4). -/
  host : List HostTurn
  /-- MODEL: what the host got back from its last move. -/
  reply : Reply
  /-- MODEL: the raced bytes of the pending command (20 R112): of the DMEM bytes it reads or writes those the host wrote
  since it was issued, and of those it writes also those the host read. -/
  raced : List Nat
  /-- MODEL: the number of free words drawn so far. -/
  fresh : Nat
  /-- MODEL: the number of resets so far. -/
  resets : Nat
  deriving DecidableEq, Repr

/-- Why the machine stops. -/
inductive Fault where
  /-- Raised by a host move (`hostMemWrite` and the like, Machine/Port.lean) that accesses a DMEM address at or above
  DMEM_SIZE, which does not exist (20 R101). Safe: the spec gives such a host access no meaning (log entry 11). -/
  | dmemAbsent (addr : Nat)
  deriving DecidableEq, Repr

/-- Why a step has no meaning. -/
inductive Refusal where
  /-- Raised by an arm of `exec` whose instruction has no meaning yet (no arm does). Safe: nothing is proved of it. -/
  | notModelled (mnemonic : String)
  deriving DecidableEq, Repr

/-- The converter bank after reset (10 R71). -/
def ConvBank.reset : ConvBank :=
  { signed := false, ilv := false, ooff := 0#24, olen := 0#24, inAddr := 0#32, outRe := 0#32, outIm := 0#32, lut := [] }

/-- The mixer bank after reset (10 R71). -/
def MixBank.reset : MixBank :=
  { signed := false, ilv := false, freq := 0#32, rate := 0#32, coslen := 0#24, base := 0#24, ooff := 0#24,
    olen := 0#24, inAddr := 0#32, outRe := 0#32, outIm := 0#32, lidx := 0#32, lutRe := [], lutIm := [],
    lutValid := false }

/-- The FIR bank after reset (10 R71). -/
def FirBank.reset : FirBank :=
  { xtap := false, order := 0#24, decim := 0#24, ioff := 0#24, ooff := 0#24, olen := 0#24, inRe := 0#32,
    inIm := 0#32, outRe := 0#32, outIm := 0#32, tidx := 0#16, ridx := 0#16, tapRe := [], tapIm := [], remRe := [],
    remIm := [] }

/-- The demodulator bank after reset (10 R71). -/
def DemBank.reset : DemBank :=
  { gain := 0#32, hre := 0#32, him := 0#32, ioff := 0#24, ooff := 0#24, olen := 0#24, inRe := 0#32, inIm := 0#32,
    out := 0#32 }

/-- The machine right after reset (10 R71): every register 0, no command pending, every internal memory unwritten.
The parameters (log entry 1), DMEM (log entry 3) and the model's own fields (log entry 19) are DESIGN CHOICES. -/
def State.reset : State :=
  { params := Params.test, doneIe := false, errIe := false, done := false, error := none, errInfo := 0#32,
    errAddr := 0#32, conv := .reset, mix := .reset, fir := .reset, dem := .reset, pending := none, dmem := [],
    host := [], reply := .none, raced := [], fresh := 0, resets := 0 }

end Sys2Proof.Machine
end

