-- ==== Sys2Proof/Machine/Ops.lean ====
section
/-! DEFINITION. The operations every command shares: DMEM and internal memory accesses (spec/00_scope.md R15,
spec/20_memory.md R100), the command framework (spec/40_command_common.md R160 to R168), raising an error
(spec/60_exceptions.md R310, R311) and the host's return from one (60 R315). -/

namespace Sys2Proof.Machine

/-! ### Sparse memories in one canonical form -/

/-- The cell at key `k`; an unlisted key holds `d k`. -/
def sparseGet {α : Type} (d : Nat → α) : List (Nat × α) → Nat → α
  | [], k => d k
  | (j, v) :: rest, k => if j = k then v else sparseGet d rest k

/-- The list with `v` listed at key `k`, keys rising. -/
def sparseInsert {α : Type} : List (Nat × α) → Nat → α → List (Nat × α)
  | [], k, v => [(k, v)]
  | (j, u) :: rest, k, v =>
    if k < j then (k, v) :: (j, u) :: rest
    else if k = j then (k, v) :: rest
    else (j, u) :: sparseInsert rest k v

/-- The list with `v` at key `k`, in canonical form: a key is not listed when it holds what an unlisted key holds. -/
def sparsePut {α : Type} [DecidableEq α] (d : Nat → α) (m : List (Nat × α)) (k : Nat) (v : α) : List (Nat × α) :=
  if v = d k then m.filter (fun c => c.1 != k) else sparseInsert m k v

/-- The list whose cells below `n` are `f`, the others as before. -/
def sparseSplice {α : Type} [DecidableEq α] (d : Nat → α) (n : Nat) (f : Nat → α) (m : List (Nat × α)) :
    List (Nat × α) :=
  (List.range n).filterMap (fun k => if f k = d k then none else some (k, f k)) ++ m.filter (fun c => n ≤ c.1)

/-- The canonical form: keys strictly rising, no cell equal to what an unlisted key holds. -/
abbrev SparseWf {α : Type} (d : Nat → α) (m : List (Nat × α)) : Prop :=
  m.Pairwise (fun x y => x.1 < y.1) ∧ ∀ c ∈ m, c.2 ≠ d c.1

/-! ### DMEM -/

/-- What an unlisted DMEM byte reads as: 0. DESIGN CHOICE (log entry 3): the spec gives DMEM no power-on contents. -/
def dmemUnlisted (_ : Nat) : Byte := 0#8

/-- DMEM is in its canonical form. -/
abbrev Memory.wf (m : Memory) : Prop := SparseWf dmemUnlisted m

/-- MemRead(addr, 1) (00 R15). -/
def memRead8 (m : Memory) (addr : Nat) : Byte := sparseGet dmemUnlisted m addr

/-- MemWrite(addr, 1, v) (00 R15). -/
def memWrite8 (m : Memory) (addr : Nat) (v : Byte) : Memory := sparsePut dmemUnlisted m addr v

/-- MemRead(addr, 4), little-endian (20 R100). -/
def memRead32 (m : Memory) (addr : Nat) : Word :=
  memRead8 m (addr + 3) ++ memRead8 m (addr + 2) ++ memRead8 m (addr + 1) ++ memRead8 m addr

/-- MemWrite(addr, 4, v), little-endian (20 R100). -/
def memWrite32 (m : Memory) (addr : Nat) (v : Word) : Memory :=
  memWrite8 (memWrite8 (memWrite8 (memWrite8 m addr (v.extractLsb' 0 8)) (addr + 1) (v.extractLsb' 8 8))
    (addr + 2) (v.extractLsb' 16 8)) (addr + 3) (v.extractLsb' 24 8)

/-! ### Internal memories -/

/-- An internal memory is in its canonical form. -/
abbrev EntryMem.wf (m : EntryMem) : Prop := SparseWf Entry.unspecified m

/-- Entry `k` of an internal memory. -/
def entryAt (m : EntryMem) (k : Nat) : Entry := sparseGet Entry.unspecified m k

/-- Store the pattern `v` in entry `k`. -/
def entryWrite (m : EntryMem) (k : Nat) (v : Word) : EntryMem := sparsePut Entry.unspecified m k (.written v)

/-- Give entries 0 to n-1 the contents `f`; the others keep theirs. -/
def entriesFill (m : EntryMem) (n : Nat) (f : Nat → Entry) : EntryMem := sparseSplice Entry.unspecified n f m

/-- The pattern an entry of memory `mem` holds. A not-written entry holds "some 32-bit pattern" (70 R342), a free
value that is the same for every read until the next reset (log entry 2). -/
def entryValue (s : State) (mem : InternalMem) (e : Entry) : Word :=
  match e with
  | .written v => v
  | .unspecified origin => Config.unspecified mem s.resets origin

/-- CONV_LUT[k] (10 R47). -/
def convLut (s : State) (k : Nat) : Word := entryValue s .convLut (entryAt s.conv.lut k)

/-- MLUT_RE[k] (10 R55). -/
def mlutRe (s : State) (k : Nat) : Word := entryValue s .mlutRe (entryAt s.mix.lutRe k)

/-- MLUT_IM[k] (10 R55). -/
def mlutIm (s : State) (k : Nat) : Word := entryValue s .mlutIm (entryAt s.mix.lutIm k)

/-- TAP_RE[k] (10 R63). -/
def tapRe (s : State) (k : Nat) : Word := entryValue s .tapRe (entryAt s.fir.tapRe k)

/-- TAP_IM[k] (10 R63). -/
def tapIm (s : State) (k : Nat) : Word := entryValue s .tapIm (entryAt s.fir.tapIm k)

/-- REM_RE[m] (10 R64). -/
def remRe (s : State) (m : Nat) : Word := entryValue s .remRe (entryAt s.fir.remRe m)

/-- REM_IM[m] (10 R64). -/
def remIm (s : State) (m : Nat) : Word := entryValue s .remIm (entryAt s.fir.remIm m)

/-! ### Command plans: what a command tests, and the DMEM bytes it uses -/

/-- A run of DMEM bytes. -/
structure Span where
  addr : Nat
  len : Nat
  deriving DecidableEq, Repr

/-- The byte lies in the run. -/
def spanCovers (sp : Span) (a : Nat) : Bool := sp.addr ≤ a && a < sp.addr + sp.len

/-- A DMEM buffer of a command's check list with a non-empty index set K (40 R164): base register value, element size,
least and greatest index in K, and whether the command writes it. -/
structure Buffer where
  base : Word
  size : Nat
  kmin : Nat
  kmax : Nat
  output : Bool
  deriving DecidableEq, Repr

/-- The first byte of a buffer's extent (40 R164). -/
def bufferFirst (b : Buffer) : Nat := b.base.toNat + b.size * b.kmin

/-- The last byte of a buffer's extent (40 R164). -/
def bufferLast (b : Buffer) : Nat := b.base.toNat + b.size * b.kmax + b.size - 1

/-- One binary32 output element: its address, its value, and the DMEM bytes its computation reads. -/
structure Store where
  addr : Nat
  value : Word
  reads : List Span
  deriving DecidableEq, Repr

/-- What a command does before it changes any state: whether it completes at once (the bounds no-op of 40 R161 or the
empty block of 40 R165), its configuration tests and buffers in check order (40 R163), whether it is a block command,
the DMEM elements it writes in order, and the DMEM bytes it reads for a result inside the core. -/
structure Plan where
  noop : Bool := false
  tests : List (Bool × Cause) := []
  buffers : List Buffer := []
  block : Bool := false
  stores : List Store := []
  loads : List Span := []
  deriving DecidableEq, Repr

/-- A raised error: its cause and the value for ERRADDR. -/
structure Failure where
  cause : Cause
  addr : Word
  deriving DecidableEq, Repr

/-- The first configuration test that fails (40 R163); ERRADDR is then 0 (60 R310). -/
def testFailure : List (Bool × Cause) → Option Failure
  | [] => none
  | (failed, c) :: rest => if failed then some { cause := c, addr := 0#32 } else testFailure rest

/-- The buffer test of 40 R164: ALIGN before MEM_RANGE; ERRADDR is the base. -/
def bufferFailure (dmemSize : Nat) (b : Buffer) : Option Failure :=
  if b.size ≠ 1 ∧ b.base.toNat % 4 ≠ 0 then some { cause := .align, addr := b.base }
  else if dmemSize ≤ bufferLast b then some { cause := .memRange, addr := b.base }
  else none

/-- Two extents share a byte. -/
def buffersMeet (a b : Buffer) : Bool := bufferFirst a ≤ bufferLast b && bufferFirst b ≤ bufferLast a

/-- The overlap test of 40 R167: ERRADDR is the base of the first output buffer, in listed order, whose extent meets
that of an input buffer or of another output buffer. `before` holds the buffers already passed. -/
def overlapFailure (before : List Buffer) : List Buffer → Option Failure
  | [] => none
  | b :: rest =>
    if b.output && (before ++ rest).any (buffersMeet b) then some { cause := .overlap, addr := b.base }
    else overlapFailure (before ++ [b]) rest

/-- The check phase (40 R162) in the order of 40 R163. -/
def planFailure (dmemSize : Nat) (p : Plan) : Option Failure :=
  match testFailure p.tests with
  | some f => some f
  | none =>
    match p.buffers.findSome? (bufferFailure dmemSize) with
    | some f => some f
    | none => if p.block then overlapFailure [] p.buffers else none

/-- The command would write this DMEM byte. -/
def planWrites (p : Plan) (a : Nat) : Bool := p.stores.any (fun st => spanCovers { addr := st.addr, len := 4 } a)

/-- The command would read this DMEM byte. -/
def planReads (p : Plan) (a : Nat) : Bool :=
  p.stores.any (fun st => st.reads.any (fun sp => spanCovers sp a)) || p.loads.any (fun sp => spanCovers sp a)

/-! ### Completion, errors and results -/

/-- Completion without error (40 R160 step 3): BUSY 0, DONE 1, P gone. -/
def complete (s : State) : State := { s with pending := none, raced := [], done := true }

/-- The error record of 60 R310, the machine's one way to take an error: BUSY 0, ERR 1, CAUSE, ERRINFO the command
word, ERRADDR; P is gone and nothing else changes. -/
def raiseError (f : Failure) (w : Word) (s : State) : State :=
  { s with pending := none, raced := [], error := some f.cause, errInfo := w, errAddr := f.addr }

/-- The return from an error (60 R315): ERR 0 and CAUSE 0; ERRINFO and ERRADDR keep the record. -/
def clearError (s : State) : State := { s with error := none }

/-- A word with an illegal encoding raises ILLEGAL_CMD with ERRADDR 0 (60 R301, R310). -/
def illegalCommand (w : Word) (s : State) : State := raiseError { cause := .illegalCmd, addr := 0#32 } w s

/-- The check phase and then the execute phase of a command with word `w` (40 R161 to R163). -/
def runPlan (w : Word) (p : Plan) (effect : State → State) (s : State) : Host.Outcome State Fault Refusal :=
  if p.noop then .next (complete s)
  else
    match planFailure s.params.dmemSize p with
    | some f => .next (raiseError f w s)
    | none => .next (complete (effect s))

/-- The value of the n-th result of a command: a free word if a byte the result is computed from or stored in is
raced (20 R112, log entry 5); otherwise `v`. -/
def racedWord (s : State) (spans : List Span) (n : Nat) (v : Word) : Word :=
  if s.raced.any (fun a => spans.any (fun sp => spanCovers sp a)) then Config.freeWord (s.fresh + n) else v

/-- The free-word counter after a command with `n` results: unchanged where there was no race. -/
def freshAfter (s : State) (n : Nat) : Nat := if s.raced = [] then s.fresh else s.fresh + n

/-- Write the elements to DMEM in order, the n-th of them being result number `n` of the command. -/
def writeStores (s : State) : Memory → Nat → List Store → Memory
  | m, _, [] => m
  | m, n, st :: rest =>
    writeStores s (memWrite32 m st.addr (racedWord s ({ addr := st.addr, len := 4 } :: st.reads) n st.value))
      (n + 1) rest

/-- The execute phase of a command whose results are DMEM elements: every value was computed from the state the command
started in (40 R166, R168), then the elements are written. -/
def storeAll (stores : List Store) (s : State) : State :=
  { s with dmem := writeStores s s.dmem 0 stores, fresh := freshAfter s stores.length }

/-- The DMEM a reset leaves when it abandons a command: each element the command would have written holds any value
(70 R340, log entry 6). -/
def abandonStores : Memory → Nat → List Store → Memory
  | m, _, [] => m
  | m, n, st :: rest => abandonStores (memWrite32 m st.addr (Config.freeWord n)) (n + 1) rest

/-- REG_RANGE (60 R311, 10 R70): recorded only when no error is recorded; BUSY and DONE are untouched. -/
def recordRegRange (off : Word) (index : Word) (s : State) : State :=
  match s.error with
  | some _ => s
  | none => { s with error := some .regRange, errInfo := off, errAddr := index }

end Sys2Proof.Machine
end

