-- ==== Sys2Proof/Machine/Operands.lean ====
section
/-! DEFINITION. The operand forms of the commands: element indexes and counts (spec/40_command_common.md R161, R165),
element addresses (spec/20_memory.md R104), buffers (40 R164), byte indexes (spec/41_convert.md R190), interleaving,
and the FIR's extended input and windows (spec/43_fir.md R240 to R242, R249, R253). -/

namespace Sys2Proof.Machine

/-! ### Indexes and addresses -/

/-- An operand i is a valid index when i + O < L (40 R161). -/
def invalidIndex (i : Nat) (ooff olen : BitVec 24) : Bool := olen.toNat ≤ i + ooff.toNat

/-- M = max(L - O, 0), the number of valid indexes of a block (40 R165). -/
def blockCount (ooff olen : BitVec 24) : Nat := olen.toNat - ooff.toNat

/-- The address of element k of a byte buffer (20 R104). -/
def byteAddr (base : Word) (k : Nat) : Nat := base.toNat + k

/-- The address of element k of a float buffer (20 R104). -/
def floatAddr (base : Word) (k : Nat) : Nat := base.toNat + 4 * k

/-- The bytes of float elements kmin to kmax. -/
def floatSpan (base : Word) (kmin kmax : Nat) : Span := { addr := floatAddr base kmin, len := 4 * (kmax + 1 - kmin) }

/-! ### Buffers of a check list -/

/-- An input byte buffer with K = (kmin .. kmax). -/
def byteInput (base : Word) (kmin kmax : Nat) : Buffer := { base, size := 1, kmin, kmax, output := false }

/-- An input float buffer with K = (kmin .. kmax). -/
def floatInput (base : Word) (kmin kmax : Nat) : Buffer := { base, size := 4, kmin, kmax, output := false }

/-- An output float buffer with K = (kmin .. kmax). -/
def floatOutput (base : Word) (kmin kmax : Nat) : Buffer := { base, size := 4, kmin, kmax, output := true }

/-- The output buffers of an interleaved block of M indexes (41 R192, 42 R215): the real one with
K = (0 .. ((M+1) >> 1) - 1), then the imaginary one with K = (0 .. (M >> 1) - 1), empty when M = 1. -/
def interleavedOutputs (outRe outIm : Word) (m : Nat) : List Buffer :=
  floatOutput outRe 0 ((m + 1) / 2 - 1) :: (if 2 ≤ m then [floatOutput outIm 0 (m / 2 - 1)] else [])

/-- The base of the stream an interleaved index writes: even to the real one, odd to the imaginary one (41 R191). -/
def interleavedBase (outRe outIm : Word) (i : Nat) : Word := if i % 2 = 0 then outRe else outIm

/-! ### Byte indexes -/

/-- The LUT index of an input byte (41 R190; 42 R214 uses the same). -/
def lutIndex (signed : Bool) (b : Byte) : Nat := if signed then (b ^^^ 0x80#8).toNat else b.toNat

/-! ### The FIR's windows -/

/-- K, the number of taps consulted (43 R241). -/
def tapCount (f : FirBank) : Nat := if f.xtap then f.order.toNat + 1 else f.order.toNat

/-- base(i) = iO + i*D - N + 1 (43 R242). -/
def windowBase (f : FirBank) (i : Nat) : Int := f.ioff.toNat + i * f.decim.toNat - f.order.toNat + 1

/-- The first block sample of a window or refresh range that starts at j: max(j, 0). -/
def firstSample (j : Int) : Nat := j.toNat

/-- X_re(j) (43 R240): the remainder for j < 0, the input buffer for j >= 0. -/
def inputRe (s : State) (j : Int) : Word :=
  if j < 0 then remRe s (s.fir.order.toNat - 1 + j).toNat else memRead32 s.dmem (floatAddr s.fir.inRe j.toNat)

/-- X_im(j) (43 R240). -/
def inputIm (s : State) (j : Int) : Word :=
  if j < 0 then remIm s (s.fir.order.toNat - 1 + j).toNat else memRead32 s.dmem (floatAddr s.fir.inIm j.toNat)

/-- Kin(i) = (max(base(i), 0) .. base(i) + K - 1) of one input buffer (43 section 2), as a buffer of the check list. -/
def windowInput (f : FirBank) (base : Word) (i : Nat) : Buffer :=
  floatInput base (firstSample (windowBase f i)) (windowBase f i + tapCount f - 1).toNat

/-- The bytes of the block samples of window i. -/
def windowSpan (f : FirBank) (base : Word) (i : Nat) : Span :=
  floatSpan base (firstSample (windowBase f i)) (windowBase f i + tapCount f - 1).toNat

/-- Kin = (max(iO - N + 1, 0) .. iO + (M-1)*D + K - N), the hull of a block's windows (43 section 3, R253), M >= 1. -/
def hullInput (f : FirBank) (base : Word) : Buffer :=
  floatInput base (firstSample (windowBase f 0))
    (windowBase f (blockCount f.ooff f.olen - 1) + tapCount f - 1).toNat

/-- F = iO + M*D - N + 1, the first sample a refresh copies (43 R249). -/
def refreshFirst (f : FirBank) : Int :=
  f.ioff.toNat + blockCount f.ooff f.olen * f.decim.toNat - f.order.toNat + 1

/-- Kr = (max(F, 0) .. F + N - 2) is not empty (43 R249). -/
def refreshReads (f : FirBank) : Bool := decide (max (refreshFirst f) 0 ≤ refreshFirst f + f.order.toNat - 2)

/-- The Kr buffer of one input channel; none when Kr is empty. -/
def refreshInputs (f : FirBank) (bases : List Word) : List Buffer :=
  if refreshReads f then
    bases.map (fun b => floatInput b (firstSample (refreshFirst f)) (refreshFirst f + f.order.toNat - 2).toNat)
  else []

/-- The DMEM bytes a refresh reads. -/
def refreshSpans (f : FirBank) (bases : List Word) : List Span :=
  if refreshReads f then
    bases.map (fun b => floatSpan b (firstSample (refreshFirst f)) (refreshFirst f + f.order.toNat - 2).toNat)
  else []

end Sys2Proof.Machine
end

