-- ==== Sys2Proof/Machine/Common.lean ====
section
/-! DEFINITION. The commands that belong to no kernel: NOP and RESET_STATE (spec/40_command_common.md R169, R170). -/

namespace Sys2Proof.Machine

/-- Every remainder entry becomes +0.0, the whole of both memories (40 R170, 43 R251). -/
def clearRemainder (s : State) : State :=
  let zero (_ : Nat) : Entry := .written 0#32
  { s with
    fir := { s.fir with
      remRe := entriesFill s.fir.remRe (s.params.firMaxOrder - 1) zero
      remIm := entriesFill s.fir.remIm (s.params.firMaxOrder - 1) zero } }

/-- The history becomes (+0.0, +0.0) (40 R170, 44 R285). -/
def clearHistory (s : State) : State := { s with dem := { s.dem with hre := 0#32, him := 0#32 } }

/-- NOP tests nothing (40 R169). -/
def planNop : Plan := {}

/-- NOP (40 R169): no effect but completion. -/
def execNop (s : State) : Host.Outcome State Fault Refusal :=
  runPlan (encode .nop) planNop id s

/-- RESET_STATE tests nothing (40 R170). -/
def planResetState : Plan := {}

/-- RESET_STATE (40 R170): remainder and history to +0.0. -/
def execResetState (s : State) : Host.Outcome State Fault Refusal :=
  runPlan (encode .resetState) planResetState (fun t => clearHistory (clearRemainder t)) s

end Sys2Proof.Machine
end

