-- ==== Sys2Proof/Machine/Conv.lean ====
section
/-! DEFINITION. The Sample-to-Float Converter: CONV_ELEM and CONV_BLOCK (spec/41_convert.md R190 to R192). -/

namespace Sys2Proof.Machine

/-- The value Body_CONV(i) writes (41 R191): the LUT entry the input byte selects. -/
def convValue (s : State) (i : Nat) : Word :=
  convLut s (lutIndex s.conv.signed (memRead8 s.dmem (byteAddr s.conv.inAddr i)))

/-- The address Body_CONV(i) writes (41 R191). -/
def convDest (s : State) (i : Nat) : Nat :=
  if s.conv.ilv then floatAddr (interleavedBase s.conv.outRe s.conv.outIm i) (i / 2) else floatAddr s.conv.outRe i

/-- Body_CONV(i) (41 R191). -/
def convBody (s : State) (i : Nat) : Store :=
  { addr := convDest s i, value := convValue s i, reads := [{ addr := byteAddr s.conv.inAddr i, len := 1 }] }

/-- The checks and the element of CONV_ELEM i (41 R191). -/
def planConvElem (i : Nat) (s : State) : Plan :=
  { noop := invalidIndex i s.conv.ooff s.conv.olen
    buffers := [byteInput s.conv.inAddr i i,
      if s.conv.ilv then floatOutput (interleavedBase s.conv.outRe s.conv.outIm i) (i / 2) (i / 2)
      else floatOutput s.conv.outRe i i]
    stores := [convBody s i] }

/-- The checks and the elements of CONV_BLOCK (41 R192). -/
def planConvBlock (s : State) : Plan :=
  let m := blockCount s.conv.ooff s.conv.olen
  { noop := m = 0
    buffers := byteInput s.conv.inAddr 0 (m - 1) ::
      (if s.conv.ilv then interleavedOutputs s.conv.outRe s.conv.outIm m else [floatOutput s.conv.outRe 0 (m - 1)])
    block := true
    stores := (List.range m).map (convBody s) }

/-- CONV_ELEM i (41 R191). -/
def execConvElem (i : Nat) (s : State) : Host.Outcome State Fault Refusal :=
  runPlan (encode (.convElem i)) (planConvElem i s) (storeAll (planConvElem i s).stores) s

/-- CONV_BLOCK (41 R192). -/
def execConvBlock (s : State) : Host.Outcome State Fault Refusal :=
  runPlan (encode .convBlock) (planConvBlock s) (storeAll (planConvBlock s).stores) s

end Sys2Proof.Machine
end

