-- ==== Sys2Proof/Machine/Float.lean ====
section
/-! DEFINITION. The binary32 primitives fmul, fadd and fsub of spec/00_scope.md R17: IEEE 754 binary32, round to
nearest ties to even, subnormals kept, every NaN result the canonical NaN. PRESUMED (log entry 9): the IEEE
definitions are general knowledge (spec/93 G1). A finite pattern is an integer multiple of 2^-149, so sums and
products are computed exactly over the integers and rounded once. -/

namespace Sys2Proof.Machine

/-- The canonical NaN (00 R17). -/
def canonicalNaN : Word := 0x7FC00000#32

/-- The sign bit: true for a negative pattern. -/
def f32Sign (a : Word) : Bool := a.msb

/-- The biased exponent field. -/
def f32Exp (a : Word) : Nat := (a.extractLsb' 23 8).toNat

/-- The fraction field. -/
def f32Frac (a : Word) : Nat := (a.extractLsb' 0 23).toNat

/-- The pattern is a NaN. -/
def f32IsNaN (a : Word) : Bool := f32Exp a == 255 && f32Frac a != 0

/-- The pattern is an infinity. -/
def f32IsInf (a : Word) : Bool := f32Exp a == 255 && f32Frac a == 0

/-- The magnitude of a finite pattern in units of 2^-149, subnormals included. -/
def f32Mag (a : Word) : Nat :=
  if f32Exp a = 0 then f32Frac a else (2 ^ 23 + f32Frac a) * 2 ^ (f32Exp a - 1)

/-- The value of a finite pattern in units of 2^-149. -/
def f32Int (a : Word) : Int := if f32Sign a then -(f32Mag a : Int) else (f32Mag a : Int)

/-- m / 2^d rounded to the nearest integer, ties to even. -/
def roundHalfEven (m d : Nat) : Nat :=
  let q := m / 2 ^ d
  let r := m % 2 ^ d
  if 2 * r > 2 ^ d ∨ (2 * r = 2 ^ d ∧ q % 2 = 1) then q + 1 else q

/-- The number of bits of m. -/
def bitLength (m : Nat) : Nat := if m = 0 then 0 else Nat.log2 m + 1

/-- A sign and a 31-bit magnitude field as a pattern. -/
def f32Pack (neg : Bool) (mag : Nat) : Word := BitVec.ofNat 32 (if neg then 2 ^ 31 + mag else mag)

/-- The magnitude field (exponent and fraction) of m * 2^-(149 + k) rounded to binary32; a value past the largest
finite one gives the field of infinity. -/
def f32RoundMag (m k : Nat) : Nat :=
  let drop := max k (bitLength m - 24)
  min ((drop - k) * 2 ^ 23 + roundHalfEven m drop) 0x7F800000

/-- The binary32 pattern nearest to ± m * 2^-(149 + k). -/
def f32Round (neg : Bool) (m k : Nat) : Word := f32Pack neg (f32RoundMag m k)

/-- An infinity. -/
def f32Infinity (neg : Bool) : Word := f32Pack neg 0x7F800000

/-- Binary32 multiplication (00 R17). -/
def fmul (a b : Word) : Word :=
  let neg := f32Sign a ^^ f32Sign b
  if f32IsNaN a || f32IsNaN b then canonicalNaN
  else if f32IsInf a || f32IsInf b then
    (if f32Mag a = 0 ∨ f32Mag b = 0 then canonicalNaN else f32Infinity neg)
  else f32Round neg (f32Mag a * f32Mag b) 149

/-- Binary32 addition (00 R17): an exact zero sum is +0.0 unless both operands are -0.0. -/
def fadd (a b : Word) : Word :=
  if f32IsNaN a || f32IsNaN b then canonicalNaN
  else if f32IsInf a then
    (if f32IsInf b && (f32Sign a != f32Sign b) then canonicalNaN else a)
  else if f32IsInf b then b
  else
    let sum := f32Int a + f32Int b
    if sum = 0 then f32Pack (f32Sign a && f32Sign b) 0
    else f32Round (sum < 0) sum.natAbs 0

/-- The pattern with its sign bit inverted. -/
def f32Negate (a : Word) : Word := a ^^^ 0x80000000#32

/-- Binary32 subtraction (00 R17). -/
def fsub (a b : Word) : Word := fadd a (f32Negate b)

end Sys2Proof.Machine
end

