-- ==== Sys2Proof/Machine/Dem.lean ====
section
/-! DEFINITION. The Quadrature Demodulator: DEM_ELEM, DEM_BLOCK, DEM_SAVE and DEM_RESET (spec/44_demod.md R280 to
R285). -/

namespace Sys2Proof.Machine

/-- re of ConjMul(c, p) (44 R280). -/
def conjMulRe (cRe cIm pRe pIm : Word) : Word := fadd (fmul cRe pRe) (fmul cIm pIm)

/-- im of ConjMul(c, p) (44 R280). -/
def conjMulIm (cRe cIm pRe pIm : Word) : Word := fsub (fmul cIm pRe) (fmul cRe pIm)

/-- The real part of input sample k. -/
def demInRe (s : State) (k : Nat) : Word := memRead32 s.dmem (floatAddr s.dem.inRe k)

/-- The imaginary part of input sample k. -/
def demInIm (s : State) (k : Nat) : Word := memRead32 s.dmem (floatAddr s.dem.inIm k)

/-- The real part of the previous sample of element i: the history when i = 0, whatever iO is (44 R282). -/
def demPrevRe (s : State) (i : Nat) : Word := if i = 0 then s.dem.hre else demInRe s (s.dem.ioff.toNat + i - 1)

/-- The imaginary part of the previous sample of element i (44 R282). -/
def demPrevIm (s : State) (i : Nat) : Word := if i = 0 then s.dem.him else demInIm s (s.dem.ioff.toNat + i - 1)

/-- The value Body_DEM(i) writes: gain * ATAN2(im, re) (44 R282). -/
def demValue (s : State) (i : Nat) : Word :=
  let k := s.dem.ioff.toNat + i
  let re := conjMulRe (demInRe s k) (demInIm s k) (demPrevRe s i) (demPrevIm s i)
  let im := conjMulIm (demInRe s k) (demInIm s k) (demPrevRe s i) (demPrevIm s i)
  fmul s.dem.gain (Config.atan2 im re)

/-- The least input index in Ki: iO for i = 0, iO + i - 1 otherwise (44 R282). -/
def demFirstInput (s : State) (i : Nat) : Nat := if i = 0 then s.dem.ioff.toNat else s.dem.ioff.toNat + i - 1

/-- Body_DEM(i) (44 R282). -/
def demBody (s : State) (i : Nat) : Store :=
  { addr := floatAddr s.dem.out i, value := demValue s i,
    reads := [floatSpan s.dem.inRe (demFirstInput s i) (s.dem.ioff.toNat + i),
      floatSpan s.dem.inIm (demFirstInput s i) (s.dem.ioff.toNat + i)] }

/-- The checks and the element of DEM_ELEM i (44 R282). -/
def planDemElem (i : Nat) (s : State) : Plan :=
  { noop := invalidIndex i s.dem.ooff s.dem.olen
    buffers := [floatInput s.dem.inRe (demFirstInput s i) (s.dem.ioff.toNat + i),
      floatInput s.dem.inIm (demFirstInput s i) (s.dem.ioff.toNat + i), floatOutput s.dem.out i i]
    stores := [demBody s i] }

/-- The checks and the elements of DEM_BLOCK (44 R283). -/
def planDemBlock (s : State) : Plan :=
  let m := blockCount s.dem.ooff s.dem.olen
  let first := s.dem.ioff.toNat
  { noop := m = 0
    buffers := [floatInput s.dem.inRe first (first + m - 1), floatInput s.dem.inIm first (first + m - 1),
      floatOutput s.dem.out 0 (m - 1)]
    block := true
    stores := (List.range m).map (demBody s) }

/-- DEM_ELEM i (44 R282). -/
def execDemElem (i : Nat) (s : State) : Host.Outcome State Fault Refusal :=
  runPlan (encode (.demElem i)) (planDemElem i s) (storeAll (planDemElem i s).stores) s

/-- DEM_BLOCK (44 R283). -/
def execDemBlock (s : State) : Host.Outcome State Fault Refusal :=
  runPlan (encode .demBlock) (planDemBlock s) (storeAll (planDemBlock s).stores) s

/-- h = iO + L - 1, the index DEM_SAVE captures when L >= 1 (44 R284). -/
def saveIndex (s : State) : Nat := s.dem.ioff.toNat + s.dem.olen.toNat - 1

/-- The checks of DEM_SAVE (44 R284): L = 0 completes with no effect. -/
def planDemSave (s : State) : Plan :=
  { noop := s.dem.olen.toNat = 0
    buffers := [floatInput s.dem.inRe (saveIndex s) (saveIndex s), floatInput s.dem.inIm (saveIndex s) (saveIndex s)]
    loads := [floatSpan s.dem.inRe (saveIndex s) (saveIndex s), floatSpan s.dem.inIm (saveIndex s) (saveIndex s)] }

/-- The effect of DEM_SAVE (44 R284): the history becomes input sample h, bit for bit. -/
def saveHistory (s : State) : State :=
  { s with
    dem := { s.dem with
      hre := racedWord s [floatSpan s.dem.inRe (saveIndex s) (saveIndex s)] 0 (demInRe s (saveIndex s))
      him := racedWord s [floatSpan s.dem.inIm (saveIndex s) (saveIndex s)] 1 (demInIm s (saveIndex s)) }
    fresh := freshAfter s 2 }

/-- DEM_SAVE (44 R284). -/
def execDemSave (s : State) : Host.Outcome State Fault Refusal :=
  runPlan (encode .demSave) (planDemSave s) saveHistory s

/-- DEM_RESET tests nothing (44 R285). -/
def planDemReset : Plan := {}

/-- DEM_RESET (44 R285): the history becomes (+0.0, +0.0). -/
def execDemReset (s : State) : Host.Outcome State Fault Refusal :=
  runPlan (encode .demReset) planDemReset clearHistory s

end Sys2Proof.Machine
end

