-- ==== Sys2Proof/Machine/Fir.lean ====
section
/-! DEFINITION. The FIR Filter / Decimator: the element and block commands of the three variants, the remainder
refreshes and FIR_CLEAR (spec/43_fir.md R240 to R253). -/

namespace Sys2Proof.Machine

/-- The configuration tests of every FIR command but FIR_CLEAR: BAD_ORDER, then BAD_DECIM (43 R252). -/
def firTests (s : State) : List (Bool × Cause) :=
  [(s.fir.order.toNat = 0 || s.params.firMaxOrder < s.fir.order.toNat, .badOrder),
   (decide (s.fir.decim = 0#24), .badDecim)]

/-! ### The accumulations (43 R242): ascending k from +0.0, every operation rounded -/

/-- acc + Σ_k term(k) over k = 0 .. n-1, added in ascending order. -/
def accumulate (term : Nat → Word) (n : Nat) : Word := (List.range n).foldl (fun acc k => fadd acc (term k)) 0#32

/-- accRe of Body_RC(i), and acc of Body_RR(i) (43 R243, R244). -/
def firRealRe (s : State) (i : Nat) : Word :=
  accumulate (fun k => fmul (tapRe s k) (inputRe s (windowBase s.fir i + k))) (tapCount s.fir)

/-- accIm of Body_RC(i) (43 R243). -/
def firRealIm (s : State) (i : Nat) : Word :=
  accumulate (fun k => fmul (tapRe s k) (inputIm s (windowBase s.fir i + k))) (tapCount s.fir)

/-- accRe of Body_CC(i): the product difference is rounded before it is added (43 R245). -/
def firComplexRe (s : State) (i : Nat) : Word :=
  accumulate
    (fun k => fsub (fmul (tapRe s k) (inputRe s (windowBase s.fir i + k)))
      (fmul (tapIm s k) (inputIm s (windowBase s.fir i + k))))
    (tapCount s.fir)

/-- accIm of Body_CC(i) (43 R245). -/
def firComplexIm (s : State) (i : Nat) : Word :=
  accumulate
    (fun k => fadd (fmul (tapRe s k) (inputIm s (windowBase s.fir i + k)))
      (fmul (tapIm s k) (inputRe s (windowBase s.fir i + k))))
    (tapCount s.fir)

/-! ### Element bodies -/

/-- Body_RC(i) (43 R243): real first, then imaginary. -/
def firRcBody (s : State) (i : Nat) : List Store :=
  [{ addr := floatAddr s.fir.outRe i, value := firRealRe s i, reads := [windowSpan s.fir s.fir.inRe i] },
   { addr := floatAddr s.fir.outIm i, value := firRealIm s i, reads := [windowSpan s.fir s.fir.inIm i] }]

/-- Body_RR(i) (43 R244). -/
def firRrBody (s : State) (i : Nat) : List Store :=
  [{ addr := floatAddr s.fir.outRe i, value := firRealRe s i, reads := [windowSpan s.fir s.fir.inRe i] }]

/-- Body_CC(i) (43 R245). -/
def firCcBody (s : State) (i : Nat) : List Store :=
  [{ addr := floatAddr s.fir.outRe i, value := firComplexRe s i,
     reads := [windowSpan s.fir s.fir.inRe i, windowSpan s.fir s.fir.inIm i] },
   { addr := floatAddr s.fir.outIm i, value := firComplexIm s i,
     reads := [windowSpan s.fir s.fir.inRe i, windowSpan s.fir s.fir.inIm i] }]

/-! ### Plans -/

/-- The buffers of a complex-signal element (43 R243). -/
def complexElemBuffers (f : FirBank) (i : Nat) : List Buffer :=
  [windowInput f f.inRe i, windowInput f f.inIm i, floatOutput f.outRe i i, floatOutput f.outIm i i]

/-- The buffers of a complex-signal block of M >= 1 outputs (43 R246). -/
def complexBlockBuffers (f : FirBank) : List Buffer :=
  let last := blockCount f.ooff f.olen - 1
  [hullInput f f.inRe, hullInput f f.inIm, floatOutput f.outRe 0 last, floatOutput f.outIm 0 last]

/-- The checks and the elements of FIR_RC_ELEM i (43 R243). -/
def planFirRcElem (i : Nat) (s : State) : Plan :=
  { noop := invalidIndex i s.fir.ooff s.fir.olen
    tests := firTests s
    buffers := complexElemBuffers s.fir i
    stores := firRcBody s i }

/-- The checks and the elements of FIR_RR_ELEM i (43 R244). -/
def planFirRrElem (i : Nat) (s : State) : Plan :=
  { noop := invalidIndex i s.fir.ooff s.fir.olen
    tests := firTests s
    buffers := [windowInput s.fir s.fir.inRe i, floatOutput s.fir.outRe i i]
    stores := firRrBody s i }

/-- The checks and the elements of FIR_CC_ELEM i (43 R245). -/
def planFirCcElem (i : Nat) (s : State) : Plan :=
  { noop := invalidIndex i s.fir.ooff s.fir.olen
    tests := firTests s
    buffers := complexElemBuffers s.fir i
    stores := firCcBody s i }

/-- The checks and the elements of FIR_RC_BLOCK (43 R246). -/
def planFirRcBlock (s : State) : Plan :=
  { noop := blockCount s.fir.ooff s.fir.olen = 0
    tests := firTests s
    buffers := complexBlockBuffers s.fir
    block := true
    stores := (List.range (blockCount s.fir.ooff s.fir.olen)).flatMap (firRcBody s) }

/-- The checks and the elements of FIR_RR_BLOCK (43 R247). -/
def planFirRrBlock (s : State) : Plan :=
  { noop := blockCount s.fir.ooff s.fir.olen = 0
    tests := firTests s
    buffers := [hullInput s.fir s.fir.inRe, floatOutput s.fir.outRe 0 (blockCount s.fir.ooff s.fir.olen - 1)]
    block := true
    stores := (List.range (blockCount s.fir.ooff s.fir.olen)).flatMap (firRrBody s) }

/-- The checks and the elements of FIR_CC_BLOCK (43 R248). -/
def planFirCcBlock (s : State) : Plan :=
  { noop := blockCount s.fir.ooff s.fir.olen = 0
    tests := firTests s
    buffers := complexBlockBuffers s.fir
    block := true
    stores := (List.range (blockCount s.fir.ooff s.fir.olen)).flatMap (firCcBody s) }

/-! ### Element and block commands -/

/-- FIR_RC_ELEM i (43 R243). -/
def execFirRcElem (i : Nat) (s : State) : Host.Outcome State Fault Refusal :=
  runPlan (encode (.firRcElem i)) (planFirRcElem i s) (storeAll (planFirRcElem i s).stores) s

/-- FIR_RR_ELEM i (43 R244). -/
def execFirRrElem (i : Nat) (s : State) : Host.Outcome State Fault Refusal :=
  runPlan (encode (.firRrElem i)) (planFirRrElem i s) (storeAll (planFirRrElem i s).stores) s

/-- FIR_CC_ELEM i (43 R245). -/
def execFirCcElem (i : Nat) (s : State) : Host.Outcome State Fault Refusal :=
  runPlan (encode (.firCcElem i)) (planFirCcElem i s) (storeAll (planFirCcElem i s).stores) s

/-- FIR_RC_BLOCK (43 R246). -/
def execFirRcBlock (s : State) : Host.Outcome State Fault Refusal :=
  runPlan (encode .firRcBlock) (planFirRcBlock s) (storeAll (planFirRcBlock s).stores) s

/-- FIR_RR_BLOCK (43 R247). -/
def execFirRrBlock (s : State) : Host.Outcome State Fault Refusal :=
  runPlan (encode .firRrBlock) (planFirRrBlock s) (storeAll (planFirRrBlock s).stores) s

/-- FIR_CC_BLOCK (43 R248). -/
def execFirCcBlock (s : State) : Host.Outcome State Fault Refusal :=
  runPlan (encode .firCcBlock) (planFirCcBlock s) (storeAll (planFirCcBlock s).stores) s

/-! ### Remainder maintenance -/

/-- What entry m of a refreshed remainder receives (43 R249), m from 0 to N - 2: with j = F + m, entry N - 1 + j of the
old remainder (a copy of a not-written entry stays not written, 70 R342) or input sample j, as result number
`first + m` of the command. -/
def refreshEntry (s : State) (old : EntryMem) (base : Word) (first m : Nat) : Entry :=
  let j := refreshFirst s.fir + m
  if j < 0 then entryAt old (s.fir.order.toNat - 1 + j).toNat
  else
    .written (racedWord s [{ addr := floatAddr base j.toNat, len := 4 }] (first + m)
      (memRead32 s.dmem (floatAddr base j.toNat)))

/-- REM_RE after a refresh (43 R249): entries 0 to N - 2 from the snapshot, the others unchanged. -/
def refreshedRe (s : State) : EntryMem :=
  entriesFill s.fir.remRe (s.fir.order.toNat - 1) (refreshEntry s s.fir.remRe s.fir.inRe 0)

/-- REM_IM after a refresh (43 R249). -/
def refreshedIm (s : State) : EntryMem :=
  entriesFill s.fir.remIm (s.fir.order.toNat - 1)
    (refreshEntry s s.fir.remIm s.fir.inIm (s.fir.order.toNat - 1))

/-- The effect of FIR_REFRESH_C (43 R249): both channels. -/
def refreshComplex (s : State) : State :=
  { s with
    fir := { s.fir with remRe := refreshedRe s, remIm := refreshedIm s }
    fresh := freshAfter s (2 * (s.fir.order.toNat - 1)) }

/-- The effect of FIR_REFRESH_R (43 R250): the real channel; REM_IM is neither read nor written. -/
def refreshReal (s : State) : State :=
  { s with fir := { s.fir with remRe := refreshedRe s }, fresh := freshAfter s (s.fir.order.toNat - 1) }

/-- The checks of FIR_REFRESH_C (43 R249): not gated by M = 0. -/
def planFirRefreshC (s : State) : Plan :=
  { tests := firTests s
    buffers := refreshInputs s.fir [s.fir.inRe, s.fir.inIm]
    loads := refreshSpans s.fir [s.fir.inRe, s.fir.inIm] }

/-- FIR_REFRESH_C (43 R249). -/
def execFirRefreshC (s : State) : Host.Outcome State Fault Refusal :=
  runPlan (encode .firRefreshC) (planFirRefreshC s) refreshComplex s

/-- The checks of FIR_REFRESH_R (43 R250): the real channel alone. -/
def planFirRefreshR (s : State) : Plan :=
  { tests := firTests s
    buffers := refreshInputs s.fir [s.fir.inRe]
    loads := refreshSpans s.fir [s.fir.inRe] }

/-- FIR_REFRESH_R (43 R250). -/
def execFirRefreshR (s : State) : Host.Outcome State Fault Refusal :=
  runPlan (encode .firRefreshR) (planFirRefreshR s) refreshReal s

/-- FIR_CLEAR tests nothing (43 R251). -/
def planFirClear : Plan := {}

/-- FIR_CLEAR (43 R251): every remainder entry to +0.0. -/
def execFirClear (s : State) : Host.Outcome State Fault Refusal :=
  runPlan (encode .firClear) planFirClear clearRemainder s

end Sys2Proof.Machine
end

