-- ==== Sys2Proof/Machine/Mix.lean ====
section
/-! DEFINITION. The Frequency Mixer: MIX_ELEM, MIX_BLOCK, MIX_GENLUT, MIX_ADVANCE, MIX_REFRESH and MIX_RESET
(spec/42_mixer.md R213 to R218). -/

namespace Sys2Proof.Machine

/-- The BAD_COSLEN test: C = 0 or C > MIX_COSLEN_MAX (60 R304). -/
def badCoslen (s : State) : Bool := s.mix.coslen.toNat = 0 || s.params.mixCoslenMax < s.mix.coslen.toNat

/-- The tests of MIX_ELEM and MIX_BLOCK: BAD_COSLEN, then LUT_STALE (42 R214, R215). -/
def mixTests (s : State) : List (Bool × Cause) := [(badCoslen s, .badCoslen), (!s.mix.lutValid, .lutStale)]

/-- The phase index of position i: the complex sample index i >> 1 when interleaved (42 R214). -/
def phaseIndex (s : State) (i : Nat) : Nat := if s.mix.ilv then i / 2 else i

/-- The flat LUT index 256 * off + v of position i (42 R214, 10 R55). -/
def mixLutIndex (s : State) (i : Nat) : Nat :=
  256 * ((s.mix.base.toNat + phaseIndex s i) % s.mix.coslen.toNat)
    + lutIndex s.mix.signed (memRead8 s.dmem (byteAddr s.mix.inAddr i))

/-- The input byte Body_MIX(i) reads. -/
def mixReads (s : State) (i : Nat) : List Span := [{ addr := byteAddr s.mix.inAddr i, len := 1 }]

/-- The real output of Body_MIX(i), at element k of the real buffer. -/
def mixStoreRe (s : State) (i k : Nat) : Store :=
  { addr := floatAddr s.mix.outRe k, value := mlutRe s (mixLutIndex s i), reads := mixReads s i }

/-- The imaginary output of Body_MIX(i), at element k of the imaginary buffer. -/
def mixStoreIm (s : State) (i k : Nat) : Store :=
  { addr := floatAddr s.mix.outIm k, value := mlutIm s (mixLutIndex s i), reads := mixReads s i }

/-- Body_MIX(i) (42 R214): both outputs, real first, or when interleaved the one the parity of i selects. -/
def mixBody (s : State) (i : Nat) : List Store :=
  if s.mix.ilv then (if i % 2 = 0 then [mixStoreRe s i (i / 2)] else [mixStoreIm s i (i / 2)])
  else [mixStoreRe s i i, mixStoreIm s i i]

/-- The checks and the elements of MIX_ELEM i (42 R214). -/
def planMixElem (i : Nat) (s : State) : Plan :=
  { noop := invalidIndex i s.mix.ooff s.mix.olen
    tests := mixTests s
    buffers := byteInput s.mix.inAddr i i ::
      (if s.mix.ilv then [floatOutput (interleavedBase s.mix.outRe s.mix.outIm i) (i / 2) (i / 2)]
       else [floatOutput s.mix.outRe i i, floatOutput s.mix.outIm i i])
    stores := mixBody s i }

/-- The checks and the elements of MIX_BLOCK (42 R215). -/
def planMixBlock (s : State) : Plan :=
  let m := blockCount s.mix.ooff s.mix.olen
  { noop := m = 0
    tests := mixTests s
    buffers := byteInput s.mix.inAddr 0 (m - 1) ::
      (if s.mix.ilv then interleavedOutputs s.mix.outRe s.mix.outIm m
       else [floatOutput s.mix.outRe 0 (m - 1), floatOutput s.mix.outIm 0 (m - 1)])
    block := true
    stores := (List.range m).flatMap (mixBody s) }

/-- MIX_ELEM i (42 R214). -/
def execMixElem (i : Nat) (s : State) : Host.Outcome State Fault Refusal :=
  runPlan (encode (.mixElem i)) (planMixElem i s) (storeAll (planMixElem i s).stores) s

/-- MIX_BLOCK (42 R215). -/
def execMixBlock (s : State) : Host.Outcome State Fault Refusal :=
  runPlan (encode .mixBlock) (planMixBlock s) (storeAll (planMixBlock s).stores) s

/-- The LUTGEN pair of flat index k for the current MIX_CTRL.SIGNED, MIX_FREQ (signed) and MIX_RATE: phase step k / 256
and byte index k % 256 (42 R212, R213). -/
def lutgenAt (b : MixBank) (k : Nat) : Word × Word :=
  Config.lutgen b.signed b.freq.toInt b.rate.toNat (k / 256) (k % 256)

/-- The effect of MIX_GENLUT (42 R213): rows 0 to C-1 of both LUTs, and LUT_VALID. -/
def generateLut (s : State) : State :=
  { s with
    mix := { s.mix with
      lutRe := entriesFill s.mix.lutRe (256 * s.mix.coslen.toNat) (fun k => .written (lutgenAt s.mix k).1)
      lutIm := entriesFill s.mix.lutIm (256 * s.mix.coslen.toNat) (fun k => .written (lutgenAt s.mix k).2)
      lutValid := true } }

/-- The tests of MIX_GENLUT: BAD_COSLEN, then BAD_RATE (42 R213). -/
def planMixGenlut (s : State) : Plan :=
  { tests := [(badCoslen s, .badCoslen), (decide (s.mix.rate = 0#32), .badRate)] }

/-- MIX_GENLUT (42 R213). -/
def execMixGenlut (s : State) : Host.Outcome State Fault Refusal :=
  runPlan (encode .mixGenlut) (planMixGenlut s) generateLut s

/-- MIX_BASE <- (MIX_BASE + n) mod C (42 R216, R217). -/
def advancePhase (n : Nat) (s : State) : State :=
  { s with mix := { s.mix with base := BitVec.ofNat 24 ((s.mix.base.toNat + n) % s.mix.coslen.toNat) } }

/-- The test of MIX_ADVANCE (42 R216). -/
def planMixAdvance (s : State) : Plan := { tests := [(badCoslen s, .badCoslen)] }

/-- MIX_ADVANCE n (42 R216). -/
def execMixAdvance (n : Nat) (s : State) : Host.Outcome State Fault Refusal :=
  runPlan (encode (.mixAdvance n)) (planMixAdvance s) (advancePhase n) s

/-- P, the number of complex outputs the block produced (42 R217). -/
def complexOutputs (s : State) : Nat :=
  let m := blockCount s.mix.ooff s.mix.olen
  if s.mix.ilv then (m + 1) / 2 else m

/-- The test of MIX_REFRESH (42 R217). -/
def planMixRefresh (s : State) : Plan := { tests := [(badCoslen s, .badCoslen)] }

/-- MIX_REFRESH (42 R217). -/
def execMixRefresh (s : State) : Host.Outcome State Fault Refusal :=
  runPlan (encode .mixRefresh) (planMixRefresh s) (advancePhase (complexOutputs s)) s

/-- MIX_RESET tests nothing (42 R218). -/
def planMixReset : Plan := {}

/-- The effect of MIX_RESET: MIX_BASE <- 0 (42 R218). -/
def resetPhase (s : State) : State := { s with mix := { s.mix with base := 0#24 } }

/-- MIX_RESET (42 R218). -/
def execMixReset (s : State) : Host.Outcome State Fault Refusal :=
  runPlan (encode .mixReset) planMixReset resetPhase s

end Sys2Proof.Machine
end

