-- ==== Sys2Proof/Machine/Dispatch.lean ====
section
/-! DEFINITION. The execution of one command by the core (spec/40_command_common.md R160): one arm per command. -/

namespace Sys2Proof.Machine

/-- The core's step for a legal command. -/
def exec (i : Instr) (s : State) : Host.Outcome State Fault Refusal :=
  match i with
  | .nop => Sys2Proof.Machine.execNop s
  | .resetState => Sys2Proof.Machine.execResetState s
  | .convElem n => Sys2Proof.Machine.execConvElem n s
  | .convBlock => Sys2Proof.Machine.execConvBlock s
  | .mixElem n => Sys2Proof.Machine.execMixElem n s
  | .mixBlock => Sys2Proof.Machine.execMixBlock s
  | .mixGenlut => Sys2Proof.Machine.execMixGenlut s
  | .mixAdvance n => Sys2Proof.Machine.execMixAdvance n s
  | .mixRefresh => Sys2Proof.Machine.execMixRefresh s
  | .mixReset => Sys2Proof.Machine.execMixReset s
  | .firRcElem n => Sys2Proof.Machine.execFirRcElem n s
  | .firRrElem n => Sys2Proof.Machine.execFirRrElem n s
  | .firCcElem n => Sys2Proof.Machine.execFirCcElem n s
  | .firRcBlock => Sys2Proof.Machine.execFirRcBlock s
  | .firRrBlock => Sys2Proof.Machine.execFirRrBlock s
  | .firCcBlock => Sys2Proof.Machine.execFirCcBlock s
  | .firRefreshC => Sys2Proof.Machine.execFirRefreshC s
  | .firRefreshR => Sys2Proof.Machine.execFirRefreshR s
  | .firClear => Sys2Proof.Machine.execFirClear s
  | .demElem n => Sys2Proof.Machine.execDemElem n s
  | .demBlock => Sys2Proof.Machine.execDemBlock s
  | .demSave => Sys2Proof.Machine.execDemSave s
  | .demReset => Sys2Proof.Machine.execDemReset s

end Sys2Proof.Machine
end

