-- ==== Sys2Proof/Machine/Flags.lean ====
section
/-! DEFINITION. STATUS, its write-one-to-clear bits, CTRL and the `irq` output (spec/10_state.md R38, R39,
spec/60_exceptions.md R300, R315 to R318). -/

namespace Sys2Proof.Machine

/-- The cause code of 60 R300. -/
def causeCode (c : Cause) : BitVec 8 :=
  match c with
  | .illegalCmd => 1#8
  | .badOrder => 2#8
  | .badDecim => 3#8
  | .badCoslen => 4#8
  | .badRate => 5#8
  | .lutStale => 6#8
  | .align => 7#8
  | .memRange => 8#8
  | .overlap => 9#8
  | .regRange => 10#8

/-- STATUS.BUSY (10 R39, R69): a command word is pending. -/
def busy (s : State) : Bool := s.pending.isSome

/-- STATUS.ERR (10 R39). -/
def errFlag (s : State) : Bool := s.error.isSome

/-- STATUS.CAUSE: the code of the recorded error, 0 when ERR = 0 (10 R39). -/
def causeField (s : State) : BitVec 8 :=
  match s.error with
  | some c => causeCode c
  | none => 0#8

/-- One bit as a word of one bit. -/
def bit (b : Bool) : BitVec 1 := BitVec.ofBool b

/-- STATUS (10 R39): CAUSE in bits 15:8, LUT_VALID bit 3, ERR bit 2, DONE bit 1, BUSY bit 0, the rest 0. -/
def statusWord (s : State) : Word :=
  0#16 ++ causeField s ++ 0#4 ++ bit s.mix.lutValid ++ bit (errFlag s) ++ bit s.done ++ bit (busy s)

/-- A host write to STATUS (10 R39): bit 1 = 1 clears DONE, bit 2 = 1 clears ERR and CAUSE; every other bit is
ignored. -/
def writeStatus (v : Word) (s : State) : State :=
  let s' := if v.getLsbD 1 then { s with done := false } else s
  if v.getLsbD 2 then clearError s' else s'

/-- CTRL (10 R38): ERRIE bit 1, DONEIE bit 0. -/
def ctrlWord (s : State) : Word := 0#30 ++ bit s.errIe ++ bit s.doneIe

/-- A host write to CTRL (10 R38). -/
def writeCtrl (v : Word) (s : State) : State := { s with doneIe := v.getLsbD 0, errIe := v.getLsbD 1 }

/-- The level of the `irq` output (60 R317). -/
def irq (s : State) : Bool := (s.doneIe && s.done) || (s.errIe && errFlag s)

end Sys2Proof.Machine
end

