-- ==== Sys2Proof/Machine/Port.lean ====
section
/-! DEFINITION. The host agent: the register port (spec/10_state.md R32 to R70), host DMEM accesses and races
(spec/20_memory.md R110 to R112), reset (spec/70_reset_and_hazards.md R340) and the host's moves
(spec/60_exceptions.md R330). -/

namespace Sys2Proof.Machine

/-! ### The register map -/

/-- The named registers of 10 R37. -/
inductive Reg where
  | id | param0 | param1 | ctrl | status | cmd | errInfo | errAddr
  | convCtrl | convOoff | convOlen | convIn | convOutRe | convOutIm
  | mixCtrl | mixFreq | mixRate | mixCoslen | mixBase | mixOoff | mixOlen | mixIn | mixOutRe | mixOutIm | mixLidx | mixLre | mixLim
  | firCtrl | firOrder | firDecim | firIoff | firOoff | firOlen | firInRe | firInIm | firOutRe | firOutIm | firTidx | firTre | firTim | firRidx | firRre | firRim
  | demGain | demHre | demHim | demIoff | demOoff | demOlen | demInRe | demInIm | demOut
  | convLut (k : Nat)
  deriving DecidableEq, Repr

/-- The offsets of the global registers (10 R37). -/
def globalRegs : List (Nat × Reg) :=
  [(0x000, .id), (0x004, .param0), (0x008, .param1), (0x010, .ctrl), (0x014, .status), (0x018, .cmd),
   (0x01C, .errInfo), (0x020, .errAddr)]

/-- The offsets of the converter bank (10 R37). -/
def convRegs : List (Nat × Reg) :=
  [(0x100, .convCtrl), (0x104, .convOoff), (0x108, .convOlen), (0x10C, .convIn), (0x110, .convOutRe),
   (0x114, .convOutIm)]

/-- The offsets of the mixer bank (10 R37). -/
def mixRegs : List (Nat × Reg) :=
  [(0x200, .mixCtrl), (0x204, .mixFreq), (0x208, .mixRate), (0x20C, .mixCoslen), (0x210, .mixBase),
   (0x214, .mixOoff), (0x218, .mixOlen), (0x21C, .mixIn), (0x220, .mixOutRe), (0x224, .mixOutIm),
   (0x228, .mixLidx), (0x22C, .mixLre), (0x230, .mixLim)]

/-- The offsets of the FIR bank (10 R37). -/
def firRegs : List (Nat × Reg) :=
  [(0x300, .firCtrl), (0x304, .firOrder), (0x308, .firDecim), (0x30C, .firIoff), (0x310, .firOoff),
   (0x314, .firOlen), (0x318, .firInRe), (0x31C, .firInIm), (0x320, .firOutRe), (0x324, .firOutIm),
   (0x328, .firTidx), (0x32C, .firTre), (0x330, .firTim), (0x334, .firRidx), (0x338, .firRre), (0x33C, .firRim)]

/-- The offsets of the demodulator bank (10 R37). -/
def demRegs : List (Nat × Reg) :=
  [(0x380, .demGain), (0x384, .demHre), (0x388, .demHim), (0x38C, .demIoff), (0x390, .demOoff),
   (0x394, .demOlen), (0x398, .demInRe), (0x39C, .demInIm), (0x3A0, .demOut)]

/-- The register at a window offset; none where the offset is reserved (10 R35, R37). -/
def regAt (off : Nat) : Option Reg :=
  if 0x400 ≤ off ∧ off < 0x800 ∧ off % 4 = 0 then some (.convLut ((off - 0x400) / 4))
  else
    ((globalRegs ++ convRegs ++ mixRegs ++ firRegs ++ demRegs).find? (fun r => r.1 == off)).map (fun r => r.2)

/-- The access is a 32-bit access at a multiple of 4 (10 R35). -/
def properAccess (off : BitVec 12) (bytes : Nat) : Bool := bytes == 4 && off.toNat % 4 == 0

/-- For an index-port data register, its index and the depth of its memory (10 R56, R63, R64). -/
def indexPort (s : State) (r : Reg) : Option (Word × Nat) :=
  match r with
  | .firTre => some (s.fir.tidx.setWidth 32, s.params.firMaxOrder + 1)
  | .firTim => some (s.fir.tidx.setWidth 32, s.params.firMaxOrder + 1)
  | .firRre => some (s.fir.ridx.setWidth 32, s.params.firMaxOrder - 1)
  | .firRim => some (s.fir.ridx.setWidth 32, s.params.firMaxOrder - 1)
  | .mixLre => some (s.mix.lidx, 256 * s.params.mixCoslenMax)
  | .mixLim => some (s.mix.lidx, 256 * s.params.mixCoslenMax)
  | _ => none

/-- The out-of-range index value that makes an access to `r` a REG_RANGE error (10 R70). -/
def indexOutOfRange (s : State) (r : Reg) : Option Word :=
  match indexPort s r with
  | some (index, depth) => if index.toNat < depth then none else some index
  | none => none

/-- A host write of a command word to CMD: discarded while ERR = 1 (60 R314), else the word becomes the pending command
(10 R41, 40 R160). -/
def issueCommand (w : Word) (s : State) : State :=
  match s.error with
  | some _ => s
  | none => { s with pending := some w, raced := [] }

/-- A host write to MIX_CTRL: a change of SIGNED clears LUT_VALID, a change of ILV alone does not (10 R48, R57). -/
def writeMixCtrl (v : Word) (s : State) : State :=
  { s with
    mix := { s.mix with
      signed := v.getLsbD 0
      ilv := v.getLsbD 1
      lutValid := s.mix.lutValid && (v.getLsbD 0 == s.mix.signed) } }

/-- The value a read of register `r` returns, where its index port, if it is one, is in range (10 R32 to R68). Bits no
field occupies read 0 (10 R35). -/
def regValue (s : State) (r : Reg) : Word :=
  match r with
  | .id => 0x41444C37#32
  | .param0 => (BitVec.ofNat 16 s.params.firMaxOrder).setWidth 32
  | .param1 => (BitVec.ofNat 24 s.params.mixCoslenMax).setWidth 32
  | .ctrl => ctrlWord s
  | .status => statusWord s
  | .cmd => 0#32
  | .errInfo => s.errInfo
  | .errAddr => s.errAddr
  | .convCtrl => 0#30 ++ bit s.conv.ilv ++ bit s.conv.signed
  | .convOoff => s.conv.ooff.setWidth 32
  | .convOlen => s.conv.olen.setWidth 32
  | .convIn => s.conv.inAddr
  | .convOutRe => s.conv.outRe
  | .convOutIm => s.conv.outIm
  | .mixCtrl => 0#30 ++ bit s.mix.ilv ++ bit s.mix.signed
  | .mixFreq => s.mix.freq
  | .mixRate => s.mix.rate
  | .mixCoslen => s.mix.coslen.setWidth 32
  | .mixBase => s.mix.base.setWidth 32
  | .mixOoff => s.mix.ooff.setWidth 32
  | .mixOlen => s.mix.olen.setWidth 32
  | .mixIn => s.mix.inAddr
  | .mixOutRe => s.mix.outRe
  | .mixOutIm => s.mix.outIm
  | .mixLidx => s.mix.lidx
  | .mixLre => mlutRe s s.mix.lidx.toNat
  | .mixLim => mlutIm s s.mix.lidx.toNat
  | .firCtrl => 0#31 ++ bit s.fir.xtap
  | .firOrder => s.fir.order.setWidth 32
  | .firDecim => s.fir.decim.setWidth 32
  | .firIoff => s.fir.ioff.setWidth 32
  | .firOoff => s.fir.ooff.setWidth 32
  | .firOlen => s.fir.olen.setWidth 32
  | .firInRe => s.fir.inRe
  | .firInIm => s.fir.inIm
  | .firOutRe => s.fir.outRe
  | .firOutIm => s.fir.outIm
  | .firTidx => s.fir.tidx.setWidth 32
  | .firTre => tapRe s s.fir.tidx.toNat
  | .firTim => tapIm s s.fir.tidx.toNat
  | .firRidx => s.fir.ridx.setWidth 32
  | .firRre => remRe s s.fir.ridx.toNat
  | .firRim => remIm s s.fir.ridx.toNat
  | .demGain => s.dem.gain
  | .demHre => s.dem.hre
  | .demHim => s.dem.him
  | .demIoff => s.dem.ioff.setWidth 32
  | .demOoff => s.dem.ooff.setWidth 32
  | .demOlen => s.dem.olen.setWidth 32
  | .demInRe => s.dem.inRe
  | .demInIm => s.dem.inIm
  | .demOut => s.dem.out
  | .convLut k => convLut s k

/-- The effect of writing `v` to register `r`, where its index port, if it is one, is in range (10 R32 to R68). A write
to a read-only register is ignored; only the bits its fields occupy are stored (10 R35, R36). -/
def regStore (r : Reg) (v : Word) (s : State) : State :=
  match r with
  | .id => s
  | .param0 => s
  | .param1 => s
  | .ctrl => writeCtrl v s
  | .status => writeStatus v s
  | .cmd => issueCommand v s
  | .errInfo => s
  | .errAddr => s
  | .convCtrl => { s with conv := { s.conv with signed := v.getLsbD 0, ilv := v.getLsbD 1 } }
  | .convOoff => { s with conv := { s.conv with ooff := v.setWidth 24 } }
  | .convOlen => { s with conv := { s.conv with olen := v.setWidth 24 } }
  | .convIn => { s with conv := { s.conv with inAddr := v } }
  | .convOutRe => { s with conv := { s.conv with outRe := v } }
  | .convOutIm => { s with conv := { s.conv with outIm := v } }
  | .mixCtrl => writeMixCtrl v s
  | .mixFreq => { s with mix := { s.mix with freq := v, lutValid := false } }
  | .mixRate => { s with mix := { s.mix with rate := v, lutValid := false } }
  | .mixCoslen => { s with mix := { s.mix with coslen := v.setWidth 24, lutValid := false } }
  | .mixBase => { s with mix := { s.mix with base := v.setWidth 24 } }
  | .mixOoff => { s with mix := { s.mix with ooff := v.setWidth 24 } }
  | .mixOlen => { s with mix := { s.mix with olen := v.setWidth 24 } }
  | .mixIn => { s with mix := { s.mix with inAddr := v } }
  | .mixOutRe => { s with mix := { s.mix with outRe := v } }
  | .mixOutIm => { s with mix := { s.mix with outIm := v } }
  | .mixLidx => { s with mix := { s.mix with lidx := v } }
  | .mixLre => s
  | .mixLim => s
  | .firCtrl => { s with fir := { s.fir with xtap := v.getLsbD 0 } }
  | .firOrder => { s with fir := { s.fir with order := v.setWidth 24 } }
  | .firDecim => { s with fir := { s.fir with decim := v.setWidth 24 } }
  | .firIoff => { s with fir := { s.fir with ioff := v.setWidth 24 } }
  | .firOoff => { s with fir := { s.fir with ooff := v.setWidth 24 } }
  | .firOlen => { s with fir := { s.fir with olen := v.setWidth 24 } }
  | .firInRe => { s with fir := { s.fir with inRe := v } }
  | .firInIm => { s with fir := { s.fir with inIm := v } }
  | .firOutRe => { s with fir := { s.fir with outRe := v } }
  | .firOutIm => { s with fir := { s.fir with outIm := v } }
  | .firTidx => { s with fir := { s.fir with tidx := v.setWidth 16 } }
  | .firTre => { s with fir := { s.fir with tapRe := entryWrite s.fir.tapRe s.fir.tidx.toNat v } }
  | .firTim => { s with fir := { s.fir with tapIm := entryWrite s.fir.tapIm s.fir.tidx.toNat v } }
  | .firRidx => { s with fir := { s.fir with ridx := v.setWidth 16 } }
  | .firRre => { s with fir := { s.fir with remRe := entryWrite s.fir.remRe s.fir.ridx.toNat v } }
  | .firRim => { s with fir := { s.fir with remIm := entryWrite s.fir.remIm s.fir.ridx.toNat v } }
  | .demGain => { s with dem := { s.dem with gain := v } }
  | .demHre => { s with dem := { s.dem with hre := v } }
  | .demHim => { s with dem := { s.dem with him := v } }
  | .demIoff => { s with dem := { s.dem with ioff := v.setWidth 24 } }
  | .demOoff => { s with dem := { s.dem with ooff := v.setWidth 24 } }
  | .demOlen => { s with dem := { s.dem with olen := v.setWidth 24 } }
  | .demInRe => { s with dem := { s.dem with inRe := v } }
  | .demInIm => { s with dem := { s.dem with inIm := v } }
  | .demOut => { s with dem := { s.dem with out := v } }
  | .convLut k => { s with conv := { s.conv with lut := entryWrite s.conv.lut k v } }

/-- The value a register-port read returns (10 R35, R70). -/
def portReadValue (off : BitVec 12) (bytes : Nat) (s : State) : Word :=
  if properAccess off bytes then
    match regAt off.toNat with
    | none => 0#32
    | some r => if (indexOutOfRange s r).isSome then 0#32 else regValue s r
  else 0#32

/-- The effect of a register-port read: none, but for REG_RANGE (10 R35, R70, 20 R107). -/
def portRead (off : BitVec 12) (bytes : Nat) (s : State) : State :=
  if properAccess off bytes then
    match regAt off.toNat with
    | none => s
    | some r =>
      match indexOutOfRange s r with
      | some index => recordRegRange (off.setWidth 32) index s
      | none => s
  else s

/-- The effect of a register-port write (10 R35, R70): an access to an index port whose index is out of range stores
nothing and records REG_RANGE, a write to MIX_LRE or MIX_LIM among them (log entry 13). -/
def portWrite (off : BitVec 12) (bytes : Nat) (v : Word) (s : State) : State :=
  if properAccess off bytes then
    match regAt off.toNat with
    | none => s
    | some r =>
      match indexOutOfRange s r with
      | some index => recordRegRange (off.setWidth 32) index s
      | none => regStore r v s
  else s

/-! ### The DMEM bytes of a pending command -/

/-- The plan of a command (40 R162): what it tests, and the DMEM bytes it reads and writes. -/
def planOf (i : Instr) (s : State) : Plan :=
  match i with
  | .nop => planNop
  | .resetState => planResetState
  | .convElem n => planConvElem n s
  | .convBlock => planConvBlock s
  | .mixElem n => planMixElem n s
  | .mixBlock => planMixBlock s
  | .mixGenlut => planMixGenlut s
  | .mixAdvance _ => planMixAdvance s
  | .mixRefresh => planMixRefresh s
  | .mixReset => planMixReset
  | .firRcElem n => planFirRcElem n s
  | .firRrElem n => planFirRrElem n s
  | .firCcElem n => planFirCcElem n s
  | .firRcBlock => planFirRcBlock s
  | .firRrBlock => planFirRrBlock s
  | .firCcBlock => planFirCcBlock s
  | .firRefreshC => planFirRefreshC s
  | .firRefreshR => planFirRefreshR s
  | .firClear => planFirClear
  | .demElem n => planDemElem n s
  | .demBlock => planDemBlock s
  | .demSave => planDemSave s
  | .demReset => planDemReset

/-- The plan a command executes: nothing when it completes as a no-op or raises an error (40 R161, R162). -/
def executedPlan (p : Plan) (s : State) : Plan :=
  if p.noop || (planFailure s.params.dmemSize p).isSome then {} else p

/-- The plan the pending command will execute; nothing when no legal command is pending. -/
def pendingPlan (s : State) : Plan :=
  match s.pending with
  | none => {}
  | some w =>
    match decode w with
    | .ok i => executedPlan (planOf i s) s
    | .error _ => {}

/-! ### Host DMEM accesses -/

/-- A host write of the byte is a race: the pending command reads or writes it (20 R112). -/
def writeRaces (s : State) (a : Nat) : Bool := planReads (pendingPlan s) a || planWrites (pendingPlan s) a

/-- A host read of the byte is a race: the pending command writes it (20 R112). -/
def readRaces (s : State) (a : Nat) : Bool := planWrites (pendingPlan s) a

/-- The raced bytes after a host access to `bytes`: those of the access that are a race, and those raced before. -/
def racedAfter (races : Nat → Bool) (bytes : List Nat) (s : State) : List Nat := bytes.filter races ++ s.raced

/-- The value of a byte a host read returns: a free byte when the read is a race or the byte is raced already (20 R112,
log entry 5). -/
def hostByte (s : State) (n addr : Nat) : Byte :=
  if readRaces s addr || s.raced.contains addr then (Config.freeWord (s.fresh + n)).setWidth 8
  else memRead8 s.dmem addr

/-- The four bytes of an access at `addr`. -/
def wordBytes (addr : Nat) : List Nat := [addr, addr + 1, addr + 2, addr + 3]

/-- A DMEM address exists when it is below DMEM_SIZE (20 R101). -/
def dmemExists (s : State) (addr : Nat) : Bool := addr < s.params.dmemSize

/-- A host DMEM write of 4 bytes (20 R100, R111, R112). -/
def hostMemWrite (addr : Nat) (v : Word) (s : State) : Host.Outcome State Fault Refusal :=
  if dmemExists s (addr + 3) then
    .next { s with
      dmem := memWrite32 s.dmem addr v
      raced := racedAfter (writeRaces s) (wordBytes addr) s
      reply := .completed }
  else .fault (.dmemAbsent addr)

/-- A host DMEM write of 1 byte. -/
def hostMemWrite8 (addr : Nat) (v : Byte) (s : State) : Host.Outcome State Fault Refusal :=
  if dmemExists s addr then
    .next { s with dmem := memWrite8 s.dmem addr v, raced := racedAfter (writeRaces s) [addr] s, reply := .completed }
  else .fault (.dmemAbsent addr)

/-- A host DMEM read of 4 bytes; each of its bytes may be raced by itself. A read that is a race makes the byte a raced
output byte of the pending command, so its element is free too (20 R112, 70 R351, log entry 5). -/
def hostMemRead (addr : Nat) (s : State) : Host.Outcome State Fault Refusal :=
  if dmemExists s (addr + 3) then
    .next { s with
      reply := .value
        (hostByte s 3 (addr + 3) ++ hostByte s 2 (addr + 2) ++ hostByte s 1 (addr + 1) ++ hostByte s 0 addr)
      raced := racedAfter (readRaces s) (wordBytes addr) s
      fresh := if s.pending.isSome then s.fresh + 4 else s.fresh }
  else .fault (.dmemAbsent addr)

/-- A host DMEM read of 1 byte. -/
def hostMemRead8 (addr : Nat) (s : State) : Host.Outcome State Fault Refusal :=
  if dmemExists s addr then
    .next { s with
      reply := .value ((hostByte s 0 addr).setWidth 32)
      raced := racedAfter (readRaces s) [addr] s
      fresh := if s.pending.isSome then s.fresh + 1 else s.fresh }
  else .fault (.dmemAbsent addr)

/-! ### Reset and the host's moves -/

/-- The reset input asserted and released (70 R340): every piece of the core's state takes its reset value (10 R71), a
pending command is abandoned and the DMEM elements it would have written hold any value, DMEM is not reset. The
parameters are fixed; the host's further moves and the model's counters go on (log entry 20). -/
def hostReset (s : State) : State :=
  { State.reset with
    params := s.params
    dmem := abandonStores s.dmem s.fresh (pendingPlan s).stores
    fresh := s.fresh + (pendingPlan s).stores.length
    resets := s.resets + 1
    host := s.host }

/-- The host makes a move (60 R330). -/
def hostMove (m : HostMove) (s : State) : Host.Outcome State Fault Refusal :=
  match m with
  | .regWrite off bytes v => .next { portWrite off bytes v s with reply := .completed }
  | .regRead off bytes => .next { portRead off bytes s with reply := .value (portReadValue off bytes s) }
  | .memWrite addr v => hostMemWrite addr v s
  | .memWrite8 addr v => hostMemWrite8 addr v s
  | .memRead addr => hostMemRead addr s
  | .memRead8 addr => hostMemRead8 addr s
  | .reset => .next (hostReset s)
  | .observeIrq => .next { s with reply := .irq (irq s) }

/-- The move does not wait for a pending command (10 R69, 60 R330): a read of STATUS, a DMEM access, a reset, a look at
`irq`. -/
def neverWaits (m : HostMove) : Bool :=
  match m with
  | .regWrite _ _ _ => false
  | .regRead off bytes => properAccess off bytes && off.toNat == 0x014
  | .memWrite _ _ => true
  | .memWrite8 _ _ => true
  | .memRead _ => true
  | .memRead8 _ => true
  | .reset => true
  | .observeIrq => true

/-- The move an entry of the host's queue makes next; a WAIT reads STATUS (30 R139). -/
def turnMove (t : HostTurn) : HostMove :=
  match t with
  | .once _ m => m
  | .wait _ => .regRead 0x014#12 4

/-- The entry's next move is to be made before the step of a pending command (log entry 4). -/
def turnEarly (t : HostTurn) : Bool :=
  match t with
  | .once early _ => early
  | .wait polls => polls != 0

/-- What is left of the entry after its move: a WAIT is repeated while the STATUS it reads has BUSY = 1, and ends at the
first BUSY = 0 (30 R139). -/
def turnLeft (s : State) (t : HostTurn) : List HostTurn :=
  match t with
  | .once _ _ => []
  | .wait polls => if busy s then [.wait (polls - 1)] else []

/-- The host's next move, if it is the host that moves next, and the state with the host's queue as that move leaves it:
while a command is pending, only a move that does not wait and is marked early (log entry 4). -/
def hostTurn (s : State) : Option (HostMove × State) :=
  match s.host with
  | [] => none
  | t :: rest =>
    if s.pending.isSome && !(turnEarly t && neverWaits (turnMove t)) then none
    else some (turnMove t, { s with host := turnLeft s t ++ rest })

/-- The entry with none of its moves early. -/
def delayTurn (t : HostTurn) : HostTurn :=
  match t with
  | .once _ m => .once false m
  | .wait _ => .wait 0

/-- The next queued host move waits for the pending command. -/
def delayHost (turns : List HostTurn) : List HostTurn :=
  match turns with
  | [] => []
  | t :: rest => delayTurn t :: rest

end Sys2Proof.Machine
end

