-- ==== Sys2Proof/Machine/Step.lean ====
section
/-! DEFINITION. One step of the system of host and core (spec/10_state.md R69, spec/40_command_common.md R160,
spec/60_exceptions.md R330). -/

namespace Sys2Proof.Machine

/-- The core executes the pending command word: an illegal word raises ILLEGAL_CMD (40 R160 step 1). -/
def coreStep (w : Word) (s : State) : Host.Outcome State Fault Refusal :=
  match decode w with
  | .ok i => exec i s
  | .error _ => .next (illegalCommand w s)

/-- One step: the host's next move if it is the host's turn (`hostTurn`), else the pending command, else nothing: the
core is idle and holds its state (60 R325, log entry 16). -/
def step (s : State) : Host.Outcome State Fault Refusal :=
  match hostTurn s with
  | some (m, s') => hostMove m s'
  | none =>
    match s.pending with
    | some w => coreStep w s
    | none => .next s

/-- The state in which the command word with bits `w` is pending and the core executes it in the very next step
(log entry 15): the CMD write of the word has completed, and the host's next move comes after the command. -/
def State.withFetchWord (s : State) (nbits w : Nat) : State :=
  { s with pending := some (BitVec.ofNat 32 (w % 2 ^ nbits)), host := delayHost s.host }

end Sys2Proof.Machine
end

