-- ==== Sys2Proof/Safety.lean ====
section
/-! DEFINITION. What counts as a safe run: no error recorded (spec/93 Part 1, treatment "fault"), every step answers a
next state, and the invariants of the state that the rules promise (spec/10_state.md R39, R55, R57, R63, R64, R69). -/

namespace Sys2Proof.Machine

/-- No error is recorded: STATUS.ERR = 0. -/
abbrev State.NoError (s : State) : Prop := s.error = none

/-- The step stops neither with a fault nor with a refusal. -/
def Runs (o : Host.Outcome State Fault Refusal) : Prop := ∃ t, o = .next t

/-- An internal memory in its canonical form with entries below its depth only. -/
abbrev EntryMem.Sized (m : EntryMem) (depth : Nat) : Prop := m.wf ∧ ∀ c ∈ m, c.1 < depth

/-- DMEM in its canonical form with bytes below DMEM_SIZE only (20 R101). -/
abbrev State.MemoryOk (s : State) : Prop := s.dmem.wf ∧ ∀ c ∈ s.dmem, c.1 < s.params.dmemSize

/-- Every internal memory has its depth (10 R47, R55, R63, R64). -/
abbrev State.BanksOk (s : State) : Prop :=
  s.conv.lut.Sized 256 ∧
  s.mix.lutRe.Sized (256 * s.params.mixCoslenMax) ∧ s.mix.lutIm.Sized (256 * s.params.mixCoslenMax) ∧
  s.fir.tapRe.Sized (s.params.firMaxOrder + 1) ∧ s.fir.tapIm.Sized (s.params.firMaxOrder + 1) ∧
  s.fir.remRe.Sized (s.params.firMaxOrder - 1) ∧ s.fir.remIm.Sized (s.params.firMaxOrder - 1)

/-- A command is pending only while no error is recorded (10 R41, 60 R310), and the host can have raced only with a
pending command (20 R112). -/
abbrev State.CommandOk (s : State) : Prop :=
  (s.pending.isSome = true → s.error = none) ∧ (s.pending = none → s.raced = [])

/-- The state is as the rules keep it. -/
def State.Inv (s : State) : Prop := s.params.Legal ∧ s.MemoryOk ∧ s.BanksOk ∧ s.CommandOk

/-- What LUT_VALID records (10 R57): C is legal, the rate is not 0, and rows 0 to C-1 of both mixer LUTs are what
MIX_GENLUT stores for the current MIX_FREQ, MIX_RATE, MIX_COSLEN and MIX_CTRL.SIGNED. -/
def State.LutCurrent (s : State) : Prop :=
  s.mix.lutValid = true →
    (s.mix.coslen.toNat ≠ 0 ∧ s.mix.coslen.toNat ≤ s.params.mixCoslenMax ∧ s.mix.rate ≠ 0#32) ∧
    ∀ k < 256 * s.mix.coslen.toNat,
      entryAt s.mix.lutRe k = .written (lutgenAt s.mix k).1 ∧ entryAt s.mix.lutIm k = .written (lutgenAt s.mix k).2

/-- The converter's LUT entry for element i was written since reset, so that its value is no free value (70 R342). -/
def convDefined (s : State) (i : Nat) : Prop :=
  ∃ v, entryAt s.conv.lut (lutIndex s.conv.signed (memRead8 s.dmem (byteAddr s.conv.inAddr i))) = .written v

/-- Entries 0 to n-1 of an internal memory were written since reset (70 R342). -/
def EntryMem.WrittenBelow (m : EntryMem) (n : Nat) : Prop := ∀ k < n, ∃ v, entryAt m k = .written v

end Sys2Proof.Machine
end

