-- ==== Sys2Proof/Certificates/Slice0/Obligations.lean ====
section
/-! DEFINITION. The statements about the model, and the words they are written in (namespace Sys2Proof.Claims): what a
completed command leaves alone, and when each command's check phase passes, spelled out from the rules. -/

namespace Sys2Proof.Claims

open Sys2Proof.Machine

/-! ### What a command leaves alone -/

/-- What no command writes: the parameters, CTRL, the host's queue and its last reply, the reset count. -/
abbrev ControlKept (s t : State) : Prop :=
  t.params = s.params ∧ t.doneIe = s.doneIe ∧ t.errIe = s.errIe ∧ t.host = s.host ∧ t.reply = s.reply ∧
  t.resets = s.resets

/-- A host read of 4 bytes at the register offset returns v and changes nothing (10 R35). -/
abbrev Reads (s : State) (off : BitVec 12) (v : Word) : Prop :=
  hostMove (.regRead off 4) s = .next { s with reply := .value v }

/-- The seven internal memories are unchanged. -/
abbrev InternalKept (s t : State) : Prop :=
  t.conv.lut = s.conv.lut ∧ t.mix.lutRe = s.mix.lutRe ∧ t.mix.lutIm = s.mix.lutIm ∧ t.fir.tapRe = s.fir.tapRe ∧
  t.fir.tapIm = s.fir.tapIm ∧ t.fir.remRe = s.fir.remRe ∧ t.fir.remIm = s.fir.remIm

/-- Entry k of an internal memory becomes the written pattern v, and no other entry changes. -/
abbrev StoresOnly (old new : EntryMem) (k : Nat) (v : Word) : Prop :=
  entryAt new k = .written v ∧ ∀ j, j ≠ k → entryAt new j = entryAt old j

/-- Completion without error: P gone with its raced bytes, DONE set, the error record as before (40 R160). -/
abbrev Completed (s t : State) : Prop :=
  t.pending = none ∧ t.raced = [] ∧ t.done = true ∧ t.error = s.error ∧ t.errInfo = s.errInfo ∧ t.errAddr = s.errAddr

/-- The four banks, with their internal memories, are unchanged. -/
abbrev BanksKept (s t : State) : Prop := t.conv = s.conv ∧ t.mix = s.mix ∧ t.fir = s.fir ∧ t.dem = s.dem

/-- The byte lies in the four bytes of the word at `addr`. -/
abbrev InWord (addr a : Nat) : Prop := addr ≤ a ∧ a < addr + 4

/-- Every DMEM byte outside `stored` reads as before. -/
abbrev BytesKept (s t : State) (stored : Nat → Prop) : Prop :=
  ∀ a, ¬stored a → memRead8 t.dmem a = memRead8 s.dmem a

/-- Every DMEM byte reads as before. -/
abbrev MemoryKept (s t : State) : Prop := ∀ a, memRead8 t.dmem a = memRead8 s.dmem a

/-- The state a command leaves that completes without any effect (40 R160, R161). -/
abbrev completedFrom (s : State) : State := { s with pending := none, raced := [], done := true }

/-- The state a command leaves that raises cause `c` (60 R310). -/
abbrev raisedFrom (s : State) (c : Cause) (w addr : Word) : State :=
  { s with pending := none, raced := [], error := some c, errInfo := w, errAddr := addr }

/-! ### Races (20 R112) -/

/-- Result number n of a command, computed as v from the bytes `uses` or stored in them: w is v, or the n-th free word
(log entry 5) when one of these bytes is raced. -/
abbrev Yields (s : State) (n : Nat) (uses : Nat → Prop) (v w : Word) : Prop :=
  ((∀ a ∈ s.raced, ¬uses a) → w = v) ∧ ((∃ a ∈ s.raced, uses a) → w = Config.freeWord (s.fresh + n))

/-- The DMEM word at `addr` after the command is its result number n: v, computed from the bytes `reads`. -/
abbrev Stored (s t : State) (n addr : Nat) (reads : Nat → Prop) (v : Word) : Prop :=
  Yields s n (fun a => InWord addr a ∨ reads a) v (memRead32 t.dmem addr)

/-- The command draws n free words in a race and none otherwise. -/
abbrev Draws (s t : State) (n : Nat) : Prop := t.fresh = s.fresh + (if s.raced = [] then 0 else n)

/-- A command that writes DMEM completes: the error record as before, every bank and the control state kept. -/
abbrev Finished (s t : State) (n : Nat) : Prop := Completed s t ∧ ControlKept s t ∧ BanksKept s t ∧ Draws s t n

/-! ### Check lists, written out from the rules of 41 to 44 -/

/-- C is legal: 1 <= C <= MIX_COSLEN_MAX (60 R304). -/
abbrev CoslenLegal (s : State) : Prop := 1 ≤ s.mix.coslen.toNat ∧ s.mix.coslen.toNat ≤ s.params.mixCoslenMax

/-- N and D are legal (43 R252). -/
abbrev FirLegal (s : State) : Prop :=
  1 ≤ s.fir.order.toNat ∧ s.fir.order.toNat ≤ s.params.firMaxOrder ∧ 1 ≤ s.fir.decim.toNat

/-- M = max(L - O, 0) of the converter (40 R165). -/
def convCount (s : State) : Nat := s.conv.olen.toNat - s.conv.ooff.toNat

/-- M of the mixer. -/
def mixCount (s : State) : Nat := s.mix.olen.toNat - s.mix.ooff.toNat

/-- M of the FIR. -/
def firCount (s : State) : Nat := s.fir.olen.toNat - s.fir.ooff.toNat

/-- M of the demodulator. -/
def demCount (s : State) : Nat := s.dem.olen.toNat - s.dem.ooff.toNat

/-- The command is no bounds no-op and no empty block, and its configuration tests pass: the buffer tests are reached
(40 R163). -/
def ReachesBuffers (i : Instr) (s : State) : Prop :=
  match i with
  | .convElem k => k + s.conv.ooff.toNat < s.conv.olen.toNat
  | .convBlock => 1 ≤ convCount s
  | .mixElem k => k + s.mix.ooff.toNat < s.mix.olen.toNat ∧ CoslenLegal s ∧ s.mix.lutValid = true
  | .mixBlock => 1 ≤ mixCount s ∧ CoslenLegal s ∧ s.mix.lutValid = true
  | .mixGenlut => CoslenLegal s ∧ s.mix.rate ≠ 0#32
  | .mixAdvance _ => CoslenLegal s
  | .mixRefresh => CoslenLegal s
  | .firRcElem k => k + s.fir.ooff.toNat < s.fir.olen.toNat ∧ FirLegal s
  | .firRrElem k => k + s.fir.ooff.toNat < s.fir.olen.toNat ∧ FirLegal s
  | .firCcElem k => k + s.fir.ooff.toNat < s.fir.olen.toNat ∧ FirLegal s
  | .firRcBlock => 1 ≤ firCount s ∧ FirLegal s
  | .firRrBlock => 1 ≤ firCount s ∧ FirLegal s
  | .firCcBlock => 1 ≤ firCount s ∧ FirLegal s
  | .firRefreshC => FirLegal s
  | .firRefreshR => FirLegal s
  | .demElem k => k + s.dem.ooff.toNat < s.dem.olen.toNat
  | .demBlock => 1 ≤ demCount s
  | .demSave => 1 ≤ s.dem.olen.toNat
  | .nop | .resetState | .mixReset | .firClear | .demReset => True

/-- An input byte buffer. -/
abbrev bytesIn (base : Word) (kmin kmax : Nat) : Buffer := ⟨base, 1, kmin, kmax, false⟩

/-- An input float buffer. -/
abbrev floatsIn (base : Word) (kmin kmax : Nat) : Buffer := ⟨base, 4, kmin, kmax, false⟩

/-- An output float buffer. -/
abbrev floatsOut (base : Word) (kmin kmax : Nat) : Buffer := ⟨base, 4, kmin, kmax, true⟩

/-- The outputs of an interleaved block of m positions: the imaginary one is empty when m = 1 (41 R192, 42 R215). -/
def interleavedOut (re im : Word) (m : Nat) : List Buffer :=
  if m = 1 then [floatsOut re 0 0] else [floatsOut re 0 ((m + 1) / 2 - 1), floatsOut im 0 (m / 2 - 1)]

/-- One past the last input sample output i reads: iO + i*D, and one more with XTAP = 1 (43 R253). -/
def inputEnd (s : State) (i : Nat) : Nat :=
  s.fir.ioff.toNat + i * s.fir.decim.toNat + (if s.fir.xtap then 1 else 0) + 1

/-- The first block sample of output i's window: max(iO + i*D - N + 1, 0) (43 R253). -/
def inputStart (s : State) (i : Nat) : Nat := s.fir.ioff.toNat + i * s.fir.decim.toNat + 1 - s.fir.order.toNat

/-- The input buffer of outputs i to j (43 section 2, R253). -/
def firIn (s : State) (base : Word) (i j : Nat) : Buffer := floatsIn base (inputStart s i) (inputEnd s j - 1)

/-- One past the last sample a refresh copies: iO + M*D (43 R249). -/
def refreshEnd (s : State) : Nat := s.fir.ioff.toNat + firCount s * s.fir.decim.toNat

/-- The input buffers of a refresh: samples max(F, 0) to F + N - 2, none when there is no such sample (43 R249). -/
def refreshIn (s : State) (bases : List Word) : List Buffer :=
  if s.fir.order.toNat = 1 ∨ refreshEnd s = 0 then []
  else bases.map fun base => floatsIn base (refreshEnd s + 1 - s.fir.order.toNat) (refreshEnd s - 1)

/-- The first input sample demodulator element i reads (44 R282). -/
def demStart (s : State) (i : Nat) : Nat := if i = 0 then s.dem.ioff.toNat else s.dem.ioff.toNat + i - 1

/-- The DMEM buffers of a command, in the order its rule lists them. -/
def listed (i : Instr) (s : State) : List Buffer :=
  match i with
  | .convElem k =>
    [bytesIn s.conv.inAddr k k,
      if s.conv.ilv = false then floatsOut s.conv.outRe k k
      else if k % 2 = 0 then floatsOut s.conv.outRe (k / 2) (k / 2) else floatsOut s.conv.outIm (k / 2) (k / 2)]
  | .convBlock =>
    bytesIn s.conv.inAddr 0 (convCount s - 1) ::
      (if s.conv.ilv = false then [floatsOut s.conv.outRe 0 (convCount s - 1)]
       else interleavedOut s.conv.outRe s.conv.outIm (convCount s))
  | .mixElem k =>
    bytesIn s.mix.inAddr k k ::
      (if s.mix.ilv = false then [floatsOut s.mix.outRe k k, floatsOut s.mix.outIm k k]
       else if k % 2 = 0 then [floatsOut s.mix.outRe (k / 2) (k / 2)] else [floatsOut s.mix.outIm (k / 2) (k / 2)])
  | .mixBlock =>
    bytesIn s.mix.inAddr 0 (mixCount s - 1) ::
      (if s.mix.ilv = false then
        [floatsOut s.mix.outRe 0 (mixCount s - 1), floatsOut s.mix.outIm 0 (mixCount s - 1)]
       else interleavedOut s.mix.outRe s.mix.outIm (mixCount s))
  | .firRrElem k => [firIn s s.fir.inRe k k, floatsOut s.fir.outRe k k]
  | .firRcElem k =>
    [firIn s s.fir.inRe k k, firIn s s.fir.inIm k k, floatsOut s.fir.outRe k k, floatsOut s.fir.outIm k k]
  | .firCcElem k =>
    [firIn s s.fir.inRe k k, firIn s s.fir.inIm k k, floatsOut s.fir.outRe k k, floatsOut s.fir.outIm k k]
  | .firRrBlock => [firIn s s.fir.inRe 0 (firCount s - 1), floatsOut s.fir.outRe 0 (firCount s - 1)]
  | .firRcBlock =>
    [firIn s s.fir.inRe 0 (firCount s - 1), firIn s s.fir.inIm 0 (firCount s - 1),
      floatsOut s.fir.outRe 0 (firCount s - 1), floatsOut s.fir.outIm 0 (firCount s - 1)]
  | .firCcBlock =>
    [firIn s s.fir.inRe 0 (firCount s - 1), firIn s s.fir.inIm 0 (firCount s - 1),
      floatsOut s.fir.outRe 0 (firCount s - 1), floatsOut s.fir.outIm 0 (firCount s - 1)]
  | .firRefreshC => refreshIn s [s.fir.inRe, s.fir.inIm]
  | .firRefreshR => refreshIn s [s.fir.inRe]
  | .demElem k =>
    [floatsIn s.dem.inRe (demStart s k) (s.dem.ioff.toNat + k),
      floatsIn s.dem.inIm (demStart s k) (s.dem.ioff.toNat + k), floatsOut s.dem.out k k]
  | .demBlock =>
    [floatsIn s.dem.inRe s.dem.ioff.toNat (s.dem.ioff.toNat + demCount s - 1),
      floatsIn s.dem.inIm s.dem.ioff.toNat (s.dem.ioff.toNat + demCount s - 1),
      floatsOut s.dem.out 0 (demCount s - 1)]
  | .demSave =>
    [floatsIn s.dem.inRe (s.dem.ioff.toNat + s.dem.olen.toNat - 1) (s.dem.ioff.toNat + s.dem.olen.toNat - 1),
      floatsIn s.dem.inIm (s.dem.ioff.toNat + s.dem.olen.toNat - 1) (s.dem.ioff.toNat + s.dem.olen.toNat - 1)]
  | .nop | .resetState | .mixGenlut | .mixAdvance _ | .mixRefresh | .mixReset | .firClear | .demReset => []

/-- The base is aligned, if it must be (40 R164 a). -/
abbrev BaseAligned (b : Buffer) : Prop := b.size = 1 ∨ b.base.toNat % 4 = 0

/-- One past the last byte of the buffer's extent (40 R164). -/
abbrev extentEnd (b : Buffer) : Nat := b.base.toNat + b.size * b.kmax + b.size

/-- The buffer test passes (40 R164). -/
abbrev BufferPasses (size : Nat) (b : Buffer) : Prop := BaseAligned b ∧ extentEnd b ≤ size

/-- The buffer test raises c: ALIGN before MEM_RANGE (40 R164). -/
abbrev BufferFails (size : Nat) (b : Buffer) (c : Cause) : Prop :=
  (¬BaseAligned b ∧ c = .align) ∨ (BaseAligned b ∧ size < extentEnd b ∧ c = .memRange)

/-- Two extents share a byte (40 R167). -/
abbrev Meet (b c : Buffer) : Prop :=
  b.base.toNat + b.size * b.kmin < extentEnd c ∧ c.base.toNat + c.size * c.kmin < extentEnd b

/-- No output extent shares a byte with another extent (40 R167). -/
abbrev NoOverlap (bs : List Buffer) : Prop := bs.Pairwise fun b c => (b.output || c.output) = true → ¬Meet b c

/-- The six block commands. -/
abbrev blocks : List Instr := [.convBlock, .mixBlock, .firRcBlock, .firRrBlock, .firCcBlock, .demBlock]

/-- The command is no no-op and every test of its check list passes (40 R162 to R167). -/
abbrev Executes (i : Instr) (s : State) : Prop :=
  ReachesBuffers i s ∧ (∀ b ∈ listed i s, BufferPasses s.params.dmemSize b) ∧ (i ∈ blocks → NoOverlap (listed i s))

/-! ### Byte indexes -/

/-- The LUT index of a byte: the byte unsigned, or its two's-complement value plus 128 (41 R190). -/
def byteIndex (signed : Bool) (b : Byte) : Nat := if signed then (b.toInt + 128).toNat else b.toNat

/-! ### Converter -/

/-- The address position i is written to (41 R191). -/
def convTarget (s : State) (i : Nat) : Nat :=
  if s.conv.ilv = false then s.conv.outRe.toNat + 4 * i
  else if i % 2 = 0 then s.conv.outRe.toNat + 4 * (i / 2) else s.conv.outIm.toNat + 4 * (i / 2)

/-- The LUT entry the byte at position i selects (41 R190, R191). -/
def convResult (s : State) (i : Nat) : Word :=
  convLut s (byteIndex s.conv.signed (memRead8 s.dmem (s.conv.inAddr.toNat + i)))

/-- Position i reads this byte (41 R191). -/
def convUses (s : State) (i a : Nat) : Prop := a = s.conv.inAddr.toNat + i

/-! ### Mixer -/

/-- The flat LUT index of position i (42 R214): 256 times the phase offset, plus the byte index. -/
def mixIndex (s : State) (i : Nat) : Nat :=
  256 * ((s.mix.base.toNat + (if s.mix.ilv then i / 2 else i)) % s.mix.coslen.toNat) +
    byteIndex s.mix.signed (memRead8 s.dmem (s.mix.inAddr.toNat + i))

/-- The addresses position i is written to: both outputs, real first, or when interleaved the one its parity selects
(42 R214). -/
def mixTargets (s : State) (i : Nat) : List Nat :=
  if s.mix.ilv = false then [s.mix.outRe.toNat + 4 * i, s.mix.outIm.toNat + 4 * i]
  else if i % 2 = 0 then [s.mix.outRe.toNat + 4 * (i / 2)] else [s.mix.outIm.toNat + 4 * (i / 2)]

/-- Position i reads this byte (42 R214). -/
def mixUses (s : State) (i a : Nat) : Prop := a = s.mix.inAddr.toNat + i

/-! ### FIR -/

/-- The accumulation of 43 R242: +0.0, then the terms of k = 0, 1, ... added one by one. -/
def firSum (term : Nat → Word) : Nat → Word
  | 0 => 0#32
  | k + 1 => fadd (firSum term k) (term k)

/-- K (43 R241). -/
def taps (s : State) : Nat := s.fir.order.toNat + (if s.fir.xtap then 1 else 0)

/-- Tap k of an output meets extended input sample base(i) + k = iO + i*D - N + 1 + k (43 R242). -/
def sampleOf (s : State) (i k : Nat) : Int :=
  (s.fir.ioff.toNat : Int) + (i : Int) * (s.fir.decim.toNat : Int) - (s.fir.order.toNat : Int) + 1 + (k : Int)

/-- Σ TAP_RE[k] * X_re (43 R243, R244). -/
def realSumRe (s : State) (i : Nat) : Word :=
  firSum (fun k => fmul (tapRe s k) (inputRe s (sampleOf s i k))) (taps s)

/-- Σ TAP_RE[k] * X_im (43 R243). -/
def realSumIm (s : State) (i : Nat) : Word :=
  firSum (fun k => fmul (tapRe s k) (inputIm s (sampleOf s i k))) (taps s)

/-- Σ (tapRe*inRe - tapIm*inIm) (43 R245). -/
def complexSumRe (s : State) (i : Nat) : Word :=
  firSum (fun k => fsub (fmul (tapRe s k) (inputRe s (sampleOf s i k)))
    (fmul (tapIm s k) (inputIm s (sampleOf s i k)))) (taps s)

/-- Σ (tapRe*inIm + tapIm*inRe) (43 R245). -/
def complexSumIm (s : State) (i : Nat) : Word :=
  firSum (fun k => fadd (fmul (tapRe s k) (inputIm s (sampleOf s i k)))
    (fmul (tapIm s k) (inputRe s (sampleOf s i k)))) (taps s)

/-- Output i reads this byte of the channel at `base`: its window's block samples (43 R240, R242). -/
def firUses (s : State) (base : Word) (i a : Nat) : Prop :=
  ∃ k < taps s, 0 ≤ sampleOf s i k ∧ InWord (base.toNat + 4 * (sampleOf s i k).toNat) a

/-- The address of the real output i. -/
def firTargetRe (s : State) (i : Nat) : Nat := s.fir.outRe.toNat + 4 * i

/-- The address of the imaginary output i. -/
def firTargetIm (s : State) (i : Nat) : Nat := s.fir.outIm.toNat + 4 * i

/-- F + m = iO + M*D - N + 1 + m, the sample remainder entry m receives (43 R249). -/
def refreshSample (s : State) (m : Nat) : Int :=
  (s.fir.ioff.toNat : Int) + (firCount s : Int) * (s.fir.decim.toNat : Int) - (s.fir.order.toNat : Int) + 1 + (m : Int)

/-- The DMEM address of the sample remainder entry m receives, when that sample is a block sample. -/
def refreshAddr (s : State) (base : Word) (m : Nat) : Nat := base.toNat + 4 * (refreshSample s m).toNat

/-- What remainder entry m becomes (43 R249): sample F + m, an entry of the old remainder `old` (a copy of a not-written
entry stays not written, 70 R342) or a word of the input buffer, as the command's result number n. -/
def Refreshed (s : State) (old : EntryMem) (base : Word) (n m : Nat) (e : Entry) : Prop :=
  (refreshSample s m < 0 → e = entryAt old ((s.fir.order.toNat : Int) - 1 + refreshSample s m).toNat) ∧
  (0 ≤ refreshSample s m →
    ∃ w, e = .written w ∧ Yields s n (InWord (refreshAddr s base m)) (memRead32 s.dmem (refreshAddr s base m)) w)

/-- One channel of the remainder after a refresh whose first result there is number `first`: entries 0 to N - 2 from the
samples, the others as before (43 R249). -/
def RefreshedMem (s : State) (old new : EntryMem) (base : Word) (first : Nat) : Prop :=
  ∀ m, (m < s.fir.order.toNat - 1 → Refreshed s old base (first + m) m (entryAt new m)) ∧
    (s.fir.order.toNat - 1 ≤ m → entryAt new m = entryAt old m)

/-- A refresh reads this byte of the channel at `base` (43 R249). -/
def refreshUses (s : State) (base : Word) (a : Nat) : Prop :=
  ∃ m < s.fir.order.toNat - 1, 0 ≤ refreshSample s m ∧ InWord (refreshAddr s base m) a

/-! ### Demodulator -/

/-- conj(prev) * current and the output value of element i (44 R280, R282): prev is the history when i = 0. -/
def demResult (s : State) (i : Nat) : Word :=
  let at' (base : Word) (k : Nat) : Word := memRead32 s.dmem (base.toNat + 4 * k)
  let cRe := at' s.dem.inRe (s.dem.ioff.toNat + i)
  let cIm := at' s.dem.inIm (s.dem.ioff.toNat + i)
  let pRe := if i = 0 then s.dem.hre else at' s.dem.inRe (s.dem.ioff.toNat + i - 1)
  let pIm := if i = 0 then s.dem.him else at' s.dem.inIm (s.dem.ioff.toNat + i - 1)
  fmul s.dem.gain (Config.atan2 (fsub (fmul cIm pRe) (fmul cRe pIm)) (fadd (fmul cRe pRe) (fmul cIm pIm)))

/-- The address of output i. -/
def demTarget (s : State) (i : Nat) : Nat := s.dem.out.toNat + 4 * i

/-- Element i reads this byte: the current sample and, but for element 0, the one before, of both channels (44 R282). -/
def demUses (s : State) (i a : Nat) : Prop :=
  ∃ base ∈ [s.dem.inRe, s.dem.inIm], InWord (base.toNat + 4 * (s.dem.ioff.toNat + i)) a ∨
    (i ≠ 0 ∧ InWord (base.toNat + 4 * (s.dem.ioff.toNat + i - 1)) a)

/-- The address of the sample DEM_SAVE copies: iO + L - 1 (44 R284). -/
def saveAddr (s : State) (base : Word) : Nat := base.toNat + 4 * (s.dem.ioff.toNat + s.dem.olen.toNat - 1)

/-! ### The DMEM bytes of a command -/

/-- The addresses of the output elements of a command, in the order of its results (41 to 44). -/
def targets (i : Instr) (s : State) : List Nat :=
  match i with
  | .convElem k => [convTarget s k]
  | .convBlock => (List.range (convCount s)).map (convTarget s)
  | .mixElem k => mixTargets s k
  | .mixBlock => (List.range (mixCount s)).flatMap (mixTargets s)
  | .firRrElem k => [firTargetRe s k]
  | .firRcElem k => [firTargetRe s k, firTargetIm s k]
  | .firCcElem k => [firTargetRe s k, firTargetIm s k]
  | .firRrBlock => (List.range (firCount s)).map (firTargetRe s)
  | .firRcBlock => (List.range (firCount s)).flatMap fun k => [firTargetRe s k, firTargetIm s k]
  | .firCcBlock => (List.range (firCount s)).flatMap fun k => [firTargetRe s k, firTargetIm s k]
  | .demElem k => [demTarget s k]
  | .demBlock => (List.range (demCount s)).map (demTarget s)
  | .nop | .resetState | .mixGenlut | .mixAdvance _ | .mixRefresh | .mixReset | .firRefreshC | .firRefreshR | .firClear
  | .demSave | .demReset => []

/-- The command reads this byte when it executes (41 to 44). -/
def uses (i : Instr) (s : State) (a : Nat) : Prop :=
  match i with
  | .convElem k => convUses s k a
  | .convBlock => ∃ k < convCount s, convUses s k a
  | .mixElem k => mixUses s k a
  | .mixBlock => ∃ k < mixCount s, mixUses s k a
  | .firRrElem k => firUses s s.fir.inRe k a
  | .firRcElem k => firUses s s.fir.inRe k a ∨ firUses s s.fir.inIm k a
  | .firCcElem k => firUses s s.fir.inRe k a ∨ firUses s s.fir.inIm k a
  | .firRrBlock => ∃ k < firCount s, firUses s s.fir.inRe k a
  | .firRcBlock => ∃ k < firCount s, firUses s s.fir.inRe k a ∨ firUses s s.fir.inIm k a
  | .firCcBlock => ∃ k < firCount s, firUses s s.fir.inRe k a ∨ firUses s s.fir.inIm k a
  | .firRefreshC => refreshUses s s.fir.inRe a ∨ refreshUses s s.fir.inIm a
  | .firRefreshR => refreshUses s s.fir.inRe a
  | .demElem k => demUses s k a
  | .demBlock => ∃ k < demCount s, demUses s k a
  | .demSave => InWord (saveAddr s s.dem.inRe) a ∨ InWord (saveAddr s s.dem.inIm) a
  | .nop | .resetState | .mixGenlut | .mixAdvance _ | .mixRefresh | .mixReset | .firClear | .demReset => False

/-- A command that is pending and will execute. -/
abbrev WillExecute (s : State) (i : Instr) : Prop := ∃ w, s.pending = some w ∧ decode w = .ok i ∧ Executes i s

/-- The pending command writes this byte. -/
def PendingWrites (s : State) (a : Nat) : Prop := ∃ i, WillExecute s i ∧ ∃ x ∈ targets i s, InWord x a

/-- The pending command reads this byte. -/
def PendingReads (s : State) (a : Nat) : Prop := ∃ i, WillExecute s i ∧ uses i s a

/-- The raced bytes after a host access to the bytes `touched` of which those in `race` are a race (20 R112). -/
abbrev RacedAfter (s t : State) (touched race : Nat → Prop) : Prop :=
  ∀ a, a ∈ t.raced ↔ a ∈ s.raced ∨ (touched a ∧ race a)

/-- A host read of the byte gives b: a free byte, the low one of the n-th free word, when the byte is raced or the read
is itself a race, else the byte of DMEM (20 R112, log entry 5). -/
abbrev HostReads (s : State) (n a : Nat) (b : Byte) : Prop :=
  (a ∈ s.raced ∨ PendingWrites s a → b = (Config.freeWord (s.fresh + n)).setWidth 8) ∧
  (¬(a ∈ s.raced ∨ PendingWrites s a) → b = memRead8 s.dmem a)

/-! ### Binary32 patterns (00 R17; the IEEE 754 format is general knowledge, log entry 9) -/

/-- The exponent and fraction fields together. -/
def magnitude (a : Word) : Nat := a.toNat % 2 ^ 31

/-- A zero, a subnormal or a normal number: the exponent field is not 255. -/
abbrev IsFinite (a : Word) : Prop := magnitude a < 0x7F800000

/-- An infinity: exponent field 255, fraction 0. -/
abbrev IsInfinite (a : Word) : Prop := magnitude a = 0x7F800000

/-- A NaN: exponent field 255, fraction not 0. -/
abbrev IsNaN (a : Word) : Prop := 0x7F800000 < magnitude a

/-- The infinity of a sign. -/
def infinity (negative : Bool) : Word := if negative then 0xFF800000#32 else 0x7F800000#32

/-- The value of a finite pattern, in units of 2^-149: with exponent field e and fraction f, f for e = 0 and
(2^23 + f) * 2^(e - 1) otherwise, with its sign. -/
def unitsOf (a : Word) : Int :=
  let e := magnitude a / 2 ^ 23
  let f := magnitude a % 2 ^ 23
  (if a.msb then -1 else 1) * ((if e = 0 then f else (2 ^ 23 + f) * 2 ^ (e - 1) : Nat) : Int)

/-- r is the exact number x * 2^-(149 + k), rounded to nearest, ties to even. From the midpoint of the largest finite
number and 2^128 on, (2^25 - 1) * 2^103, it is the infinity of x's sign; below it, a finite pattern such that no finite
one is nearer to x, and even where another number is as near. -/
def Rounds (x : Int) (k : Nat) (r : Word) : Prop :=
  let distance (c : Word) : Nat := (unitsOf c * 2 ^ k - x).natAbs
  ((2 ^ 25 - 1) * 2 ^ (252 + k) ≤ x.natAbs → r = infinity (decide (x < 0))) ∧
  (x.natAbs < (2 ^ 25 - 1) * 2 ^ (252 + k) → IsFinite r ∧ ∀ c, IsFinite c →
    distance r ≤ distance c ∧ (distance r = distance c → unitsOf c = unitsOf r ∨ r.getLsbD 0 = false))

/-! ### Groups of commands -/

/-- The 12 commands that write DMEM. -/
abbrev Storing (i : Instr) : Prop :=
  (∃ n, i = .convElem n ∨ i = .mixElem n ∨ i = .firRcElem n ∨ i = .firRrElem n ∨ i = .firCcElem n ∨ i = .demElem n) ∨
  i ∈ blocks

/-- The 23 OP values of 30 R132 of class I. -/
def classIOps : List Nat := [0x08, 0x10, 0x13, 0x20, 0x21, 0x22, 0x30]

/-- The OP values of 30 R132 of class Z. -/
def classZOps : List Nat :=
  [0x00, 0x01, 0x09, 0x11, 0x12, 0x14, 0x15, 0x24, 0x25, 0x26, 0x28, 0x29, 0x2A, 0x31, 0x32, 0x33]

/-- An illegal word: an undefined OP, or a class Z OP with IMM not 0 (30 R133, R134). -/
abbrev IllegalWord (w : Word) : Prop :=
  (w.toNat % 256 ∉ classIOps ∧ w.toNat % 256 ∉ classZOps) ∨ (w.toNat % 256 ∈ classZOps ∧ w.toNat / 256 ≠ 0)

/-! ### The register port -/

/-- A plain read-write register (10 R37): its offset, the bits its fields occupy, and the word of the fields of the
state it stands for, which the commands use (10 R40). -/
structure PlainRegister where
  off : BitVec 12
  bits : Word
  field : State → Word

/-- A control register with two one-bit fields. -/
def twoBits (bit0 bit1 : Bool) : Word := (if bit0 then 1#32 else 0#32) + (if bit1 then 2#32 else 0#32)

/-- The plain read-write registers of the converter bank (10 R44 to R46). -/
def plainConv : List PlainRegister :=
  [⟨0x100#12, 0x00000003#32, fun s => twoBits s.conv.signed s.conv.ilv⟩,
   ⟨0x104#12, 0x00FFFFFF#32, fun s => s.conv.ooff.setWidth 32⟩,
   ⟨0x108#12, 0x00FFFFFF#32, fun s => s.conv.olen.setWidth 32⟩,
   ⟨0x10C#12, 0xFFFFFFFF#32, fun s => s.conv.inAddr⟩,
   ⟨0x110#12, 0xFFFFFFFF#32, fun s => s.conv.outRe⟩,
   ⟨0x114#12, 0xFFFFFFFF#32, fun s => s.conv.outIm⟩]

/-- Those of the mixer bank (10 R48 to R54, R56). -/
def plainMix : List PlainRegister :=
  [⟨0x200#12, 0x00000003#32, fun s => twoBits s.mix.signed s.mix.ilv⟩,
   ⟨0x204#12, 0xFFFFFFFF#32, fun s => s.mix.freq⟩,
   ⟨0x208#12, 0xFFFFFFFF#32, fun s => s.mix.rate⟩,
   ⟨0x20C#12, 0x00FFFFFF#32, fun s => s.mix.coslen.setWidth 32⟩,
   ⟨0x210#12, 0x00FFFFFF#32, fun s => s.mix.base.setWidth 32⟩,
   ⟨0x214#12, 0x00FFFFFF#32, fun s => s.mix.ooff.setWidth 32⟩,
   ⟨0x218#12, 0x00FFFFFF#32, fun s => s.mix.olen.setWidth 32⟩,
   ⟨0x21C#12, 0xFFFFFFFF#32, fun s => s.mix.inAddr⟩,
   ⟨0x220#12, 0xFFFFFFFF#32, fun s => s.mix.outRe⟩,
   ⟨0x224#12, 0xFFFFFFFF#32, fun s => s.mix.outIm⟩,
   ⟨0x228#12, 0xFFFFFFFF#32, fun s => s.mix.lidx⟩]

/-- Those of the FIR bank (10 R58 to R64). -/
def plainFir : List PlainRegister :=
  [⟨0x300#12, 0x00000001#32, fun s => twoBits s.fir.xtap false⟩,
   ⟨0x304#12, 0x00FFFFFF#32, fun s => s.fir.order.setWidth 32⟩,
   ⟨0x308#12, 0x00FFFFFF#32, fun s => s.fir.decim.setWidth 32⟩,
   ⟨0x30C#12, 0x00FFFFFF#32, fun s => s.fir.ioff.setWidth 32⟩,
   ⟨0x310#12, 0x00FFFFFF#32, fun s => s.fir.ooff.setWidth 32⟩,
   ⟨0x314#12, 0x00FFFFFF#32, fun s => s.fir.olen.setWidth 32⟩,
   ⟨0x318#12, 0xFFFFFFFF#32, fun s => s.fir.inRe⟩,
   ⟨0x31C#12, 0xFFFFFFFF#32, fun s => s.fir.inIm⟩,
   ⟨0x320#12, 0xFFFFFFFF#32, fun s => s.fir.outRe⟩,
   ⟨0x324#12, 0xFFFFFFFF#32, fun s => s.fir.outIm⟩,
   ⟨0x328#12, 0x0000FFFF#32, fun s => s.fir.tidx.setWidth 32⟩,
   ⟨0x334#12, 0x0000FFFF#32, fun s => s.fir.ridx.setWidth 32⟩]

/-- Those of the demodulator bank (10 R65 to R68). -/
def plainDem : List PlainRegister :=
  [⟨0x380#12, 0xFFFFFFFF#32, fun s => s.dem.gain⟩,
   ⟨0x384#12, 0xFFFFFFFF#32, fun s => s.dem.hre⟩,
   ⟨0x388#12, 0xFFFFFFFF#32, fun s => s.dem.him⟩,
   ⟨0x38C#12, 0x00FFFFFF#32, fun s => s.dem.ioff.setWidth 32⟩,
   ⟨0x390#12, 0x00FFFFFF#32, fun s => s.dem.ooff.setWidth 32⟩,
   ⟨0x394#12, 0x00FFFFFF#32, fun s => s.dem.olen.setWidth 32⟩,
   ⟨0x398#12, 0xFFFFFFFF#32, fun s => s.dem.inRe⟩,
   ⟨0x39C#12, 0xFFFFFFFF#32, fun s => s.dem.inIm⟩,
   ⟨0x3A0#12, 0xFFFFFFFF#32, fun s => s.dem.out⟩]

/-- Every plain read-write register: CTRL (10 R38) and those of the banks. -/
def plainRegisters : List PlainRegister :=
  ⟨0x010#12, 0x00000003#32, fun s => twoBits s.doneIe s.errIe⟩ :: plainConv ++ plainMix ++ plainFir ++ plainDem

/-- The offsets of the other global registers (ID, PARAM0, PARAM1, STATUS, CMD, ERRINFO, ERRADDR) and of the data
registers of the index ports (10 R37). -/
def otherOffsets : List (BitVec 12) :=
  [0x000#12, 0x004#12, 0x008#12, 0x014#12, 0x018#12, 0x01C#12, 0x020#12, 0x22C#12, 0x230#12, 0x32C#12, 0x330#12,
   0x338#12, 0x33C#12]

/-- The codes of the causes (60 R300). -/
def causeNumbers : List (Cause × Nat) :=
  [(.illegalCmd, 1), (.badOrder, 2), (.badDecim, 3), (.badCoslen, 4), (.badRate, 5), (.lutStale, 6), (.align, 7),
   (.memRange, 8), (.overlap, 9), (.regRange, 10)]

/-- The window offset of CONV_LUT[k] (10 R37). -/
def lutOffset (k : Nat) : BitVec 12 := BitVec.ofNat 12 (0x400 + 4 * k)

/-- The offset is one 10 R37 lists. -/
def Listed (off : BitVec 12) : Prop :=
  (∃ r ∈ plainRegisters, r.off = off) ∨ off ∈ otherOffsets ∨ ∃ k < 256, off = lutOffset k

/-- A write through an index port or to a LUT entry stores in one memory alone: `mem` is that memory and `put` replaces
it. The entry at index k becomes v, no other entry and nothing else changes, and a read then returns v. -/
abbrev PortStores (s : State) (off : BitVec 12) (mem : State → EntryMem) (put : State → EntryMem → State) (k : Nat)
    (v : Word) : Prop :=
  ∃ t, hostMove (.regWrite off 4 v) s = .next t ∧ t = { put s (mem t) with reply := .completed } ∧
    StoresOnly (mem s) (mem t) k v ∧ Reads t off v

/-- The index ports: data register, its offset, its index and the depth of its memory (10 R37, R56, R63, R64). -/
def ports (s : State) : List (BitVec 12 × Nat × Nat) :=
  [(0x32C#12, s.fir.tidx.toNat, s.params.firMaxOrder + 1), (0x330#12, s.fir.tidx.toNat, s.params.firMaxOrder + 1),
   (0x338#12, s.fir.ridx.toNat, s.params.firMaxOrder - 1), (0x33C#12, s.fir.ridx.toNat, s.params.firMaxOrder - 1),
   (0x22C#12, s.mix.lidx.toNat, 256 * s.params.mixCoslenMax),
   (0x230#12, s.mix.lidx.toNat, 256 * s.params.mixCoslenMax)]

/-- The outcome with the next state, if there is one, passed through `f`. -/
def mapNext (f : State → State) (o : Host.Outcome State Fault Refusal) : Host.Outcome State Fault Refusal :=
  match o with
  | .next t => .next (f t)
  | .fault r => .fault r
  | .refused r => .refused r

/-! ### The host's queue -/

/-- The move need not wait for a pending command: a 4-byte read of STATUS, a DMEM access, a reset, a look at irq
(10 R69, 60 R330). -/
def needNotWait (m : HostMove) : Bool :=
  match m with
  | .regWrite _ _ _ => false
  | .regRead off bytes => off == 0x014#12 && bytes == 4
  | .memWrite _ _ => true
  | .memWrite8 _ _ => true
  | .memRead _ => true
  | .memRead8 _ => true
  | .reset => true
  | .observeIrq => true

/-- The move the head of the host's queue stands for; WAIT's is a read of STATUS (30 R139). -/
def headMove (t : HostTurn) : HostMove :=
  match t with
  | .once _ m => m
  | .wait _ => .regRead 0x014#12 4

/-- The entry makes its next move only after a pending command: a move that is not early or that waits (10 R69), a WAIT
with none of its early reads left. -/
def standsBack (t : HostTurn) : Bool :=
  match t with
  | .once early m => !early || !needNotWait m
  | .wait polls => polls == 0

/-- The host's queue is empty or its head stands back. -/
abbrev HostWaits (s : State) : Prop := ∀ t ∈ s.host.head?, standsBack t = true

/-- The host's next move is `m`. -/
abbrev NextMove (s : State) (m : HostMove) : Prop := s.host.head?.map headMove = some m

end Sys2Proof.Claims

open Sys2Proof Sys2Proof.Machine Sys2Proof.Claims

/-! ### Encoding -/

/-- 30 R130, R131, R138: decoding the word of a well-formed command gives the command back, every operand value kept. -/
def Obligations.DecodeOfEncode : Prop := ∀ i : Instr, wellFormed i = true → decode (encode i) = .ok i

/-- 30 R130, R136: a legal word is the word of exactly the command it decodes to, and that command is well-formed. -/
def Obligations.EncodeOfDecode : Prop :=
  ∀ (w : Word) (i : Instr), decode w = .ok i → encode i = w ∧ wellFormed i = true

/-- 30 R133, R134: a class Z opcode with IMM not 0, or an OP outside the table, raises ILLEGAL_CMD and has no other
effect than the error record; every other word is legal. -/
def Obligations.IllegalWordsRaise : Prop :=
  ∀ (w : Word) (s : State),
    (IllegalWord w → coreStep w s = .next (raisedFrom s .illegalCmd w 0#32)) ∧
    (¬IllegalWord w → ∃ i, decode w = .ok i)

/-- 30 R132, R138: words written out bit by bit decode to the commands they stand for, one per family. -/
def Obligations.WrittenWordsDecode : Prop :=
  decode 0b00000000000000000000000000000000#32 = .ok .nop ∧
  decode 0b00000000000000000000001000001000#32 = .ok (.convElem 2) ∧
  decode 0b00000000000000000000011000010011#32 = .ok (.mixAdvance 6) ∧
  decode 0b00000000000000000000000100100001#32 = .ok (.firRrElem 1) ∧
  decode 0b10000000000000000000000000110000#32 = .ok (.demElem 0x800000)

/-! ### Steps -/

/-- 10 R69, 40 R160: when a command word is pending and the host's next move does not go first, the step is the core's,
and it is the execution of the command the word decodes to. -/
def Obligations.StepRunsPendingCommand : Prop :=
  ∀ (s : State) (w : Word), s.pending = some w → HostWaits s →
    step s = coreStep w s ∧ ∀ i, decode w = .ok i → step s = exec i s

/-- 10 R69, 30 R139, 60 R330: the host's moves. With no command pending its next move is made and leaves the queue, a
WAIT after one read of STATUS. While one is pending, an early move that need not wait is made at once, and a WAIT with
early reads left reads STATUS, its BUSY 1, and stays queued. With nothing queued and nothing pending the core holds
its state (log entries 4 and 16). -/
def Obligations.StepMakesHostMove : Prop :=
  ∀ s : State,
    (s.pending = none →
      (∀ early m rest, s.host = .once early m :: rest → step s = hostMove m { s with host := rest }) ∧
      (∀ polls rest, s.host = .wait polls :: rest → step s = hostMove (.regRead 0x014#12 4) { s with host := rest }) ∧
      (s.host = [] → step s = .next s)) ∧
    (s.pending.isSome = true →
      (∀ m rest, needNotWait m = true → s.host = .once true m :: rest → step s = hostMove m { s with host := rest }) ∧
      (∀ polls rest, polls ≠ 0 → s.host = .wait polls :: rest →
        step s = hostMove (.regRead 0x014#12 4) { s with host := .wait (polls - 1) :: rest }) ∧
      ∃ v, hostMove (.regRead 0x014#12 4) s = .next { s with reply := .value v } ∧ v.getLsbD 0 = true)

/-- 10 R69: while a command is pending, a register write, and a register read that is not the 4-byte read of STATUS at
offset 0x014, wait: the step is the core's. -/
def Obligations.RegisterAccessWaits : Prop :=
  ∀ (s : State) (w : Word), s.pending = some w →
    (∀ off bytes v, NextMove s (.regWrite off bytes v) → step s = coreStep w s) ∧
    (∀ off bytes, NextMove s (.regRead off bytes) → ¬(off = 0x014#12 ∧ bytes = 4) → step s = coreStep w s)

/-- 40 R160, R162, 60 R310, R313: every command ends: it completes with DONE set and the error record as before, or it
raises one cause and changes nothing but the record, ERRINFO being its word and ERRADDR the base of one of its buffers
for ALIGN, MEM_RANGE and OVERLAP and 0 otherwise. -/
def Obligations.CommandCompletesOrRaises : Prop :=
  ∀ (i : Instr) (s : State), ∃ t, exec i s = .next t ∧
    (Completed s t ∨
      ∃ c addr, t = raisedFrom s c (encode i) addr ∧ c ≠ .illegalCmd ∧ c ≠ .regRange ∧
        (c = .align ∨ c = .memRange ∨ c = .overlap → ∃ b ∈ listed i s, addr = b.base) ∧
        (¬(c = .align ∨ c = .memRange ∨ c = .overlap) → addr = 0#32))

/-- 40 R161: an element command whose index is not valid completes with no check, no access and no change but STATUS. -/
def Obligations.InvalidIndexIsNoop : Prop :=
  ∀ (s : State) (i : Nat),
    (s.conv.olen.toNat ≤ i + s.conv.ooff.toNat → exec (.convElem i) s = .next (completedFrom s)) ∧
    (s.mix.olen.toNat ≤ i + s.mix.ooff.toNat → exec (.mixElem i) s = .next (completedFrom s)) ∧
    (s.fir.olen.toNat ≤ i + s.fir.ooff.toNat →
      exec (.firRcElem i) s = .next (completedFrom s) ∧ exec (.firRrElem i) s = .next (completedFrom s) ∧
      exec (.firCcElem i) s = .next (completedFrom s)) ∧
    (s.dem.olen.toNat ≤ i + s.dem.ooff.toNat → exec (.demElem i) s = .next (completedFrom s))

/-- 40 R165, 44 R284: an empty block, and DEM_SAVE with L = 0, complete with no check and no change but STATUS. -/
def Obligations.EmptyBlockIsNoop : Prop :=
  ∀ s : State,
    (s.conv.olen.toNat ≤ s.conv.ooff.toNat → exec .convBlock s = .next (completedFrom s)) ∧
    (s.mix.olen.toNat ≤ s.mix.ooff.toNat → exec .mixBlock s = .next (completedFrom s)) ∧
    (s.fir.olen.toNat ≤ s.fir.ooff.toNat →
      exec .firRcBlock s = .next (completedFrom s) ∧ exec .firRrBlock s = .next (completedFrom s) ∧
      exec .firCcBlock s = .next (completedFrom s)) ∧
    (s.dem.olen.toNat ≤ s.dem.ooff.toNat → exec .demBlock s = .next (completedFrom s)) ∧
    (s.dem.olen.toNat = 0 → exec .demSave s = .next (completedFrom s))

/-! ### Configuration, alignment, range and overlap errors -/

/-- 43 R252, 60 R302, R303: FIR commands raise BAD_ORDER when N = 0 or N > FIR_MAX_ORDER, and otherwise BAD_DECIM when
D = 0: an element command for a valid index, a block command for a non-empty block, a refresh always. -/
def Obligations.FirConfigurationErrors : Prop :=
  ∀ (s : State) (c : Cause),
    (((s.fir.order.toNat = 0 ∨ s.params.firMaxOrder < s.fir.order.toNat) ∧ c = .badOrder) ∨
      ((1 ≤ s.fir.order.toNat ∧ s.fir.order.toNat ≤ s.params.firMaxOrder) ∧ s.fir.decim = 0#24 ∧ c = .badDecim)) →
    (∀ i, i + s.fir.ooff.toNat < s.fir.olen.toNat →
      exec (.firRcElem i) s = .next (raisedFrom s c (encode (.firRcElem i)) 0#32) ∧
      exec (.firRrElem i) s = .next (raisedFrom s c (encode (.firRrElem i)) 0#32) ∧
      exec (.firCcElem i) s = .next (raisedFrom s c (encode (.firCcElem i)) 0#32)) ∧
    (s.fir.ooff.toNat < s.fir.olen.toNat →
      exec .firRcBlock s = .next (raisedFrom s c (encode .firRcBlock) 0#32) ∧
      exec .firRrBlock s = .next (raisedFrom s c (encode .firRrBlock) 0#32) ∧
      exec .firCcBlock s = .next (raisedFrom s c (encode .firCcBlock) 0#32)) ∧
    exec .firRefreshC s = .next (raisedFrom s c (encode .firRefreshC) 0#32) ∧
    exec .firRefreshR s = .next (raisedFrom s c (encode .firRefreshR) 0#32)

/-- 60 R304: MIX_ELEM for a valid index, MIX_BLOCK for a non-empty block, MIX_GENLUT, MIX_ADVANCE and MIX_REFRESH raise
BAD_COSLEN when C = 0 or C > MIX_COSLEN_MAX; MIX_RESET does not test it. -/
def Obligations.MixCoslenErrors : Prop :=
  ∀ s : State, (s.mix.coslen.toNat = 0 ∨ s.params.mixCoslenMax < s.mix.coslen.toNat) →
    (∀ i, i + s.mix.ooff.toNat < s.mix.olen.toNat →
      exec (.mixElem i) s = .next (raisedFrom s .badCoslen (encode (.mixElem i)) 0#32)) ∧
    (s.mix.ooff.toNat < s.mix.olen.toNat →
      exec .mixBlock s = .next (raisedFrom s .badCoslen (encode .mixBlock) 0#32)) ∧
    exec .mixGenlut s = .next (raisedFrom s .badCoslen (encode .mixGenlut) 0#32) ∧
    (∀ n, exec (.mixAdvance n) s = .next (raisedFrom s .badCoslen (encode (.mixAdvance n)) 0#32)) ∧
    exec .mixRefresh s = .next (raisedFrom s .badCoslen (encode .mixRefresh) 0#32) ∧
    ∃ t, exec .mixReset s = .next t ∧ Completed s t

/-- 60 R305, R306: with C legal, MIX_GENLUT raises BAD_RATE when MIX_RATE = 0, and MIX_ELEM for a valid index and
MIX_BLOCK for a non-empty block raise LUT_STALE when LUT_VALID = 0. -/
def Obligations.MixRateAndStaleErrors : Prop :=
  ∀ s : State, CoslenLegal s →
    (s.mix.rate = 0#32 → exec .mixGenlut s = .next (raisedFrom s .badRate (encode .mixGenlut) 0#32)) ∧
    (s.mix.lutValid = false →
      (∀ i, i + s.mix.ooff.toNat < s.mix.olen.toNat →
        exec (.mixElem i) s = .next (raisedFrom s .lutStale (encode (.mixElem i)) 0#32)) ∧
      (s.mix.ooff.toNat < s.mix.olen.toNat →
        exec .mixBlock s = .next (raisedFrom s .lutStale (encode .mixBlock) 0#32)))

/-- 40 R163, R164, 60 R307, R308: a command with buffers that is no no-op and passes its configuration tests tests
them in listed order, ALIGN before MEM_RANGE: the first that fails gives the cause, its base is ERRADDR, and nothing
else changes. -/
def Obligations.BufferErrors : Prop :=
  ∀ (i : Instr) (s : State) (before after : List Buffer) (b : Buffer) (c : Cause),
    ReachesBuffers i s → listed i s = before ++ b :: after → (∀ x ∈ before, BufferPasses s.params.dmemSize x) →
    BufferFails s.params.dmemSize b c → exec i s = .next (raisedFrom s c (encode i) b.base)

/-- 40 R167, 60 R309: a block command whose other tests pass raises OVERLAP when an output extent meets another extent;
ERRADDR is the base of the first such output buffer, and nothing else changes. -/
def Obligations.OverlapErrors : Prop :=
  ∀ (i : Instr) (s : State) (before after : List Buffer) (b : Buffer),
    i ∈ blocks → ReachesBuffers i s → (∀ x ∈ listed i s, BufferPasses s.params.dmemSize x) →
    listed i s = before ++ b :: after → b.output = true → (∃ x ∈ before ++ after, Meet b x) →
    (∀ pre c post, before = pre ++ c :: post → c.output = true → ∀ x ∈ pre ++ post ++ b :: after, ¬Meet c x) →
    exec i s = .next (raisedFrom s .overlap (encode i) b.base)

/-! ### Results: NOP, RESET_STATE and the commands that write the core -/

/-- 40 R170, 43 R251: RESET_STATE and FIR_CLEAR zero every remainder entry, not only entries 0 to N - 2; RESET_STATE
zeroes the history too; everything else is kept. -/
def Obligations.RemainderClearsZeroAll : Prop :=
  ∀ s : State,
    let cleared (t : State) : Prop := Completed s t ∧ ControlKept s t ∧ MemoryKept s t ∧ t.conv = s.conv ∧
      t.mix = s.mix ∧ t.fir = { s.fir with remRe := t.fir.remRe, remIm := t.fir.remIm } ∧
      ∀ m, (m < s.params.firMaxOrder - 1 →
          entryAt t.fir.remRe m = .written 0#32 ∧ entryAt t.fir.remIm m = .written 0#32) ∧
        (s.params.firMaxOrder - 1 ≤ m →
          entryAt t.fir.remRe m = entryAt s.fir.remRe m ∧ entryAt t.fir.remIm m = entryAt s.fir.remIm m)
    (∃ t, exec .resetState s = .next t ∧ cleared t ∧ t.dem = { s.dem with hre := 0#32, him := 0#32 }) ∧
    ∃ t, exec .firClear s = .next t ∧ cleared t ∧ t.dem = s.dem

/-- 40 R169, 44 R285, 42 R218: NOP has no effect but BUSY 0 and DONE 1, DEM_RESET zeroes the history and MIX_RESET
zeroes MIX_BASE; everything else is kept. -/
def Obligations.NopAndKernelResets : Prop :=
  ∀ s : State,
    exec .nop s = .next (completedFrom s) ∧
    exec .demReset s = .next { completedFrom s with dem := { s.dem with hre := 0#32, him := 0#32 } } ∧
    exec .mixReset s = .next { completedFrom s with mix := { s.mix with base := 0#24 } }

/-- 42 R216, R217: with C legal, MIX_ADVANCE n adds n and MIX_REFRESH adds the number of complex outputs of the block,
M or (M + 1) / 2 when interleaved, modulo C; everything else is kept. -/
def Obligations.PhaseAdvances : Prop :=
  ∀ s : State, CoslenLegal s →
    (∀ n, ∃ t, exec (.mixAdvance n) s = .next t ∧
      t = { completedFrom s with mix := { s.mix with base := t.mix.base } } ∧
      t.mix.base.toNat = (s.mix.base.toNat + n) % s.mix.coslen.toNat) ∧
    ∃ t, exec .mixRefresh s = .next t ∧
      t = { completedFrom s with mix := { s.mix with base := t.mix.base } } ∧
      t.mix.base.toNat =
        (s.mix.base.toNat +
          (if s.mix.ilv then (s.mix.olen.toNat - s.mix.ooff.toNat + 1) / 2
           else s.mix.olen.toNat - s.mix.ooff.toNat)) % s.mix.coslen.toNat

/-- 42 R213: with C legal and MIX_RATE not 0, MIX_GENLUT stores LUTGEN's pair of (SIGNED, MIX_FREQ signed, MIX_RATE, t,
v) at flat index 256*t + v for every t < C and v < 256, sets LUT_VALID, and leaves entries from 256*C on and everything
else. -/
def Obligations.GenlutFillsRows : Prop :=
  ∀ s : State, CoslenLegal s → s.mix.rate ≠ 0#32 →
    ∃ t, exec .mixGenlut s = .next t ∧
      t = { completedFrom s with
        mix := { s.mix with lutRe := t.mix.lutRe, lutIm := t.mix.lutIm, lutValid := true } } ∧
      (∀ p < s.mix.coslen.toNat, ∀ v < 256,
        mlutRe t (256 * p + v) = (Config.lutgen s.mix.signed s.mix.freq.toInt s.mix.rate.toNat p v).1 ∧
        mlutIm t (256 * p + v) = (Config.lutgen s.mix.signed s.mix.freq.toInt s.mix.rate.toNat p v).2) ∧
      ∀ k, 256 * s.mix.coslen.toNat ≤ k →
        entryAt t.mix.lutRe k = entryAt s.mix.lutRe k ∧ entryAt t.mix.lutIm k = entryAt s.mix.lutIm k

/-- 43 R249, R250: a refresh gives remainder entries 0 to N - 2 the samples F + m, those before the block from the old
remainder (written or not), the others from the input buffer bit for bit, or a free word where the host raced one of its
bytes (20 R112, log entry 5); FIR_REFRESH_R touches the real channel only; entries from N - 1 on and everything else are
kept. -/
def Obligations.RefreshCopiesSamples : Prop :=
  ∀ s : State,
    (Executes .firRefreshR s →
      ∃ t, exec .firRefreshR s = .next t ∧
        t = { completedFrom s with fir := { s.fir with remRe := t.fir.remRe }, fresh := t.fresh } ∧
        Draws s t (s.fir.order.toNat - 1) ∧ RefreshedMem s s.fir.remRe t.fir.remRe s.fir.inRe 0) ∧
    (Executes .firRefreshC s →
      ∃ t, exec .firRefreshC s = .next t ∧
        t = { completedFrom s with
          fir := { s.fir with remRe := t.fir.remRe, remIm := t.fir.remIm }, fresh := t.fresh } ∧
        Draws s t (2 * (s.fir.order.toNat - 1)) ∧ RefreshedMem s s.fir.remRe t.fir.remRe s.fir.inRe 0 ∧
        RefreshedMem s s.fir.remIm t.fir.remIm s.fir.inIm (s.fir.order.toNat - 1))

/-- 44 R284: DEM_SAVE copies input sample iO + L - 1 into the history bit for bit and leaves everything else; a part
whose word the host raced is a free word (20 R112, log entry 5). -/
def Obligations.DemSaveCapturesLastSample : Prop :=
  ∀ s : State, Executes .demSave s →
    ∃ t, exec .demSave s = .next t ∧
      t = { completedFrom s with dem := { s.dem with hre := t.dem.hre, him := t.dem.him }, fresh := t.fresh } ∧
      Draws s t 2 ∧
      Yields s 0 (InWord (saveAddr s s.dem.inRe)) (memRead32 s.dmem (saveAddr s s.dem.inRe)) t.dem.hre ∧
      Yields s 1 (InWord (saveAddr s s.dem.inIm)) (memRead32 s.dmem (saveAddr s s.dem.inIm)) t.dem.him

/-! ### Results: the commands that write DMEM

In each, a result computed from a raced byte, or stored in one, is a free word (20 R112; that the free words come from
a counter of the state is log entry 5). -/

/-- 41 R190, R191, R193: CONV_ELEM i writes the LUT entry of its byte, index b or sext(b) + 128, at the address its mode
gives, and nothing else. -/
def Obligations.ConvElemWritesLutEntry : Prop :=
  ∀ (s : State) (i : Nat), Executes (.convElem i) s →
    ∃ t, exec (.convElem i) s = .next t ∧ Finished s t 1 ∧
      Stored s t 0 (convTarget s i) (convUses s i) (convResult s i) ∧ BytesKept s t (InWord (convTarget s i))

/-- 41 R192: CONV_BLOCK writes every position of the block from the state at its start, and nothing else. -/
def Obligations.ConvBlockWritesEveryPosition : Prop :=
  ∀ s : State, Executes .convBlock s →
    ∃ t, exec .convBlock s = .next t ∧ Finished s t (convCount s) ∧
      (∀ k < convCount s, Stored s t k (convTarget s k) (convUses s k) (convResult s k)) ∧
      BytesKept s t (fun a => ∃ k < convCount s, InWord (convTarget s k) a)

/-- 42 R214: MIX_ELEM i writes both LUT values of its phase and byte, real then imaginary, or when interleaved the one
its parity selects at element i >> 1, and nothing else. Where the two addresses coincide the imaginary value stays. -/
def Obligations.MixElemWritesLutEntries : Prop :=
  ∀ (s : State) (i : Nat), Executes (.mixElem i) s →
    ∃ t, exec (.mixElem i) s = .next t ∧ Finished s t (if s.mix.ilv then 1 else 2) ∧
      (s.mix.ilv = false →
        (s.mix.outRe ≠ s.mix.outIm →
          Stored s t 0 (s.mix.outRe.toNat + 4 * i) (mixUses s i) (mlutRe s (mixIndex s i))) ∧
        Stored s t 1 (s.mix.outIm.toNat + 4 * i) (mixUses s i) (mlutIm s (mixIndex s i))) ∧
      (s.mix.ilv = true →
        (i % 2 = 0 → Stored s t 0 (s.mix.outRe.toNat + 4 * (i / 2)) (mixUses s i) (mlutRe s (mixIndex s i))) ∧
        (i % 2 = 1 → Stored s t 0 (s.mix.outIm.toNat + 4 * (i / 2)) (mixUses s i) (mlutIm s (mixIndex s i)))) ∧
      BytesKept s t (fun a => ∃ x ∈ mixTargets s i, InWord x a)

/-- 42 R215: MIX_BLOCK writes every position of the block with the MIX_BASE and LUT of its start, and nothing else;
MIX_BASE is unchanged. -/
def Obligations.MixBlockWritesEveryPosition : Prop :=
  ∀ s : State, Executes .mixBlock s →
    ∃ t, exec .mixBlock s = .next t ∧ Finished s t (if s.mix.ilv then mixCount s else 2 * mixCount s) ∧
      (s.mix.ilv = false → ∀ k < mixCount s,
        Stored s t (2 * k) (s.mix.outRe.toNat + 4 * k) (mixUses s k) (mlutRe s (mixIndex s k)) ∧
        Stored s t (2 * k + 1) (s.mix.outIm.toNat + 4 * k) (mixUses s k) (mlutIm s (mixIndex s k))) ∧
      (s.mix.ilv = true → ∀ k < mixCount s,
        (k % 2 = 0 → Stored s t k (s.mix.outRe.toNat + 4 * (k / 2)) (mixUses s k) (mlutRe s (mixIndex s k))) ∧
        (k % 2 = 1 → Stored s t k (s.mix.outIm.toNat + 4 * (k / 2)) (mixUses s k) (mlutIm s (mixIndex s k)))) ∧
      BytesKept s t (fun a => ∃ k < mixCount s, ∃ x ∈ mixTargets s k, InWord x a)

/-- 43 R244: FIR_RR_ELEM i writes the sum of K products, in ascending order from +0.0, each operation rounded, and
nothing else; the imaginary buffers are not tested. -/
def Obligations.FirRrElemWritesSum : Prop :=
  ∀ (s : State) (i : Nat), Executes (.firRrElem i) s →
    ∃ t, exec (.firRrElem i) s = .next t ∧ Finished s t 1 ∧
      Stored s t 0 (firTargetRe s i) (firUses s s.fir.inRe i) (realSumRe s i) ∧
      BytesKept s t (InWord (firTargetRe s i))

/-- 43 R243, R245: FIR_RC_ELEM i and FIR_CC_ELEM i write the sums of both channels, real then imaginary, and nothing
else. Where the two addresses coincide the imaginary value stays (40 R168). -/
def Obligations.FirComplexElemsWriteSums : Prop :=
  ∀ (s : State) (i : Nat),
    let kept (t : State) : Prop :=
      Finished s t 2 ∧ BytesKept s t (fun a => InWord (firTargetRe s i) a ∨ InWord (firTargetIm s i) a)
    let both (a : Nat) : Prop := firUses s s.fir.inRe i a ∨ firUses s s.fir.inIm i a
    (Executes (.firRcElem i) s →
      ∃ t, exec (.firRcElem i) s = .next t ∧ kept t ∧
        (s.fir.outRe ≠ s.fir.outIm →
          Stored s t 0 (firTargetRe s i) (firUses s s.fir.inRe i) (realSumRe s i)) ∧
        Stored s t 1 (firTargetIm s i) (firUses s s.fir.inIm i) (realSumIm s i)) ∧
    (Executes (.firCcElem i) s →
      ∃ t, exec (.firCcElem i) s = .next t ∧ kept t ∧
        (s.fir.outRe ≠ s.fir.outIm → Stored s t 0 (firTargetRe s i) both (complexSumRe s i)) ∧
        Stored s t 1 (firTargetIm s i) both (complexSumIm s i))

/-- 43 R247: FIR_RR_BLOCK writes every output of the block from the state at its start, and nothing else; the remainder
is unchanged. -/
def Obligations.FirRrBlockWritesSums : Prop :=
  ∀ s : State, Executes .firRrBlock s →
    ∃ t, exec .firRrBlock s = .next t ∧ Finished s t (firCount s) ∧
      (∀ k < firCount s, Stored s t k (firTargetRe s k) (firUses s s.fir.inRe k) (realSumRe s k)) ∧
      BytesKept s t (fun a => ∃ k < firCount s, InWord (firTargetRe s k) a)

/-- 43 R246, R248: FIR_RC_BLOCK and FIR_CC_BLOCK write every output of both channels from the state at their start, and
nothing else. -/
def Obligations.FirComplexBlocksWriteSums : Prop :=
  ∀ s : State,
    let kept (t : State) : Prop := Finished s t (2 * firCount s) ∧
      BytesKept s t (fun a => ∃ k < firCount s, InWord (firTargetRe s k) a ∨ InWord (firTargetIm s k) a)
    let both (k a : Nat) : Prop := firUses s s.fir.inRe k a ∨ firUses s s.fir.inIm k a
    (Executes .firRcBlock s →
      ∃ t, exec .firRcBlock s = .next t ∧ kept t ∧ ∀ k < firCount s,
        Stored s t (2 * k) (firTargetRe s k) (firUses s s.fir.inRe k) (realSumRe s k) ∧
        Stored s t (2 * k + 1) (firTargetIm s k) (firUses s s.fir.inIm k) (realSumIm s k)) ∧
    (Executes .firCcBlock s →
      ∃ t, exec .firCcBlock s = .next t ∧ kept t ∧ ∀ k < firCount s,
        Stored s t (2 * k) (firTargetRe s k) (both k) (complexSumRe s k) ∧
        Stored s t (2 * k + 1) (firTargetIm s k) (both k) (complexSumIm s k))

/-- 44 R280, R282: DEM_ELEM i writes gain times ATAN2 of the conjugate product with the previous sample, the history for
i = 0, and nothing else; the history is unchanged. It holds for every ATAN2 (44 R281). -/
def Obligations.DemElemWritesPhase : Prop :=
  ∀ (s : State) (i : Nat), Executes (.demElem i) s →
    ∃ t, exec (.demElem i) s = .next t ∧ Finished s t 1 ∧ Stored s t 0 (demTarget s i) (demUses s i) (demResult s i) ∧
      BytesKept s t (InWord (demTarget s i))

/-- 44 R283: DEM_BLOCK writes every output of the block from the state at its start, and nothing else. -/
def Obligations.DemBlockWritesPhases : Prop :=
  ∀ s : State, Executes .demBlock s →
    ∃ t, exec .demBlock s = .next t ∧ Finished s t (demCount s) ∧
      (∀ k < demCount s, Stored s t k (demTarget s k) (demUses s k) (demResult s k)) ∧
      BytesKept s t (fun a => ∃ k < demCount s, InWord (demTarget s k) a)

/-! ### Host DMEM accesses, races and abandoned commands -/

/-- 20 R100, R111, R112, 60 R330: a host DMEM write, of 4 bytes or of 1, stores its bytes little-endian and no others,
and races every byte it writes that the pending command reads or writes; an address at or above DMEM_SIZE stops the
host with a fault (log entry 11). -/
def Obligations.HostDmemWrites : Prop :=
  ∀ (s : State) (addr : Nat),
    let race (a : Nat) : Prop := PendingReads s a ∨ PendingWrites s a
    (∀ v : Word,
      (addr + 4 ≤ s.params.dmemSize →
        ∃ t, hostMove (.memWrite addr v) s = .next t ∧
          t = { s with dmem := t.dmem, raced := t.raced, reply := .completed } ∧ memRead32 t.dmem addr = v ∧
          BytesKept s t (InWord addr) ∧ RacedAfter s t (InWord addr) race) ∧
      (s.params.dmemSize < addr + 4 → hostMove (.memWrite addr v) s = .fault (.dmemAbsent addr))) ∧
    ∀ b : Byte,
      (addr < s.params.dmemSize →
        ∃ t, hostMove (.memWrite8 addr b) s = .next t ∧
          t = { s with dmem := t.dmem, raced := t.raced, reply := .completed } ∧ memRead8 t.dmem addr = b ∧
          BytesKept s t (· = addr) ∧ RacedAfter s t (· = addr) race) ∧
      (s.params.dmemSize ≤ addr → hostMove (.memWrite8 addr b) s = .fault (.dmemAbsent addr))

/-- 20 R100, R112, 60 R330: a host DMEM read, of 4 bytes or of 1, returns the bytes little-endian, a free byte where the
byte is raced or the pending command writes it, races the bytes the pending command writes, and changes nothing else; an
address at or above DMEM_SIZE stops the host with a fault (log entries 5 and 11). -/
def Obligations.HostDmemReads : Prop :=
  ∀ (s : State) (addr : Nat),
    let drawn (n : Nat) : Nat := s.fresh + (if s.pending.isSome then n else 0)
    (addr + 4 ≤ s.params.dmemSize →
      ∃ t w, hostMove (.memRead addr) s = .next t ∧
        t = { s with reply := .value w, raced := t.raced, fresh := drawn 4 } ∧
        (∀ k < 4, HostReads s k (addr + k) (w.extractLsb' (8 * k) 8)) ∧
        RacedAfter s t (InWord addr) (PendingWrites s)) ∧
    (s.params.dmemSize < addr + 4 → hostMove (.memRead addr) s = .fault (.dmemAbsent addr)) ∧
    (addr < s.params.dmemSize →
      ∃ t b, hostMove (.memRead8 addr) s = .next t ∧
        t = { s with reply := .value (b.setWidth 32), raced := t.raced, fresh := drawn 1 } ∧ HostReads s 0 addr b ∧
        RacedAfter s t (· = addr) (PendingWrites s)) ∧
    (s.params.dmemSize ≤ addr → hostMove (.memRead8 addr) s = .fault (.dmemAbsent addr))

/-- 70 R340: a reset while a command is pending abandons it: P is gone, no completion or error is recorded, every
element it would have written (and does not write again) holds a free word (log entry 6), and every other byte is
kept; a word that would not have executed leaves DMEM as it is. -/
def Obligations.ResetAbandonsCommand : Prop :=
  ∀ s : State, ∃ t, hostMove .reset s = .next t ∧ t.pending = none ∧ t.raced = [] ∧ t.done = false ∧ t.error = none ∧
    (∀ i, WillExecute s i →
      t.fresh = s.fresh + (targets i s).length ∧
      (∀ before x after, targets i s = before ++ x :: after → x ∉ after →
        memRead32 t.dmem x = Config.freeWord (s.fresh + before.length)) ∧
      BytesKept s t (fun a => ∃ x ∈ targets i s, InWord x a)) ∧
    ((∀ i, ¬WillExecute s i) → MemoryKept s t)

/-! ### Frames -/

/-- 40 R168, 10 R31: a command that writes DMEM changes no bank and no control state, and no byte outside the elements
its rule lists (the same plan of elements the meaning writes), whatever it does: execute, raise or no-op. -/
def Obligations.StoringCommandsFrame : Prop :=
  ∀ (i : Instr) (s t : State), Storing i → exec i s = .next t →
    BanksKept s t ∧ ControlKept s t ∧
    ∀ a, (∀ st ∈ (planOf i s).stores, ¬InWord st.addr a) → memRead8 t.dmem a = memRead8 s.dmem a

/-- 10 R31, R39: the commands that write no DMEM change no byte of it, and each changes only its own kernel's state:
NOP none, the mixer commands MIX_BASE or the LUT, the FIR ones the remainder, DEM_SAVE and DEM_RESET the history,
RESET_STATE remainder and history; the error record and DONE change as 40 R160 says. -/
def Obligations.MaintenanceCommandsFrame : Prop :=
  ∀ s t : State,
    (∀ i ∈ [Instr.nop, .resetState, .mixGenlut, .mixRefresh, .mixReset, .firRefreshC, .firRefreshR, .firClear, .demSave,
        .demReset], exec i s = .next t → MemoryKept s t ∧ ControlKept s t ∧ t.conv = s.conv) ∧
    (∀ n, exec (.mixAdvance n) s = .next t → MemoryKept s t ∧ ControlKept s t ∧ t.conv = s.conv ∧ t.fir = s.fir ∧
      t.dem = s.dem) ∧
    (exec .nop s = .next t → BanksKept s t) ∧
    (∀ i ∈ [Instr.mixGenlut, .mixRefresh, .mixReset], exec i s = .next t → t.fir = s.fir ∧ t.dem = s.dem) ∧
    (∀ i ∈ [Instr.firRefreshC, .firRefreshR, .firClear], exec i s = .next t → t.mix = s.mix ∧ t.dem = s.dem) ∧
    (∀ i ∈ [Instr.demSave, .demReset], exec i s = .next t → t.mix = s.mix ∧ t.fir = s.fir) ∧
    (exec .resetState s = .next t → t.mix = s.mix)

/-- 10 R31: no command writes a configuration register except MIX_BASE, DEM_HRE and DEM_HIM; besides these, only the
mixer LUT, LUT_VALID and the remainder change, and no command changes CONV_LUT or the taps. -/
def Obligations.NoCommandWritesConfiguration : Prop :=
  ∀ (i : Instr) (s t : State), exec i s = .next t →
    t.doneIe = s.doneIe ∧ t.errIe = s.errIe ∧ t.params = s.params ∧ t.conv = s.conv ∧
    t.mix = { s.mix with
      base := t.mix.base, lutRe := t.mix.lutRe, lutIm := t.mix.lutIm, lutValid := t.mix.lutValid } ∧
    t.fir = { s.fir with remRe := t.fir.remRe, remIm := t.fir.remIm } ∧
    t.dem = { s.dem with hre := t.dem.hre, him := t.dem.him }

/-- 43 R255, 40 R161, R165: no FIR command writes an output element k with k + O >= L: every byte outside elements
k < L - O of the two output buffers is kept. -/
def Obligations.FirWritesNoOutputPastLength : Prop :=
  ∀ (i : Instr) (s t : State),
    (∃ n, i = .firRcElem n ∨ i = .firRrElem n ∨ i = .firCcElem n) ∨ i ∈ [Instr.firRcBlock, .firRrBlock, .firCcBlock] →
    exec i s = .next t →
    BytesKept s t (fun a => ∃ k, k + s.fir.ooff.toNat < s.fir.olen.toNat ∧
      (InWord (s.fir.outRe.toNat + 4 * k) a ∨ InWord (s.fir.outIm.toNat + 4 * k) a))

/-- 10 R40: no command of one kernel reads another kernel's bank: with the other banks replaced it does the same. -/
def Obligations.KernelsReadOnlyTheirBank : Prop :=
  ∀ (s : State) (c : ConvBank) (x : MixBank) (f : FirBank) (d : DemBank),
    (∀ i, (∃ n, i = Instr.convElem n) ∨ i = .convBlock →
      exec i { s with mix := x, fir := f, dem := d } =
        mapNext (fun t => { t with mix := x, fir := f, dem := d }) (exec i s)) ∧
    (∀ i, (∃ n, i = Instr.mixElem n ∨ i = .mixAdvance n) ∨ i ∈ [Instr.mixBlock, .mixGenlut, .mixRefresh, .mixReset] →
      exec i { s with conv := c, fir := f, dem := d } =
        mapNext (fun t => { t with conv := c, fir := f, dem := d }) (exec i s)) ∧
    (∀ i, (∃ n, i = Instr.firRcElem n ∨ i = .firRrElem n ∨ i = .firCcElem n) ∨
        i ∈ [Instr.firRcBlock, .firRrBlock, .firCcBlock, .firRefreshC, .firRefreshR, .firClear] →
      exec i { s with conv := c, mix := x, dem := d } =
        mapNext (fun t => { t with conv := c, mix := x, dem := d }) (exec i s)) ∧
    (∀ i, (∃ n, i = Instr.demElem n) ∨ i ∈ [Instr.demBlock, .demSave, .demReset] →
      exec i { s with conv := c, mix := x, fir := f } =
        mapNext (fun t => { t with conv := c, mix := x, fir := f }) (exec i s))

/-! ### Invariants and whole-machine rules -/

/-- Every step keeps the invariant: legal parameters, DMEM and the internal memories in canonical form and within their
sizes, and no command pending while an error is recorded. -/
def Obligations.StepKeepsInvariant : Prop := ∀ s t : State, s.Inv → step s = .next t → t.Inv

/-- 10 R57: every step keeps what LUT_VALID records: the LUTs hold what MIX_GENLUT stores for the current MIX_FREQ,
MIX_RATE, MIX_COSLEN and MIX_CTRL.SIGNED. -/
def Obligations.StepKeepsLutCurrent : Prop := ∀ s t : State, s.LutCurrent → step s = .next t → t.LutCurrent

/-- Both invariants hold after reset. -/
def Obligations.ResetMeetsInvariants : Prop := State.reset.Inv ∧ State.reset.LutCurrent

/-- 10 R57: LUT_VALID is set only by the step of a pending MIX_GENLUT, and is cleared only by a reset, a register-port
write to MIX_FREQ, MIX_RATE or MIX_COSLEN, or one to MIX_CTRL that changes bit 0. -/
def Obligations.LutValidChangesOnlyAsRuled : Prop :=
  ∀ s t : State, step s = .next t →
    (s.mix.lutValid = false → t.mix.lutValid = true → ∃ w, s.pending = some w ∧ decode w = .ok .mixGenlut) ∧
    (s.mix.lutValid = true → t.mix.lutValid = false →
      NextMove s .reset ∨
      (∃ v off, off ∈ [0x204#12, 0x208#12, 0x20C#12] ∧ NextMove s (.regWrite off 4 v)) ∨
      ∃ v, v.getLsbD 0 ≠ s.mix.signed ∧ NextMove s (.regWrite 0x200#12 4 v))

/-- 60 R314, R315, R316: the first error is kept, with ERRINFO and ERRADDR, by every step but a STATUS write with bit
2 = 1 or a reset, and while it is recorded no command becomes pending; DONE once set stays set in every step but a
STATUS write with bit 1 = 1 or a reset. -/
def Obligations.ErrorAndDoneKept : Prop :=
  ∀ (s t : State), step s = .next t →
    (∀ c, s.CommandOk → s.error = some c →
      (t.error = some c ∧ t.errInfo = s.errInfo ∧ t.errAddr = s.errAddr ∧ t.pending = none) ∨
      NextMove s .reset ∨ ∃ v, v.getLsbD 2 = true ∧ NextMove s (.regWrite 0x014#12 4 v)) ∧
    (s.done = true →
      t.done = true ∨ NextMove s .reset ∨ ∃ v, v.getLsbD 1 = true ∧ NextMove s (.regWrite 0x014#12 4 v))

/-- 40 R166, R167: when a block command executes, no element reads a byte any element writes, and without a race the
DMEM it leaves is the same for every order of the elements' writes. -/
def Obligations.BlockOrderDoesNotMatter : Prop :=
  ∀ (s : State) (i : Instr), i ∈ blocks → Executes i s → s.raced = [] →
    (∀ a, uses i s a → ∀ x ∈ targets i s, ¬InWord x a) ∧
    ∀ order : List Store, order.Perm (planOf i s).stores →
      ∃ t, exec i s = .next t ∧ ∀ a, memRead8 (writeStores s s.dmem 0 order) a = memRead8 t.dmem a

/-- 43 R254: FIR continuity. Let `long` hold a stream with XTAP = 0, iO = 0, O = 0, and `first` be the same state with
L = M1. If FIR_REFRESH_R executes on `first` without a race, giving `t`, and `second` has the same taps, N, D, XTAP,
iO = O = 0 and the remainder of `t`, then output i of `second` is the same pattern as output M1 + i of `long`, for
every i up to whose last sample i*D the input samples j of `second` equal samples M1*D + j of the stream. No reset
lies between: two reads of a tap or remainder entry that is not written agree (log entry 2). -/
def Obligations.FirContinuity : Prop :=
  ∀ (long second : State) (len : BitVec 24),
    let first : State := { long with fir := { long.fir with olen := len } }
    long.fir.xtap = false → long.fir.ioff = 0#24 → long.fir.ooff = 0#24 → long.raced = [] →
    Executes .firRefreshR first → (∃ t, exec .firRefreshR first = .next t ∧ second.fir.remRe = t.fir.remRe) →
    second.resets = long.resets → second.fir.xtap = false → second.fir.ioff = 0#24 → second.fir.ooff = 0#24 →
    second.fir.order = long.fir.order → second.fir.decim = long.fir.decim → second.fir.tapRe = long.fir.tapRe →
    ∀ i : Nat,
      (∀ j ≤ i * long.fir.decim.toNat, memRead32 second.dmem (second.fir.inRe.toNat + 4 * j) =
        memRead32 long.dmem (long.fir.inRe.toNat + 4 * (len.toNat * long.fir.decim.toNat + j))) →
      realSumRe second i = realSumRe long (len.toNat + i)

/-- 42 R219: MIX_ELEM i with MIX_BASE = b and with MIX_BASE = b + C leaves the same DMEM. -/
def Obligations.MixerPeriodicity : Prop :=
  ∀ (s : State) (i : Nat) (b : BitVec 24), b.toNat = s.mix.base.toNat + s.mix.coslen.toNat →
    exec (.mixElem i) { s with mix := { s.mix with base := b } } =
      mapNext (fun t => { t with mix := { t.mix with base := b } }) (exec (.mixElem i) s)

/-! ### Binary32 -/

/-- 00 R17: a NaN result of fmul, fadd or fsub is the canonical NaN; and the results for operands that are not both
finite (the IEEE 754 cases, log entry 9): a NaN operand, an infinity times a zero and a difference of equal infinities
give it, an infinity times another number is an infinity with the product's sign, and an infinity plus or minus any
other number is that infinity. -/
def Obligations.NaNAndInfinityResults : Prop :=
  ∀ a b : Word,
    (∀ r ∈ [fmul a b, fadd a b, fsub a b], IsNaN r → r = 0x7FC00000#32) ∧
    (IsNaN a ∨ IsNaN b → fmul a b = 0x7FC00000#32 ∧ fadd a b = 0x7FC00000#32 ∧ fsub a b = 0x7FC00000#32) ∧
    ((IsInfinite a ∧ magnitude b = 0) ∨ (magnitude a = 0 ∧ IsInfinite b) → fmul a b = 0x7FC00000#32) ∧
    (¬IsNaN a → ¬IsNaN b → magnitude a ≠ 0 → magnitude b ≠ 0 → IsInfinite a ∨ IsInfinite b →
      fmul a b = infinity (a.msb ^^ b.msb)) ∧
    (IsInfinite a → IsInfinite b →
      (a.msb ≠ b.msb → fadd a b = 0x7FC00000#32 ∧ fsub a b = a) ∧
      (a.msb = b.msb → fadd a b = a ∧ fsub a b = 0x7FC00000#32)) ∧
    (IsInfinite a → IsFinite b → fadd a b = a ∧ fsub a b = a) ∧
    (IsFinite a → IsInfinite b → fadd a b = b ∧ fsub a b = infinity (!b.msb))

/-- 43 R245: an accumulator that starts at +0.0 never becomes -0.0, so no FIR output is -0.0. -/
def Obligations.SumsAreNeverNegativeZero : Prop :=
  ∀ (term : Nat → Word) (n : Nat), firSum term n ≠ 0x80000000#32

/-- 00 R17: rounding is to nearest, ties to even: the pattern f32Round gives for a sign, m and k is m * 2^-(149 + k)
so rounded, an infinity from the midpoint beyond the largest finite number on. Of finite operands fmul rounds the
exact product, fadd the exact sum and fsub the exact difference, subnormals kept; a product has the exclusive or of
the signs, an exact zero sum or difference is -0.0 only from -0.0 + -0.0 and -0.0 - +0.0 (the IEEE 754 definitions,
log entry 9). -/
def Obligations.RoundingIsNearestEven : Prop :=
  (∀ (negative : Bool) (m k : Nat),
    Rounds ((if negative then -1 else 1) * (m : Int)) k (f32Round negative m k) ∧
    (f32Round negative m k).msb = negative) ∧
  ∀ a b : Word, IsFinite a → IsFinite b →
    Rounds (unitsOf a * unitsOf b) 149 (fmul a b) ∧ (fmul a b).msb = (a.msb ^^ b.msb) ∧
    Rounds (unitsOf a + unitsOf b) 0 (fadd a b) ∧
    (unitsOf a + unitsOf b = 0 → fadd a b = if a.msb && b.msb then 0x80000000#32 else 0#32) ∧
    Rounds (unitsOf a - unitsOf b) 0 (fsub a b) ∧
    (unitsOf a - unitsOf b = 0 → fsub a b = if a.msb && !b.msb then 0x80000000#32 else 0#32)

/-! ### The register port, STATUS and reset -/

/-- 60 R314: while ERR = 1 a host write to CMD is discarded: nothing changes. 10 R41, 40 R160: otherwise the word
becomes the pending command and BUSY is 1. A read of CMD returns 0. -/
def Obligations.CmdWriteIssuesOrIsDiscarded : Prop :=
  ∀ (s : State) (w : Word),
    (s.error ≠ none → hostMove (.regWrite 0x018#12 4 w) s = .next { s with reply := .completed }) ∧
    (s.error = none →
      hostMove (.regWrite 0x018#12 4 w) s =
        .next { s with pending := some w, raced := [], reply := .completed }) ∧
    hostMove (.regRead 0x018#12 4) s = .next { s with reply := .value 0#32 }

/-- 10 R39, 60 R300: the bits a read of STATUS returns, CAUSE by the code of each cause. -/
def Obligations.StatusReadBits : Prop :=
  ∀ s : State, ∃ v, hostMove (.regRead 0x014#12 4) s = .next { s with reply := .value v } ∧
    v.getLsbD 0 = s.pending.isSome ∧ v.getLsbD 1 = s.done ∧ v.getLsbD 2 = s.error.isSome ∧
    v.getLsbD 3 = s.mix.lutValid ∧ (s.error = none → (v.toNat / 256) % 256 = 0) ∧
    (∀ c, s.error = some c → ∃ p ∈ causeNumbers, p.1 = c ∧ (v.toNat / 256) % 256 = p.2) ∧
    (v.toNat / 16) % 16 = 0 ∧ v.toNat / 65536 = 0

/-- 10 R39, 60 R315, R316: a host write to STATUS clears DONE when bit 1 is 1 and ERR and CAUSE when bit 2 is 1, and
changes nothing else; ERRINFO and ERRADDR keep the record. -/
def Obligations.StatusWriteClears : Prop :=
  ∀ (s : State) (v : Word),
    hostMove (.regWrite 0x014#12 4 v) s =
      .next { s with
        done := s.done && !v.getLsbD 1
        error := if v.getLsbD 2 then none else s.error
        reply := .completed }

/-- 60 R317: irq = (CTRL.DONEIE & STATUS.DONE) | (CTRL.ERRIE & STATUS.ERR), the bits as reads of CTRL and STATUS return
them, and observing it has no effect. -/
def Obligations.IrqLevel : Prop :=
  ∀ s : State, ∃ level, hostMove .observeIrq s = .next { s with reply := .irq level } ∧
    (level = true ↔
      ((portReadValue 0x010#12 4 s).getLsbD 0 = true ∧ (portReadValue 0x014#12 4 s).getLsbD 1 = true) ∨
      ((portReadValue 0x010#12 4 s).getLsbD 1 = true ∧ (portReadValue 0x014#12 4 s).getLsbD 2 = true))

/-- 10 R70, 60 R311: an access to an index port whose index is out of range stores nothing and returns 0; it records
REG_RANGE with the register's offset and the index when no error is recorded, and nothing otherwise. (That a write to
MIX_LRE or MIX_LIM counts as such an access is log entry 13.) -/
def Obligations.IndexPortOutOfRange : Prop :=
  ∀ (s : State) (v : Word), ∀ p ∈ ports s, p.2.2 ≤ p.2.1 →
    let recorded : State :=
      if s.error = none then
        { s with error := some .regRange, errInfo := p.1.setWidth 32, errAddr := BitVec.ofNat 32 p.2.1 }
      else s
    hostMove (.regRead p.1 4) s = .next { recorded with reply := .value 0#32 } ∧
    hostMove (.regWrite p.1 4 v) s = .next { recorded with reply := .completed }

/-- 10 R47, R56, R63, R64: an in-range write to FIR_TRE, FIR_TIM, FIR_RRE or FIR_RIM stores the word in the indexed
tap or remainder entry, one to CONV_LUT[k] in entry k, and in no other, and a read then returns it; an in-range read
returns the entry, of MIX_LRE and MIX_LIM the LUT's, whose writes are ignored. -/
def Obligations.InternalMemoryPorts : Prop :=
  ∀ (s : State) (v : Word),
    (s.fir.tidx.toNat ≤ s.params.firMaxOrder →
      Reads s 0x32C#12 (tapRe s s.fir.tidx.toNat) ∧ Reads s 0x330#12 (tapIm s s.fir.tidx.toNat) ∧
      PortStores s 0x32C#12 (·.fir.tapRe) (fun s m => { s with fir := { s.fir with tapRe := m } }) s.fir.tidx.toNat v ∧
      PortStores s 0x330#12 (·.fir.tapIm) (fun s m => { s with fir := { s.fir with tapIm := m } }) s.fir.tidx.toNat v) ∧
    (s.fir.ridx.toNat + 2 ≤ s.params.firMaxOrder →
      Reads s 0x338#12 (remRe s s.fir.ridx.toNat) ∧ Reads s 0x33C#12 (remIm s s.fir.ridx.toNat) ∧
      PortStores s 0x338#12 (·.fir.remRe) (fun s m => { s with fir := { s.fir with remRe := m } }) s.fir.ridx.toNat v ∧
      PortStores s 0x33C#12 (·.fir.remIm) (fun s m => { s with fir := { s.fir with remIm := m } }) s.fir.ridx.toNat v) ∧
    (s.mix.lidx.toNat < 256 * s.params.mixCoslenMax →
      Reads s 0x22C#12 (mlutRe s s.mix.lidx.toNat) ∧ Reads s 0x230#12 (mlutIm s s.mix.lidx.toNat) ∧
      ∀ off ∈ [0x22C#12, 0x230#12], hostMove (.regWrite off 4 v) s = .next { s with reply := .completed }) ∧
    ∀ k < 256, Reads s (lutOffset k) (convLut s k) ∧
      PortStores s (lutOffset k) (·.conv.lut) (fun s m => { s with conv := { s.conv with lut := m } }) k v

/-- 10 R35, R37: an access that is not 4 bytes wide or not at a multiple of 4, and any access to a reserved offset, one
that the map does not list, has no effect, and a read returns 0. -/
def Obligations.OtherAccessesHaveNoEffect : Prop :=
  ∀ (s : State) (off : BitVec 12) (bytes : Nat) (v : Word),
    (bytes ≠ 4 ∨ off.toNat % 4 ≠ 0 ∨ ¬Listed off) →
    hostMove (.regRead off bytes) s = .next { s with reply := .value 0#32 } ∧
    hostMove (.regWrite off bytes v) s = .next { s with reply := .completed }

/-- 10 R35, R36, R37, R40, R57, R59, 70 R345: a read of a plain read-write register at its offset returns the field of
its bank that the commands use. A write of v stores v in the bits its fields occupy, which a read then returns, with 0
in the others. Every other plain register reads as before; the internal memories, DMEM, the pending command, DONE and
the error record are kept. LUT_VALID is 0 after a write to MIX_FREQ, MIX_RATE or MIX_COSLEN, or one to MIX_CTRL that
changes SIGNED, and is kept by any other. -/
def Obligations.RegistersHoldWrittenBits : Prop :=
  ∀ (s : State) (v : Word), ∀ r ∈ plainRegisters,
    Reads s r.off (r.field s) ∧
    ∃ t, hostMove (.regWrite r.off 4 v) s = .next t ∧ r.field t = v &&& r.bits ∧ Reads t r.off (v &&& r.bits) ∧
      (∀ q ∈ plainRegisters, q.off ≠ r.off → q.field t = q.field s ∧ Reads t q.off (q.field s)) ∧ InternalKept s t ∧
      t.mix.lutValid =
        (if r.off ∈ [0x204#12, 0x208#12, 0x20C#12] then false
         else if r.off = 0x200#12 then s.mix.lutValid && (v.getLsbD 0 == s.mix.signed) else s.mix.lutValid) ∧
      t = { s with
        doneIe := t.doneIe, errIe := t.errIe, conv := t.conv, mix := t.mix, fir := t.fir, dem := t.dem
        reply := .completed }

/-- 10 R32, R33, R34, R41, R42, R43: ID, PARAM0, PARAM1, ERRINFO and ERRADDR read as the rules say and ignore writes,
and CMD reads 0. -/
def Obligations.ReadOnlyRegisters : Prop :=
  ∀ (s : State) (v : Word), s.params.Legal →
    Reads s 0x000#12 0x41444C37#32 ∧ Reads s 0x004#12 (BitVec.ofNat 32 s.params.firMaxOrder) ∧
    Reads s 0x008#12 (BitVec.ofNat 32 s.params.mixCoslenMax) ∧ Reads s 0x018#12 0#32 ∧ Reads s 0x01C#12 s.errInfo ∧
    Reads s 0x020#12 s.errAddr ∧
    ∀ off ∈ [0x000#12, 0x004#12, 0x008#12, 0x01C#12, 0x020#12],
      hostMove (.regWrite off 4 v) s = .next { s with reply := .completed }

/-- 10 R71, 70 R340: after a reset ID, PARAM0 and PARAM1 read their constants, every other register but the internal
memories' entries and data ports reads 0, no command is pending, irq is 0, LUT_VALID is 0 and every entry of every
internal memory is unwritten; the parameters are kept (log entry 20: 10 R71 does not name them), and DMEM is kept when
no command was pending (70 R340). State.reset is such a state. -/
def Obligations.ResetValues : Prop :=
  let asReset (t : State) : Prop :=
    t.pending = none ∧ t.error = none ∧ t.mix.lutValid = false ∧
    hostMove .observeIrq t = .next { t with reply := .irq false } ∧ Reads t 0x000#12 0x41444C37#32 ∧
    (t.params.Legal → Reads t 0x004#12 (BitVec.ofNat 32 t.params.firMaxOrder) ∧
      Reads t 0x008#12 (BitVec.ofNat 32 t.params.mixCoslenMax)) ∧
    (∀ off ∈ [0x014#12, 0x018#12, 0x01C#12, 0x020#12], Reads t off 0#32) ∧ (∀ r ∈ plainRegisters, Reads t r.off 0#32) ∧
    ∀ m ∈ [t.conv.lut, t.mix.lutRe, t.mix.lutIm, t.fir.tapRe, t.fir.tapIm, t.fir.remRe, t.fir.remIm],
      ∀ k, entryAt m k = .unspecified k
  asReset State.reset ∧
  ∀ s : State, ∃ t, hostMove .reset s = .next t ∧ asReset t ∧ t.params = s.params ∧
    (s.pending = none → t.dmem = s.dmem)
end

