-- ==== Sys2Proof/Laws/Sparse.lean ====
section
/-! SUPPORT. The laws of the sparse memories: what a read returns after a write or a fill, and that every operation
keeps the canonical form. -/

namespace Sys2Proof.Machine

variable {α : Type}

theorem sparseGet_of_notMem (d : Nat → α) (m : List (Nat × α)) (k : Nat) (h : ∀ c ∈ m, c.1 ≠ k) :
    sparseGet d m k = d k := by
  induction m with
  | nil => rfl
  | cons c rest ih =>
    simp only [sparseGet]
    rw [if_neg (h c (by simp)), ih fun c hc => h c (by simp [hc])]

theorem sparseGet_append_of_notMem (d : Nat → α) (m n : List (Nat × α)) (k : Nat) (h : ∀ c ∈ m, c.1 ≠ k) :
    sparseGet d (m ++ n) k = sparseGet d n k := by
  induction m with
  | nil => rfl
  | cons c rest ih =>
    simp only [List.cons_append, sparseGet]
    rw [if_neg (h c (by simp)), ih fun c hc => h c (by simp [hc])]

theorem sparseGet_filter (d : Nat → α) (m : List (Nat × α)) (p : Nat → Bool) (k : Nat) (h : p k = true) :
    sparseGet d (m.filter fun c => p c.1) k = sparseGet d m k := by
  induction m with
  | nil => rfl
  | cons c rest ih =>
    by_cases hc : c.1 = k
    · subst hc
      simp [h, sparseGet]
    · by_cases hp : p c.1 = true <;> simp [hp, sparseGet, hc, ih]

theorem sparseGet_insert (d : Nat → α) (m : List (Nat × α)) (k j : Nat) (v : α) :
    sparseGet d (sparseInsert m k v) j = if k = j then v else sparseGet d m j := by
  induction m with
  | nil => rfl
  | cons c rest ih =>
    obtain ⟨i, u⟩ := c
    simp only [sparseInsert]
    split_ifs with h₁ h₂ h₃ h₄ h₅ <;> simp only [sparseGet, ih] <;> split_ifs <;> first | rfl | omega

variable [DecidableEq α]

/-- A read after a write. -/
theorem sparseGet_put (d : Nat → α) (m : List (Nat × α)) (k j : Nat) (v : α) :
    sparseGet d (sparsePut d m k v) j = if k = j then v else sparseGet d m j := by
  unfold sparsePut
  split_ifs with hv hk hk
  · subst hk
    rw [sparseGet_of_notMem, hv]
    intro c hc
    simpa using (List.mem_filter.mp hc).2
  · exact sparseGet_filter d m (fun i => i != k) j (by simp [Ne.symm hk])
  · rw [sparseGet_insert, if_pos hk]
  · rw [sparseGet_insert, if_neg hk]

@[simp] theorem sparseGet_put_same (d : Nat → α) (m : List (Nat × α)) (k : Nat) (v : α) :
    sparseGet d (sparsePut d m k v) k = v := by rw [sparseGet_put, if_pos rfl]

theorem sparseGet_put_other (d : Nat → α) (m : List (Nat × α)) {k j : Nat} (v : α) (h : k ≠ j) :
    sparseGet d (sparsePut d m k v) j = sparseGet d m j := by rw [sparseGet_put, if_neg h]

/-- The listed cells of a fill. -/
def fillCells (d : Nat → α) (n : Nat) (f : Nat → α) : List (Nat × α) :=
  (List.range n).filterMap fun k => if f k = d k then none else some (k, f k)

theorem mem_fillCells {d : Nat → α} {n : Nat} {f : Nat → α} {c : Nat × α} :
    c ∈ fillCells d n f ↔ c.1 < n ∧ c.2 = f c.1 ∧ c.2 ≠ d c.1 := by
  obtain ⟨k, v⟩ := c
  simp only [fillCells, List.mem_filterMap, List.mem_range, Option.ite_none_left_eq_some, Option.some.injEq,
    Prod.mk.injEq]
  constructor
  · rintro ⟨i, hi, hne, rfl, rfl⟩
    exact ⟨hi, rfl, hne⟩
  · rintro ⟨hk, rfl, hne⟩
    exact ⟨k, hk, hne, rfl, rfl⟩

theorem sparseGet_fillCells (d : Nat → α) (f : Nat → α) (rest : List (Nat × α)) (n k : Nat) (hk : k < n)
    (hrest : ∀ c ∈ rest, n ≤ c.1) : sparseGet d (fillCells d n f ++ rest) k = f k := by
  induction n generalizing rest with
  | zero => omega
  | succ n ih =>
    have hsplit : fillCells d (n + 1) f = fillCells d n f ++ (if f n = d n then [] else [(n, f n)]) := by
      unfold fillCells
      rw [List.range_succ, List.filterMap_append]
      split_ifs <;> simp_all
    rw [hsplit, List.append_assoc]
    by_cases hkn : k < n
    · refine ih _ hkn fun c hc => ?_
      rcases List.mem_append.mp hc with hc | hc
      · split_ifs at hc <;> simp_all
      · exact le_trans (Nat.le_succ n) (hrest c hc)
    · obtain rfl : k = n := by omega
      rw [sparseGet_append_of_notMem _ _ _ _ fun c hc => by have := (mem_fillCells.mp hc).1; omega]
      split_ifs with hf
      · rw [List.nil_append, sparseGet_of_notMem, hf]
        exact fun c hc => by have := hrest c hc; omega
      · simp [sparseGet]

/-- A read after a fill. -/
theorem sparseGet_splice (d : Nat → α) (n : Nat) (f : Nat → α) (m : List (Nat × α)) (k : Nat) :
    sparseGet d (sparseSplice d n f m) k = if k < n then f k else sparseGet d m k := by
  change sparseGet d (fillCells d n f ++ m.filter fun c => decide (n ≤ c.1)) k = _
  split_ifs with hk
  · exact sparseGet_fillCells d f _ n k hk fun c hc => by simpa using (List.mem_filter.mp hc).2
  · rw [sparseGet_append_of_notMem _ _ _ _ fun c hc => by have := (mem_fillCells.mp hc).1; omega]
    exact sparseGet_filter d m (fun i => decide (n ≤ i)) k (by simpa using hk)

/-! ### Keys and the canonical form -/

theorem mem_sparseInsert {m : List (Nat × α)} {k : Nat} {v : α} {c : Nat × α} (h : c ∈ sparseInsert m k v) :
    c = (k, v) ∨ c ∈ m := by
  induction m with
  | nil => simpa [sparseInsert] using h
  | cons e rest ih =>
    simp only [sparseInsert] at h
    split_ifs at h <;> simp only [List.mem_cons] at h ⊢
    · tauto
    · tauto
    · rcases h with h | h
      · tauto
      · have := ih h; tauto

theorem mem_sparsePut {d : Nat → α} {m : List (Nat × α)} {k : Nat} {v : α} {c : Nat × α}
    (h : c ∈ sparsePut d m k v) : c = (k, v) ∨ c ∈ m := by
  unfold sparsePut at h
  split_ifs at h
  · exact .inr (List.mem_filter.mp h).1
  · exact mem_sparseInsert h

theorem mem_sparseSplice {d : Nat → α} {n : Nat} {f : Nat → α} {m : List (Nat × α)} {c : Nat × α}
    (h : c ∈ sparseSplice d n f m) : c.1 < n ∨ c ∈ m := by
  change c ∈ fillCells d n f ++ m.filter fun c => decide (n ≤ c.1) at h
  rcases List.mem_append.mp h with h | h
  · exact .inl (mem_fillCells.mp h).1
  · exact .inr (List.mem_filter.mp h).1

theorem sparseInsert_pairwise {m : List (Nat × α)} (k : Nat) (v : α) (h : m.Pairwise fun x y => x.1 < y.1) :
    (sparseInsert m k v).Pairwise fun x y => x.1 < y.1 := by
  induction m with
  | nil => simp [sparseInsert]
  | cons e rest ih =>
    obtain ⟨j, u⟩ := e
    have hr := (List.pairwise_cons.mp h).1
    have ht := (List.pairwise_cons.mp h).2
    simp only [sparseInsert]
    split_ifs with h₁ h₂
    · refine List.pairwise_cons.mpr ⟨fun c hc => ?_, h⟩
      rcases List.mem_cons.mp hc with rfl | hc
      · exact h₁
      · exact lt_trans h₁ (hr c hc)
    · subst h₂
      exact List.pairwise_cons.mpr ⟨hr, ht⟩
    · refine List.pairwise_cons.mpr ⟨fun c hc => ?_, ih ht⟩
      rcases mem_sparseInsert hc with rfl | hc
      · simp only
        omega
      · exact hr c hc

/-- A write keeps the canonical form. -/
theorem sparsePut_wf {d : Nat → α} {m : List (Nat × α)} (k : Nat) (v : α) (h : SparseWf d m) :
    SparseWf d (sparsePut d m k v) := by
  unfold sparsePut
  split_ifs with hv
  · exact ⟨h.1.filter _, fun c hc => h.2 c (List.mem_filter.mp hc).1⟩
  · refine ⟨sparseInsert_pairwise k v h.1, fun c hc => ?_⟩
    rcases mem_sparseInsert hc with rfl | hc
    · exact hv
    · exact h.2 c hc

/-- A fill keeps the canonical form. -/
theorem sparseSplice_wf {d : Nat → α} {m : List (Nat × α)} (n : Nat) (f : Nat → α) (h : SparseWf d m) :
    SparseWf d (sparseSplice d n f m) := by
  change SparseWf d (fillCells d n f ++ m.filter fun c => decide (n ≤ c.1))
  constructor
  · rw [List.pairwise_append]
    refine ⟨?_, h.1.filter _, fun x hx y hy => ?_⟩
    · unfold fillCells
      rw [List.pairwise_filterMap]
      refine List.pairwise_lt_range.imp ?_
      rintro i j hij a ha b hb
      obtain ⟨-, rfl⟩ : _ ∧ a = (i, f i) := by
        split_ifs at ha; exact ⟨trivial, (Option.some.inj ha).symm⟩
      obtain ⟨-, rfl⟩ : _ ∧ b = (j, f j) := by
        split_ifs at hb; exact ⟨trivial, (Option.some.inj hb).symm⟩
      exact hij
    · have h₁ := (mem_fillCells.mp hx).1
      have h₂ : n ≤ y.1 := by simpa using (List.mem_filter.mp hy).2
      omega
  · intro c hc
    rcases List.mem_append.mp hc with hc | hc
    · exact (mem_fillCells.mp hc).2.2
    · exact h.2 c (List.mem_filter.mp hc).1

end Sys2Proof.Machine
end

