-- ==== Sys2Proof/Laws/Memory.lean ====
section
/-! SUPPORT. The laws of DMEM and of the internal memories (spec/20_memory.md R100): read after write, bytes a write
leaves alone, and that every operation keeps the canonical form and the bound on the keys. -/

namespace Sys2Proof.Machine

/-! ### DMEM bytes and words -/

theorem memRead8_write8 (m : Memory) (a b : Nat) (v : Byte) :
    memRead8 (memWrite8 m a v) b = if a = b then v else memRead8 m b := sparseGet_put _ _ _ _ _

theorem memRead8_write8_other (m : Memory) {a b : Nat} (v : Byte) (h : a ≠ b) :
    memRead8 (memWrite8 m a v) b = memRead8 m b := sparseGet_put_other _ _ _ h

/-- Every byte after a word write. -/
theorem memRead8_write32 (m : Memory) (a b : Nat) (v : Word) :
    memRead8 (memWrite32 m a v) b =
      if b = a then v.extractLsb' 0 8 else if b = a + 1 then v.extractLsb' 8 8
      else if b = a + 2 then v.extractLsb' 16 8 else if b = a + 3 then v.extractLsb' 24 8 else memRead8 m b := by
  simp only [memWrite32, memRead8_write8]
  split_ifs <;> first | rfl | omega

/-- A word write leaves every byte outside its four alone. -/
theorem memRead8_write32_outside (m : Memory) {a b : Nat} (v : Word) (h : ¬(a ≤ b ∧ b < a + 4)) :
    memRead8 (memWrite32 m a v) b = memRead8 m b := by
  rw [memRead8_write32]
  split_ifs <;> first | rfl | omega

/-- The bytes of a word, put together, are the word. -/
theorem word_of_bytes (v : Word) :
    v.extractLsb' 24 8 ++ v.extractLsb' 16 8 ++ v.extractLsb' 8 8 ++ v.extractLsb' 0 8 = v := by
  refine BitVec.eq_of_getLsbD_eq fun i hi => ?_
  simp only [BitVec.getLsbD_append, BitVec.getLsbD_extractLsb']
  have hlt : i - 8 - 8 - 8 < 8 := by omega
  split_ifs with h₀ h₁ h₂
  · simp [h₀]
  · simp only [h₁, decide_true, Bool.true_and]
    congr 1
    omega
  · simp only [h₂, decide_true, Bool.true_and]
    congr 1
    omega
  · simp only [hlt, decide_true, Bool.true_and]
    congr 1
    omega

/-- A word read after a word write to the same address. -/
@[simp] theorem memRead32_write32_same (m : Memory) (a : Nat) (v : Word) :
    memRead32 (memWrite32 m a v) a = v := by
  simp only [memRead32, memRead8_write32]
  simpa using word_of_bytes v

/-- A word read depends on its four bytes alone. -/
theorem memRead32_congr {m n : Memory} {a : Nat} (h : ∀ b, a ≤ b → b < a + 4 → memRead8 m b = memRead8 n b) :
    memRead32 m a = memRead32 n a := by
  simp only [memRead32]
  rw [h (a + 3) (by omega) (by omega), h (a + 2) (by omega) (by omega), h (a + 1) (by omega) (by omega),
    h a (by omega) (by omega)]

/-- A word write leaves a word that shares no byte with it alone. -/
theorem memRead32_write32_disjoint (m : Memory) {a b : Nat} (v : Word) (h : a + 4 ≤ b ∨ b + 4 ≤ a) :
    memRead32 (memWrite32 m a v) b = memRead32 m b :=
  memRead32_congr fun c hc hc' => memRead8_write32_outside m v (by omega)

theorem memWrite8_wf {m : Memory} (a : Nat) (v : Byte) (h : m.wf) : (memWrite8 m a v).wf := sparsePut_wf a v h

theorem memWrite32_wf {m : Memory} (a : Nat) (v : Word) (h : m.wf) : (memWrite32 m a v).wf :=
  memWrite8_wf _ _ (memWrite8_wf _ _ (memWrite8_wf _ _ (memWrite8_wf _ _ h)))

/-- Every listed key is below `bound`. -/
def KeysBelow {α : Type} (bound : Nat) (m : List (Nat × α)) : Prop := ∀ c ∈ m, c.1 < bound

theorem memWrite8_keysBelow {m : Memory} {bound a : Nat} (v : Byte) (h : KeysBelow bound m) (ha : a < bound) :
    KeysBelow bound (memWrite8 m a v) := fun c hc => by
  rcases mem_sparsePut hc with rfl | hc
  · exact ha
  · exact h c hc

theorem memWrite32_keysBelow {m : Memory} {bound a : Nat} (v : Word) (h : KeysBelow bound m) (ha : a + 3 < bound) :
    KeysBelow bound (memWrite32 m a v) :=
  memWrite8_keysBelow _ (memWrite8_keysBelow _ (memWrite8_keysBelow _ (memWrite8_keysBelow _ h (by omega)) (by omega))
    (by omega)) ha

/-- DMEM has its canonical form at reset. -/
theorem reset_dmem_wf : State.reset.dmem.wf := by decide

/-! ### Internal memories -/

theorem entryAt_write (m : EntryMem) (k j : Nat) (v : Word) :
    entryAt (entryWrite m k v) j = if k = j then .written v else entryAt m j := sparseGet_put _ _ _ _ _

theorem entryAt_fill (m : EntryMem) (n k : Nat) (f : Nat → Entry) :
    entryAt (entriesFill m n f) k = if k < n then f k else entryAt m k := sparseGet_splice _ _ _ _ _

theorem entryWrite_wf {m : EntryMem} (k : Nat) (v : Word) (h : m.wf) : (entryWrite m k v).wf := sparsePut_wf k _ h

theorem entriesFill_wf {m : EntryMem} (n : Nat) (f : Nat → Entry) (h : m.wf) : (entriesFill m n f).wf :=
  sparseSplice_wf n f h

theorem entryWrite_keysBelow {m : EntryMem} {bound k : Nat} (v : Word) (h : KeysBelow bound m) (hk : k < bound) :
    KeysBelow bound (entryWrite m k v) := fun c hc => by
  rcases mem_sparsePut hc with rfl | hc
  · exact hk
  · exact h c hc

theorem entriesFill_keysBelow {m : EntryMem} {bound n : Nat} (f : Nat → Entry) (h : KeysBelow bound m)
    (hn : n ≤ bound) : KeysBelow bound (entriesFill m n f) := fun c hc => by
  rcases mem_sparseSplice hc with hc | hc
  · exact lt_of_lt_of_le hc hn
  · exact h c hc

@[simp] theorem entryValue_written (s : State) (mem : InternalMem) (v : Word) :
    entryValue s mem (.written v) = v := rfl

end Sys2Proof.Machine
end

