-- ==== Sys2Proof/Laws/State.lean ====
section
/-! SUPPORT. What every update of the state leaves in every field: one lemma per update and field, true by definition,
so that no proof unfolds a record update. -/

namespace Sys2Proof.Machine

variable (s : State)

/-! ### Completion (40 R160) -/

@[simp] theorem complete_params : (complete s).params = s.params := rfl
@[simp] theorem complete_doneIe : (complete s).doneIe = s.doneIe := rfl
@[simp] theorem complete_errIe : (complete s).errIe = s.errIe := rfl
@[simp] theorem complete_done : (complete s).done = true := rfl
@[simp] theorem complete_error : (complete s).error = s.error := rfl
@[simp] theorem complete_errInfo : (complete s).errInfo = s.errInfo := rfl
@[simp] theorem complete_errAddr : (complete s).errAddr = s.errAddr := rfl
@[simp] theorem complete_conv : (complete s).conv = s.conv := rfl
@[simp] theorem complete_mix : (complete s).mix = s.mix := rfl
@[simp] theorem complete_fir : (complete s).fir = s.fir := rfl
@[simp] theorem complete_dem : (complete s).dem = s.dem := rfl
@[simp] theorem complete_pending : (complete s).pending = none := rfl
@[simp] theorem complete_dmem : (complete s).dmem = s.dmem := rfl
@[simp] theorem complete_host : (complete s).host = s.host := rfl
@[simp] theorem complete_reply : (complete s).reply = s.reply := rfl
@[simp] theorem complete_raced : (complete s).raced = [] := rfl
@[simp] theorem complete_fresh : (complete s).fresh = s.fresh := rfl
@[simp] theorem complete_resets : (complete s).resets = s.resets := rfl

/-! ### The error record (60 R310) -/

@[simp] theorem raiseError_params (f : Failure) (w : Word) : (raiseError f w s).params = s.params := rfl
@[simp] theorem raiseError_doneIe (f : Failure) (w : Word) : (raiseError f w s).doneIe = s.doneIe := rfl
@[simp] theorem raiseError_errIe (f : Failure) (w : Word) : (raiseError f w s).errIe = s.errIe := rfl
@[simp] theorem raiseError_done (f : Failure) (w : Word) : (raiseError f w s).done = s.done := rfl
@[simp] theorem raiseError_error (f : Failure) (w : Word) : (raiseError f w s).error = some f.cause := rfl
@[simp] theorem raiseError_errInfo (f : Failure) (w : Word) : (raiseError f w s).errInfo = w := rfl
@[simp] theorem raiseError_errAddr (f : Failure) (w : Word) : (raiseError f w s).errAddr = f.addr := rfl
@[simp] theorem raiseError_conv (f : Failure) (w : Word) : (raiseError f w s).conv = s.conv := rfl
@[simp] theorem raiseError_mix (f : Failure) (w : Word) : (raiseError f w s).mix = s.mix := rfl
@[simp] theorem raiseError_fir (f : Failure) (w : Word) : (raiseError f w s).fir = s.fir := rfl
@[simp] theorem raiseError_dem (f : Failure) (w : Word) : (raiseError f w s).dem = s.dem := rfl
@[simp] theorem raiseError_pending (f : Failure) (w : Word) : (raiseError f w s).pending = none := rfl
@[simp] theorem raiseError_dmem (f : Failure) (w : Word) : (raiseError f w s).dmem = s.dmem := rfl
@[simp] theorem raiseError_host (f : Failure) (w : Word) : (raiseError f w s).host = s.host := rfl
@[simp] theorem raiseError_reply (f : Failure) (w : Word) : (raiseError f w s).reply = s.reply := rfl
@[simp] theorem raiseError_raced (f : Failure) (w : Word) : (raiseError f w s).raced = [] := rfl
@[simp] theorem raiseError_fresh (f : Failure) (w : Word) : (raiseError f w s).fresh = s.fresh := rfl
@[simp] theorem raiseError_resets (f : Failure) (w : Word) : (raiseError f w s).resets = s.resets := rfl

/-! ### The return from an error (60 R315) -/

@[simp] theorem clearError_params : (clearError s).params = s.params := rfl
@[simp] theorem clearError_doneIe : (clearError s).doneIe = s.doneIe := rfl
@[simp] theorem clearError_errIe : (clearError s).errIe = s.errIe := rfl
@[simp] theorem clearError_done : (clearError s).done = s.done := rfl
@[simp] theorem clearError_error : (clearError s).error = none := rfl
@[simp] theorem clearError_errInfo : (clearError s).errInfo = s.errInfo := rfl
@[simp] theorem clearError_errAddr : (clearError s).errAddr = s.errAddr := rfl
@[simp] theorem clearError_conv : (clearError s).conv = s.conv := rfl
@[simp] theorem clearError_mix : (clearError s).mix = s.mix := rfl
@[simp] theorem clearError_fir : (clearError s).fir = s.fir := rfl
@[simp] theorem clearError_dem : (clearError s).dem = s.dem := rfl
@[simp] theorem clearError_pending : (clearError s).pending = s.pending := rfl
@[simp] theorem clearError_dmem : (clearError s).dmem = s.dmem := rfl
@[simp] theorem clearError_host : (clearError s).host = s.host := rfl
@[simp] theorem clearError_reply : (clearError s).reply = s.reply := rfl
@[simp] theorem clearError_raced : (clearError s).raced = s.raced := rfl
@[simp] theorem clearError_fresh : (clearError s).fresh = s.fresh := rfl
@[simp] theorem clearError_resets : (clearError s).resets = s.resets := rfl

/-! ### Element stores (40 R166) -/

@[simp] theorem storeAll_params (sts : List Store) : (storeAll sts s).params = s.params := rfl
@[simp] theorem storeAll_doneIe (sts : List Store) : (storeAll sts s).doneIe = s.doneIe := rfl
@[simp] theorem storeAll_errIe (sts : List Store) : (storeAll sts s).errIe = s.errIe := rfl
@[simp] theorem storeAll_done (sts : List Store) : (storeAll sts s).done = s.done := rfl
@[simp] theorem storeAll_error (sts : List Store) : (storeAll sts s).error = s.error := rfl
@[simp] theorem storeAll_errInfo (sts : List Store) : (storeAll sts s).errInfo = s.errInfo := rfl
@[simp] theorem storeAll_errAddr (sts : List Store) : (storeAll sts s).errAddr = s.errAddr := rfl
@[simp] theorem storeAll_conv (sts : List Store) : (storeAll sts s).conv = s.conv := rfl
@[simp] theorem storeAll_mix (sts : List Store) : (storeAll sts s).mix = s.mix := rfl
@[simp] theorem storeAll_fir (sts : List Store) : (storeAll sts s).fir = s.fir := rfl
@[simp] theorem storeAll_dem (sts : List Store) : (storeAll sts s).dem = s.dem := rfl
@[simp] theorem storeAll_pending (sts : List Store) : (storeAll sts s).pending = s.pending := rfl
@[simp] theorem storeAll_dmem (sts : List Store) : (storeAll sts s).dmem = writeStores s s.dmem 0 sts := rfl
@[simp] theorem storeAll_host (sts : List Store) : (storeAll sts s).host = s.host := rfl
@[simp] theorem storeAll_reply (sts : List Store) : (storeAll sts s).reply = s.reply := rfl
@[simp] theorem storeAll_raced (sts : List Store) : (storeAll sts s).raced = s.raced := rfl
@[simp] theorem storeAll_fresh (sts : List Store) : (storeAll sts s).fresh = freshAfter s sts.length := rfl
@[simp] theorem storeAll_resets (sts : List Store) : (storeAll sts s).resets = s.resets := rfl

/-! ### The history cleared (44 R285) -/

@[simp] theorem clearHistory_params : (clearHistory s).params = s.params := rfl
@[simp] theorem clearHistory_doneIe : (clearHistory s).doneIe = s.doneIe := rfl
@[simp] theorem clearHistory_errIe : (clearHistory s).errIe = s.errIe := rfl
@[simp] theorem clearHistory_done : (clearHistory s).done = s.done := rfl
@[simp] theorem clearHistory_error : (clearHistory s).error = s.error := rfl
@[simp] theorem clearHistory_errInfo : (clearHistory s).errInfo = s.errInfo := rfl
@[simp] theorem clearHistory_errAddr : (clearHistory s).errAddr = s.errAddr := rfl
@[simp] theorem clearHistory_conv : (clearHistory s).conv = s.conv := rfl
@[simp] theorem clearHistory_mix : (clearHistory s).mix = s.mix := rfl
@[simp] theorem clearHistory_fir : (clearHistory s).fir = s.fir := rfl
@[simp] theorem clearHistory_dem : (clearHistory s).dem = { s.dem with hre := 0#32, him := 0#32 } := rfl
@[simp] theorem clearHistory_pending : (clearHistory s).pending = s.pending := rfl
@[simp] theorem clearHistory_dmem : (clearHistory s).dmem = s.dmem := rfl
@[simp] theorem clearHistory_host : (clearHistory s).host = s.host := rfl
@[simp] theorem clearHistory_reply : (clearHistory s).reply = s.reply := rfl
@[simp] theorem clearHistory_raced : (clearHistory s).raced = s.raced := rfl
@[simp] theorem clearHistory_fresh : (clearHistory s).fresh = s.fresh := rfl
@[simp] theorem clearHistory_resets : (clearHistory s).resets = s.resets := rfl

/-! ### The remainder cleared (43 R251) -/

@[simp] theorem clearRemainder_params : (clearRemainder s).params = s.params := rfl
@[simp] theorem clearRemainder_doneIe : (clearRemainder s).doneIe = s.doneIe := rfl
@[simp] theorem clearRemainder_errIe : (clearRemainder s).errIe = s.errIe := rfl
@[simp] theorem clearRemainder_done : (clearRemainder s).done = s.done := rfl
@[simp] theorem clearRemainder_error : (clearRemainder s).error = s.error := rfl
@[simp] theorem clearRemainder_errInfo : (clearRemainder s).errInfo = s.errInfo := rfl
@[simp] theorem clearRemainder_errAddr : (clearRemainder s).errAddr = s.errAddr := rfl
@[simp] theorem clearRemainder_conv : (clearRemainder s).conv = s.conv := rfl
@[simp] theorem clearRemainder_mix : (clearRemainder s).mix = s.mix := rfl
@[simp] theorem clearRemainder_fir :
    (clearRemainder s).fir = { s.fir with
      remRe := entriesFill s.fir.remRe (s.params.firMaxOrder - 1) (fun _ => .written 0#32)
      remIm := entriesFill s.fir.remIm (s.params.firMaxOrder - 1) (fun _ => .written 0#32) } := rfl
@[simp] theorem clearRemainder_dem : (clearRemainder s).dem = s.dem := rfl
@[simp] theorem clearRemainder_pending : (clearRemainder s).pending = s.pending := rfl
@[simp] theorem clearRemainder_dmem : (clearRemainder s).dmem = s.dmem := rfl
@[simp] theorem clearRemainder_host : (clearRemainder s).host = s.host := rfl
@[simp] theorem clearRemainder_reply : (clearRemainder s).reply = s.reply := rfl
@[simp] theorem clearRemainder_raced : (clearRemainder s).raced = s.raced := rfl
@[simp] theorem clearRemainder_fresh : (clearRemainder s).fresh = s.fresh := rfl
@[simp] theorem clearRemainder_resets : (clearRemainder s).resets = s.resets := rfl

/-! ### The mixer LUT generated (42 R213) -/

@[simp] theorem generateLut_params : (generateLut s).params = s.params := rfl
@[simp] theorem generateLut_doneIe : (generateLut s).doneIe = s.doneIe := rfl
@[simp] theorem generateLut_errIe : (generateLut s).errIe = s.errIe := rfl
@[simp] theorem generateLut_done : (generateLut s).done = s.done := rfl
@[simp] theorem generateLut_error : (generateLut s).error = s.error := rfl
@[simp] theorem generateLut_errInfo : (generateLut s).errInfo = s.errInfo := rfl
@[simp] theorem generateLut_errAddr : (generateLut s).errAddr = s.errAddr := rfl
@[simp] theorem generateLut_conv : (generateLut s).conv = s.conv := rfl
@[simp] theorem generateLut_mix :
    (generateLut s).mix = { s.mix with
      lutRe := entriesFill s.mix.lutRe (256 * s.mix.coslen.toNat) (fun k => .written (lutgenAt s.mix k).1)
      lutIm := entriesFill s.mix.lutIm (256 * s.mix.coslen.toNat) (fun k => .written (lutgenAt s.mix k).2)
      lutValid := true } := rfl
@[simp] theorem generateLut_fir : (generateLut s).fir = s.fir := rfl
@[simp] theorem generateLut_dem : (generateLut s).dem = s.dem := rfl
@[simp] theorem generateLut_pending : (generateLut s).pending = s.pending := rfl
@[simp] theorem generateLut_dmem : (generateLut s).dmem = s.dmem := rfl
@[simp] theorem generateLut_host : (generateLut s).host = s.host := rfl
@[simp] theorem generateLut_reply : (generateLut s).reply = s.reply := rfl
@[simp] theorem generateLut_raced : (generateLut s).raced = s.raced := rfl
@[simp] theorem generateLut_fresh : (generateLut s).fresh = s.fresh := rfl
@[simp] theorem generateLut_resets : (generateLut s).resets = s.resets := rfl

/-! ### The phase advanced (42 R216) -/

@[simp] theorem advancePhase_params (n : Nat) : (advancePhase n s).params = s.params := rfl
@[simp] theorem advancePhase_doneIe (n : Nat) : (advancePhase n s).doneIe = s.doneIe := rfl
@[simp] theorem advancePhase_errIe (n : Nat) : (advancePhase n s).errIe = s.errIe := rfl
@[simp] theorem advancePhase_done (n : Nat) : (advancePhase n s).done = s.done := rfl
@[simp] theorem advancePhase_error (n : Nat) : (advancePhase n s).error = s.error := rfl
@[simp] theorem advancePhase_errInfo (n : Nat) : (advancePhase n s).errInfo = s.errInfo := rfl
@[simp] theorem advancePhase_errAddr (n : Nat) : (advancePhase n s).errAddr = s.errAddr := rfl
@[simp] theorem advancePhase_conv (n : Nat) : (advancePhase n s).conv = s.conv := rfl
@[simp] theorem advancePhase_mix (n : Nat) :
    (advancePhase n s).mix = { s.mix with base := BitVec.ofNat 24 ((s.mix.base.toNat + n) % s.mix.coslen.toNat) } := rfl
@[simp] theorem advancePhase_fir (n : Nat) : (advancePhase n s).fir = s.fir := rfl
@[simp] theorem advancePhase_dem (n : Nat) : (advancePhase n s).dem = s.dem := rfl
@[simp] theorem advancePhase_pending (n : Nat) : (advancePhase n s).pending = s.pending := rfl
@[simp] theorem advancePhase_dmem (n : Nat) : (advancePhase n s).dmem = s.dmem := rfl
@[simp] theorem advancePhase_host (n : Nat) : (advancePhase n s).host = s.host := rfl
@[simp] theorem advancePhase_reply (n : Nat) : (advancePhase n s).reply = s.reply := rfl
@[simp] theorem advancePhase_raced (n : Nat) : (advancePhase n s).raced = s.raced := rfl
@[simp] theorem advancePhase_fresh (n : Nat) : (advancePhase n s).fresh = s.fresh := rfl
@[simp] theorem advancePhase_resets (n : Nat) : (advancePhase n s).resets = s.resets := rfl

/-! ### The phase reset (42 R218) -/

@[simp] theorem resetPhase_params : (resetPhase s).params = s.params := rfl
@[simp] theorem resetPhase_doneIe : (resetPhase s).doneIe = s.doneIe := rfl
@[simp] theorem resetPhase_errIe : (resetPhase s).errIe = s.errIe := rfl
@[simp] theorem resetPhase_done : (resetPhase s).done = s.done := rfl
@[simp] theorem resetPhase_error : (resetPhase s).error = s.error := rfl
@[simp] theorem resetPhase_errInfo : (resetPhase s).errInfo = s.errInfo := rfl
@[simp] theorem resetPhase_errAddr : (resetPhase s).errAddr = s.errAddr := rfl
@[simp] theorem resetPhase_conv : (resetPhase s).conv = s.conv := rfl
@[simp] theorem resetPhase_mix : (resetPhase s).mix = { s.mix with base := 0#24 } := rfl
@[simp] theorem resetPhase_fir : (resetPhase s).fir = s.fir := rfl
@[simp] theorem resetPhase_dem : (resetPhase s).dem = s.dem := rfl
@[simp] theorem resetPhase_pending : (resetPhase s).pending = s.pending := rfl
@[simp] theorem resetPhase_dmem : (resetPhase s).dmem = s.dmem := rfl
@[simp] theorem resetPhase_host : (resetPhase s).host = s.host := rfl
@[simp] theorem resetPhase_reply : (resetPhase s).reply = s.reply := rfl
@[simp] theorem resetPhase_raced : (resetPhase s).raced = s.raced := rfl
@[simp] theorem resetPhase_fresh : (resetPhase s).fresh = s.fresh := rfl
@[simp] theorem resetPhase_resets : (resetPhase s).resets = s.resets := rfl

/-! ### The complex remainder refresh (43 R249) -/

@[simp] theorem refreshComplex_params : (refreshComplex s).params = s.params := rfl
@[simp] theorem refreshComplex_doneIe : (refreshComplex s).doneIe = s.doneIe := rfl
@[simp] theorem refreshComplex_errIe : (refreshComplex s).errIe = s.errIe := rfl
@[simp] theorem refreshComplex_done : (refreshComplex s).done = s.done := rfl
@[simp] theorem refreshComplex_error : (refreshComplex s).error = s.error := rfl
@[simp] theorem refreshComplex_errInfo : (refreshComplex s).errInfo = s.errInfo := rfl
@[simp] theorem refreshComplex_errAddr : (refreshComplex s).errAddr = s.errAddr := rfl
@[simp] theorem refreshComplex_conv : (refreshComplex s).conv = s.conv := rfl
@[simp] theorem refreshComplex_mix : (refreshComplex s).mix = s.mix := rfl
@[simp] theorem refreshComplex_fir :
    (refreshComplex s).fir = { s.fir with remRe := refreshedRe s, remIm := refreshedIm s } := rfl
@[simp] theorem refreshComplex_dem : (refreshComplex s).dem = s.dem := rfl
@[simp] theorem refreshComplex_pending : (refreshComplex s).pending = s.pending := rfl
@[simp] theorem refreshComplex_dmem : (refreshComplex s).dmem = s.dmem := rfl
@[simp] theorem refreshComplex_host : (refreshComplex s).host = s.host := rfl
@[simp] theorem refreshComplex_reply : (refreshComplex s).reply = s.reply := rfl
@[simp] theorem refreshComplex_raced : (refreshComplex s).raced = s.raced := rfl
@[simp] theorem refreshComplex_fresh : (refreshComplex s).fresh = freshAfter s (2 * (s.fir.order.toNat - 1)) := rfl
@[simp] theorem refreshComplex_resets : (refreshComplex s).resets = s.resets := rfl

/-! ### The real remainder refresh (43 R250) -/

@[simp] theorem refreshReal_params : (refreshReal s).params = s.params := rfl
@[simp] theorem refreshReal_doneIe : (refreshReal s).doneIe = s.doneIe := rfl
@[simp] theorem refreshReal_errIe : (refreshReal s).errIe = s.errIe := rfl
@[simp] theorem refreshReal_done : (refreshReal s).done = s.done := rfl
@[simp] theorem refreshReal_error : (refreshReal s).error = s.error := rfl
@[simp] theorem refreshReal_errInfo : (refreshReal s).errInfo = s.errInfo := rfl
@[simp] theorem refreshReal_errAddr : (refreshReal s).errAddr = s.errAddr := rfl
@[simp] theorem refreshReal_conv : (refreshReal s).conv = s.conv := rfl
@[simp] theorem refreshReal_mix : (refreshReal s).mix = s.mix := rfl
@[simp] theorem refreshReal_fir : (refreshReal s).fir = { s.fir with remRe := refreshedRe s } := rfl
@[simp] theorem refreshReal_dem : (refreshReal s).dem = s.dem := rfl
@[simp] theorem refreshReal_pending : (refreshReal s).pending = s.pending := rfl
@[simp] theorem refreshReal_dmem : (refreshReal s).dmem = s.dmem := rfl
@[simp] theorem refreshReal_host : (refreshReal s).host = s.host := rfl
@[simp] theorem refreshReal_reply : (refreshReal s).reply = s.reply := rfl
@[simp] theorem refreshReal_raced : (refreshReal s).raced = s.raced := rfl
@[simp] theorem refreshReal_fresh : (refreshReal s).fresh = freshAfter s (s.fir.order.toNat - 1) := rfl
@[simp] theorem refreshReal_resets : (refreshReal s).resets = s.resets := rfl

/-! ### The history saved (44 R284) -/

@[simp] theorem saveHistory_params : (saveHistory s).params = s.params := rfl
@[simp] theorem saveHistory_doneIe : (saveHistory s).doneIe = s.doneIe := rfl
@[simp] theorem saveHistory_errIe : (saveHistory s).errIe = s.errIe := rfl
@[simp] theorem saveHistory_done : (saveHistory s).done = s.done := rfl
@[simp] theorem saveHistory_error : (saveHistory s).error = s.error := rfl
@[simp] theorem saveHistory_errInfo : (saveHistory s).errInfo = s.errInfo := rfl
@[simp] theorem saveHistory_errAddr : (saveHistory s).errAddr = s.errAddr := rfl
@[simp] theorem saveHistory_conv : (saveHistory s).conv = s.conv := rfl
@[simp] theorem saveHistory_mix : (saveHistory s).mix = s.mix := rfl
@[simp] theorem saveHistory_fir : (saveHistory s).fir = s.fir := rfl
@[simp] theorem saveHistory_dem :
    (saveHistory s).dem = { s.dem with
      hre := racedWord s [floatSpan s.dem.inRe (saveIndex s) (saveIndex s)] 0 (demInRe s (saveIndex s))
      him := racedWord s [floatSpan s.dem.inIm (saveIndex s) (saveIndex s)] 1 (demInIm s (saveIndex s)) } := rfl
@[simp] theorem saveHistory_pending : (saveHistory s).pending = s.pending := rfl
@[simp] theorem saveHistory_dmem : (saveHistory s).dmem = s.dmem := rfl
@[simp] theorem saveHistory_host : (saveHistory s).host = s.host := rfl
@[simp] theorem saveHistory_reply : (saveHistory s).reply = s.reply := rfl
@[simp] theorem saveHistory_raced : (saveHistory s).raced = s.raced := rfl
@[simp] theorem saveHistory_fresh : (saveHistory s).fresh = freshAfter s 2 := rfl
@[simp] theorem saveHistory_resets : (saveHistory s).resets = s.resets := rfl

/-! ### A CTRL write (10 R38) -/

@[simp] theorem writeCtrl_params (v : Word) : (writeCtrl v s).params = s.params := rfl
@[simp] theorem writeCtrl_doneIe (v : Word) : (writeCtrl v s).doneIe = v.getLsbD 0 := rfl
@[simp] theorem writeCtrl_errIe (v : Word) : (writeCtrl v s).errIe = v.getLsbD 1 := rfl
@[simp] theorem writeCtrl_done (v : Word) : (writeCtrl v s).done = s.done := rfl
@[simp] theorem writeCtrl_error (v : Word) : (writeCtrl v s).error = s.error := rfl
@[simp] theorem writeCtrl_errInfo (v : Word) : (writeCtrl v s).errInfo = s.errInfo := rfl
@[simp] theorem writeCtrl_errAddr (v : Word) : (writeCtrl v s).errAddr = s.errAddr := rfl
@[simp] theorem writeCtrl_conv (v : Word) : (writeCtrl v s).conv = s.conv := rfl
@[simp] theorem writeCtrl_mix (v : Word) : (writeCtrl v s).mix = s.mix := rfl
@[simp] theorem writeCtrl_fir (v : Word) : (writeCtrl v s).fir = s.fir := rfl
@[simp] theorem writeCtrl_dem (v : Word) : (writeCtrl v s).dem = s.dem := rfl
@[simp] theorem writeCtrl_pending (v : Word) : (writeCtrl v s).pending = s.pending := rfl
@[simp] theorem writeCtrl_dmem (v : Word) : (writeCtrl v s).dmem = s.dmem := rfl
@[simp] theorem writeCtrl_host (v : Word) : (writeCtrl v s).host = s.host := rfl
@[simp] theorem writeCtrl_reply (v : Word) : (writeCtrl v s).reply = s.reply := rfl
@[simp] theorem writeCtrl_raced (v : Word) : (writeCtrl v s).raced = s.raced := rfl
@[simp] theorem writeCtrl_fresh (v : Word) : (writeCtrl v s).fresh = s.fresh := rfl
@[simp] theorem writeCtrl_resets (v : Word) : (writeCtrl v s).resets = s.resets := rfl

end Sys2Proof.Machine
end

