-- ==== Sys2Proof/Laws/Plan.lean ====
section
/-! SUPPORT. What the command framework can do (spec/40_command_common.md R160 to R168), said once: the three ways a
command ends, when its check phase passes, and what writing its elements changes. -/

namespace Sys2Proof.Machine

/-! ### The three ways a command ends -/

theorem runPlan_noop {w : Word} {p : Plan} {e : State → State} {s : State} (h : p.noop = true) :
    runPlan w p e s = .next (complete s) := by simp [runPlan, h]

theorem runPlan_raises {w : Word} {p : Plan} {e : State → State} {s : State} {f : Failure} (h : p.noop = false)
    (hf : planFailure s.params.dmemSize p = some f) : runPlan w p e s = .next (raiseError f w s) := by
  simp [runPlan, h, hf]

theorem runPlan_executes {w : Word} {p : Plan} {e : State → State} {s : State} (h : p.noop = false)
    (hf : planFailure s.params.dmemSize p = none) : runPlan w p e s = .next (complete (e s)) := by
  simp [runPlan, h, hf]

/-- A command whose plan tests nothing executes. -/
theorem runPlan_testless {w : Word} {e : State → State} {s : State} : runPlan w {} e s = .next (complete (e s)) := rfl

/-- Everything a command can do: complete as a no-op, raise an error, or execute. -/
theorem runPlan_cases {w : Word} {p : Plan} {e : State → State} {s t : State} (h : runPlan w p e s = .next t) :
    (p.noop = true ∧ t = complete s) ∨
    (p.noop = false ∧ ∃ f, planFailure s.params.dmemSize p = some f ∧ t = raiseError f w s) ∨
    (p.noop = false ∧ planFailure s.params.dmemSize p = none ∧ t = complete (e s)) := by
  cases hn : p.noop with
  | true =>
    rw [runPlan_noop hn] at h
    exact .inl ⟨rfl, (Host.Outcome.next.inj h).symm⟩
  | false =>
    cases hf : planFailure s.params.dmemSize p with
    | some f =>
      rw [runPlan_raises hn hf] at h
      exact .inr (.inl ⟨rfl, f, rfl, (Host.Outcome.next.inj h).symm⟩)
    | none =>
      rw [runPlan_executes hn hf] at h
      exact .inr (.inr ⟨rfl, rfl, (Host.Outcome.next.inj h).symm⟩)

/-! ### The check phase -/

theorem bufferFailure_none_iff {size : Nat} {b : Buffer} :
    bufferFailure size b = none ↔ (b.size = 1 ∨ b.base.toNat % 4 = 0) ∧ bufferLast b < size := by
  unfold bufferFailure
  split_ifs <;> simp_all; omega

theorem testFailure_none_iff {ts : List (Bool × Cause)} : testFailure ts = none ↔ ∀ t ∈ ts, t.1 = false := by
  induction ts with
  | nil => simp [testFailure]
  | cons t rest ih =>
    obtain ⟨b, c⟩ := t
    cases b <;> simp [testFailure, ih]

theorem overlapFailure_none_of_inputs {before bs : List Buffer} (h : ∀ b ∈ bs, b.output = false) :
    overlapFailure before bs = none := by
  induction bs generalizing before with
  | nil => rfl
  | cons b rest ih =>
    have hb : b.output = false := h b (by simp)
    simp only [overlapFailure, hb, Bool.false_and, Bool.false_eq_true, if_false]
    exact ih fun c hc => h c (by simp [hc])

/-- The check phase passes when every configuration test, every buffer test and, for a block command, the overlap test
passes. -/
theorem planFailure_none_iff {size : Nat} {p : Plan} :
    planFailure size p = none ↔
      (∀ t ∈ p.tests, t.1 = false) ∧ (∀ b ∈ p.buffers, bufferFailure size b = none) ∧
      (p.block = true → overlapFailure [] p.buffers = none) := by
  rw [← testFailure_none_iff, ← List.findSome?_eq_none_iff]
  unfold planFailure
  cases testFailure p.tests with
  | some f => simp
  | none =>
    cases p.buffers.findSome? (bufferFailure size) with
    | some f => simp
    | none => cases p.block <;> simp

/-! ### Races -/

/-- Without a race a result is the value computed. -/
@[simp] theorem racedWord_of_noRace {s : State} (h : s.raced = []) (sps : List Span) (n : Nat) (v : Word) :
    racedWord s sps n v = v := by simp [racedWord, h]

@[simp] theorem freshAfter_of_noRace {s : State} (h : s.raced = []) (n : Nat) : freshAfter s n = s.fresh := by
  simp [freshAfter, h]

/-! ### Writing the elements -/

/-- A byte outside every element keeps its value. -/
theorem memRead8_writeStores_outside (s : State) {m : Memory} {n : Nat} {sts : List Store} {a : Nat}
    (h : ∀ st ∈ sts, ¬(st.addr ≤ a ∧ a < st.addr + 4)) : memRead8 (writeStores s m n sts) a = memRead8 m a := by
  induction sts generalizing m n with
  | nil => rfl
  | cons st rest ih =>
    rw [writeStores, ih fun c hc => h c (by simp [hc]), memRead8_write32_outside _ _ (h st (by simp))]

/-- An element that no later element overlaps holds its value afterwards. -/
theorem memRead32_writeStores (s : State) {m : Memory} {n : Nat} {before rest : List Store} {st : Store}
    (h : ∀ c ∈ rest, c.addr + 4 ≤ st.addr ∨ st.addr + 4 ≤ c.addr) :
    memRead32 (writeStores s m n (before ++ st :: rest)) st.addr =
      racedWord s ({ addr := st.addr, len := 4 } :: st.reads) (n + before.length) st.value := by
  induction before generalizing m n with
  | nil =>
    rw [List.nil_append, writeStores, memRead32_congr (fun b hb hb' =>
      memRead8_writeStores_outside s fun c hc => by have := h c hc; omega), memRead32_write32_same]
    rfl
  | cons c before ih =>
    rw [List.cons_append, writeStores, ih, List.length_cons]
    congr 1
    omega

theorem writeStores_wf (s : State) {m : Memory} {n : Nat} {sts : List Store} (h : m.wf) :
    (writeStores s m n sts).wf := by
  induction sts generalizing m n with
  | nil => exact h
  | cons st rest ih => exact ih (memWrite32_wf _ _ h)

theorem writeStores_keysBelow (s : State) {m : Memory} {n bound : Nat} {sts : List Store} (h : KeysBelow bound m)
    (hs : ∀ st ∈ sts, st.addr + 3 < bound) : KeysBelow bound (writeStores s m n sts) := by
  induction sts generalizing m n with
  | nil => exact h
  | cons st rest ih =>
    exact ih (memWrite32_keysBelow _ h (hs st (by simp))) fun c hc => hs c (by simp [hc])

theorem abandonStores_wf {m : Memory} {n : Nat} {sts : List Store} (h : m.wf) : (abandonStores m n sts).wf := by
  induction sts generalizing m n with
  | nil => exact h
  | cons st rest ih => exact ih (memWrite32_wf _ _ h)

theorem abandonStores_keysBelow {m : Memory} {n bound : Nat} {sts : List Store} (h : KeysBelow bound m)
    (hs : ∀ st ∈ sts, st.addr + 3 < bound) : KeysBelow bound (abandonStores m n sts) := by
  induction sts generalizing m n with
  | nil => exact h
  | cons st rest ih =>
    exact ih (memWrite32_keysBelow _ h (hs st (by simp))) fun c hc => hs c (by simp [hc])

/-! ### The error record of the index ports -/

/-- REG_RANGE is recorded only when no error is (10 R70, 60 R311). -/
theorem recordRegRange_of_error {off index : Word} {s : State} {c : Cause} (h : s.error = some c) :
    recordRegRange off index s = s := by simp [recordRegRange, h]

theorem recordRegRange_of_noError {off index : Word} {s : State} (h : s.error = none) :
    recordRegRange off index s = { s with error := some .regRange, errInfo := off, errAddr := index } := by
  simp [recordRegRange, h]

end Sys2Proof.Machine
end

