-- ==== Sys2Proof/Laws/Step.lean ====
section
/-! SUPPORT. What a step, a turn of the host and the execution of a command can do, said once (spec/10_state.md R69,
spec/30_encoding.md R139, spec/40_command_common.md R160), and which bytes a host access races (spec/20_memory.md
R112). -/

namespace Sys2Proof.Machine

/-! ### The host's turn -/

/-- Taking a move off the host's queue changes the queue alone. -/
theorem hostTurn_eq_some {s s' : State} {m : HostMove} (h : hostTurn s = some (m, s')) :
    ∃ t rest, s.host = t :: rest ∧ m = turnMove t ∧ s' = { s with host := turnLeft s t ++ rest } ∧
      (s.pending.isSome = true → turnEarly t = true ∧ neverWaits (turnMove t) = true) := by
  unfold hostTurn at h
  split at h
  · exact nomatch h
  · rename_i t rest hs
    split at h
    · exact nomatch h
    · rename_i hc
      cases h
      refine ⟨t, rest, hs, rfl, rfl, fun hp => ?_⟩
      simpa [hp] using hc

/-- The host does not move: nothing is queued, or a command is pending and the head of the queue stands back. -/
theorem hostTurn_eq_none {s : State} (h : hostTurn s = none) :
    s.host = [] ∨ s.pending.isSome = true ∧
      ∀ t ∈ s.host.head?, turnEarly t = false ∨ neverWaits (turnMove t) = false := by
  unfold hostTurn at h
  split at h
  · exact .inl (by assumption)
  · rename_i t rest hs
    split at h
    · rename_i hc
      simp only [Bool.and_eq_true, Bool.not_eq_true', Bool.and_eq_false_iff] at hc
      exact .inr ⟨hc.1, fun u hu => by rw [hs] at hu; cases hu; exact hc.2⟩
    · exact nomatch h

/-! ### A step -/

/-- Everything a step that answers a next state can be: a host move, the execution of a legal command, the error of an
illegal one, or nothing. -/
theorem step_cases {s t : State} (h : step s = .next t) :
    (∃ m s', hostTurn s = some (m, s') ∧ hostMove m s' = .next t) ∨
    (hostTurn s = none ∧ ∃ w i, s.pending = some w ∧ decode w = .ok i ∧ exec i s = .next t) ∨
    (hostTurn s = none ∧ ∃ w e, s.pending = some w ∧ decode w = .error e ∧ t = illegalCommand w s) ∨
    (hostTurn s = none ∧ s.pending = none ∧ t = s) := by
  unfold step at h
  split at h
  · exact .inl ⟨_, _, by assumption, h⟩
  · rename_i hn
    split at h
    · rename_i w hp
      unfold coreStep at h
      split at h
      · exact .inr (.inl ⟨hn, w, _, hp, by assumption, h⟩)
      · exact .inr (.inr (.inl ⟨hn, w, _, hp, by assumption, (Host.Outcome.next.inj h).symm⟩))
    · exact .inr (.inr (.inr ⟨hn, by assumption, (Host.Outcome.next.inj h).symm⟩))

/-! ### A command -/

/-- Every command runs its plan. -/
theorem exec_runs_plan (i : Instr) (s : State) : ∃ effect, exec i s = runPlan (encode i) (planOf i s) effect s := by
  cases i <;> first | exact ⟨_, rfl⟩ | exact ⟨fun t => clearHistory (clearRemainder t), rfl⟩

/-- A command that has output elements executes by storing them. -/
theorem exec_stores {i : Instr} {s : State} (h : (planOf i s).stores ≠ []) :
    exec i s = runPlan (encode i) (planOf i s) (storeAll (planOf i s).stores) s := by
  cases i <;> first | rfl | exact absurd rfl h

/-- Everything a command can do: complete as a no-op, raise the error its plan finds, or execute and complete. -/
theorem exec_cases {i : Instr} {s t : State} (h : exec i s = .next t) :
    ((planOf i s).noop = true ∧ t = complete s) ∨
    ((planOf i s).noop = false ∧ ∃ f, planFailure s.params.dmemSize (planOf i s) = some f ∧
      t = raiseError f (encode i) s) ∨
    ((planOf i s).noop = false ∧ planFailure s.params.dmemSize (planOf i s) = none ∧ ∃ u, t = complete u) := by
  obtain ⟨e, he⟩ := exec_runs_plan i s
  rcases runPlan_cases (he ▸ h) with h | h | ⟨hn, hf, ht⟩
  · exact .inl h
  · exact .inr (.inl h)
  · exact .inr (.inr ⟨hn, hf, e s, ht⟩)

/-! ### The bytes a host access races -/

theorem mem_racedAfter {races : Nat → Bool} {bytes : List Nat} {s : State} {a : Nat} :
    a ∈ racedAfter races bytes s ↔ a ∈ s.raced ∨ (a ∈ bytes ∧ races a = true) := by
  simp [racedAfter, or_comm]

theorem mem_wordBytes {addr a : Nat} : a ∈ wordBytes addr ↔ addr ≤ a ∧ a < addr + 4 := by
  simp only [wordBytes, List.mem_cons, List.not_mem_nil, or_false]
  omega

/-- Without a pending command nothing is raced. -/
theorem writeRaces_of_noCommand {s : State} (h : s.pending = none) (a : Nat) : writeRaces s a = false := by
  simp [writeRaces, pendingPlan, h, planReads, planWrites]

theorem readRaces_of_noCommand {s : State} (h : s.pending = none) (a : Nat) : readRaces s a = false := by
  simp [readRaces, pendingPlan, h, planWrites]

end Sys2Proof.Machine
end

