-- ==== Sys2Proof/Laws/Claims.lean ====
section
/-! SUPPORT. The vocabulary of the statements and the plans of the meanings name the same things: the buffers a rule
lists are those of the plan, a command executes exactly when the tests of its plan pass (spec/40_command_common.md R161
to R167), its output elements and the bytes it reads are the plan's, and so are the races (spec/20_memory.md R112). -/

namespace Sys2Proof.Claims

open Sys2Proof.Machine

/-! ### One buffer, and two -/

theorem bufferPasses_iff {size : Nat} {b : Buffer} (h : 1 ≤ b.size) :
    BufferPasses size b ↔ bufferFailure size b = none := by
  rw [bufferFailure_none_iff]
  unfold BufferPasses extentEnd bufferLast
  omega

theorem bufferFails_iff {size : Nat} {b : Buffer} {c : Cause} (h : 1 ≤ b.size) :
    BufferFails size b c ↔ bufferFailure size b = some { cause := c, addr := b.base } := by
  unfold BufferFails BaseAligned extentEnd bufferFailure bufferLast
  split_ifs <;> simp <;> first | omega | skip
  all_goals (constructor <;> intro hc <;> first | (obtain ⟨_, rfl⟩ | ⟨_, _, rfl⟩ := hc <;> first | rfl | omega) | skip)
  all_goals (subst hc; first | (left; exact ⟨by omega, rfl⟩) | (right; exact ⟨by omega, by omega, rfl⟩))

theorem meet_iff {b c : Buffer} (hb : 1 ≤ b.size) (hc : 1 ≤ c.size) : Meet b c ↔ buffersMeet b c = true := by
  unfold Meet extentEnd buffersMeet bufferFirst bufferLast
  rw [Bool.and_eq_true, decide_eq_true_iff, decide_eq_true_iff]
  omega

/-- The overlap test passes when no output extent meets another extent. -/
theorem overlapFailure_none_iff {before bs : List Buffer} (hb : ∀ b ∈ before, 1 ≤ b.size) (h : ∀ b ∈ bs, 1 ≤ b.size) :
    overlapFailure before bs = none ↔
      (∀ b ∈ bs, b.output = true → ∀ x ∈ before, ¬Meet b x) ∧ NoOverlap bs := by
  induction bs generalizing before with
  | nil => simp [overlapFailure]
  | cons b rest ih =>
    have hsize : 1 ≤ b.size := h b (by simp)
    have hrest : ∀ c ∈ rest, 1 ≤ c.size := fun c hc => h c (by simp [hc])
    have hany : (before ++ rest).any (buffersMeet b) = true ↔ ∃ x ∈ before ++ rest, Meet b x := by
      simp only [List.any_eq_true]
      exact exists_congr fun x => and_congr_right fun hx => (meet_iff hsize (by
        rcases List.mem_append.mp hx with hx | hx
        · exact hb x hx
        · exact hrest x hx)).symm
    have hcomm : ∀ c, Meet b c ↔ Meet c b := fun c => by unfold Meet; exact and_comm
    unfold overlapFailure
    split
    · rename_i hc
      simp only [Bool.and_eq_true] at hc
      obtain ⟨x, hx, hm⟩ := hany.mp hc.2
      simp only [reduceCtorEq, false_iff, not_and]
      intro hbefore hpair
      rcases List.mem_append.mp hx with hx | hx
      · exact hbefore b (by simp) hc.1 x hx hm.1 hm.2
      · exact (List.pairwise_cons.mp hpair).1 x hx (by simp [hc.1]) hm
    · rename_i hc
      rw [ih (by
        intro c hcm
        rcases List.mem_append.mp hcm with hcm | hcm
        · exact hb c hcm
        · rw [List.mem_singleton.mp hcm]; exact hsize) hrest]
      have hself : b.output = true → ∀ x ∈ before ++ rest, ¬Meet b x := fun ho x hx hm =>
        hc (by rw [ho, hany.mpr ⟨x, hx, hm⟩]; rfl)
      constructor
      · rintro ⟨hout, hpair⟩
        refine ⟨fun c hcm ho x hx => ?_, List.pairwise_cons.mpr ⟨fun c hcm ho hm => ?_, hpair⟩⟩
        · rcases List.mem_cons.mp hcm with rfl | hcm
          · exact hself ho x (by simp [hx])
          · exact hout c hcm ho x (by simp [hx])
        · rcases Bool.or_eq_true _ _ |>.mp ho with ho | ho
          · exact hself ho c (by simp [hcm]) hm
          · exact hout c hcm ho b (by simp) ((hcomm c).mp hm)
      · rintro ⟨hout, hpair⟩
        obtain ⟨hfirst, hpair⟩ := List.pairwise_cons.mp hpair
        refine ⟨fun c hcm ho x hx hm => ?_, hpair⟩
        rcases List.mem_append.mp hx with hx | hx
        · exact hout c (by simp [hcm]) ho x hx hm
        · rw [List.mem_singleton.mp hx] at hm
          exact hfirst c hcm (by simp [ho]) ((hcomm c).mpr hm)

/-! ### A command's list and its plan -/

/-- Every listed buffer has elements of at least one byte. -/
theorem listed_size {i : Instr} {s : State} : ∀ b ∈ listed i s, 1 ≤ b.size := by
  cases i <;> simp only [listed, refreshIn, interleavedOut, firIn]
  all_goals (repeat' split)
  all_goals simp [-BitVec.reduceOfNat]

/-- The window of output i, up to that of output j, in the model's terms. -/
theorem window_eq_firIn (s : State) (base : Word) (i j : Nat) :
    floatInput base (firstSample (windowBase s.fir i)) (windowBase s.fir j + tapCount s.fir - 1).toNat =
      firIn s base i j := by
  unfold firIn inputStart inputEnd floatInput firstSample windowBase tapCount
  have hi : (i : Int) * s.fir.decim.toNat = ((i * s.fir.decim.toNat : Nat) : Int) := by push_cast; rfl
  have hj : (j : Int) * s.fir.decim.toNat = ((j * s.fir.decim.toNat : Nat) : Int) := by push_cast; rfl
  rw [hi, hj]
  congr 1
  · omega
  · split_ifs <;> omega

theorem refreshInputs_eq (s : State) (bases : List Word) (h : 1 ≤ s.fir.order.toNat) :
    refreshInputs s.fir bases = refreshIn s bases := by
  have hm : ((blockCount s.fir.ooff s.fir.olen : Nat) : Int) * s.fir.decim.toNat =
      ((firCount s * s.fir.decim.toNat : Nat) : Int) := by
    unfold firCount blockCount
    push_cast
    rfl
  have hr : refreshReads s.fir = true ↔ ¬(s.fir.order.toNat = 1 ∨ refreshEnd s = 0) := by
    unfold refreshReads refreshFirst refreshEnd
    rw [decide_eq_true_iff, hm]
    omega
  unfold refreshInputs refreshIn
  by_cases hc : s.fir.order.toNat = 1 ∨ refreshEnd s = 0
  · rw [if_neg (fun hx => hr.mp hx hc), if_pos hc]
  · rw [if_pos (hr.mpr hc), if_neg hc]
    refine List.map_congr_left fun base _ => ?_
    unfold floatInput firstSample refreshFirst
    rw [hm]
    unfold refreshEnd at hc ⊢
    congr 1 <;> omega

theorem interleavedOutputs_eq (re im : Word) (m : Nat) (h : 1 ≤ m) :
    interleavedOutputs re im m = interleavedOut re im m := by
  unfold interleavedOutputs interleavedOut
  by_cases hm : m = 1
  · subst hm; rfl
  · rw [if_pos (by omega), if_neg hm]; rfl

/-- When the buffer tests are reached, the plan's buffers are the listed ones. -/
theorem plan_buffers {i : Instr} {s : State} (h : ReachesBuffers i s) : (planOf i s).buffers = listed i s := by
  cases i with
  | convElem k =>
    simp only [planOf, listed, planConvElem, interleavedBase]
    cases s.conv.ilv <;> simp only [if_true, if_false, Bool.false_eq_true, reduceCtorEq]
    · rfl
    · split_ifs <;> rfl
  | convBlock =>
    simp only [planOf, listed, planConvBlock]
    rw [interleavedOutputs_eq _ _ (blockCount s.conv.ooff s.conv.olen) h]
    cases s.conv.ilv <;> rfl
  | mixElem k =>
    simp only [planOf, listed, planMixElem, interleavedBase]
    cases s.mix.ilv <;> simp only [if_true, if_false, Bool.false_eq_true, reduceCtorEq]
    · rfl
    · split_ifs <;> rfl
  | mixBlock =>
    simp only [planOf, listed, planMixBlock]
    rw [interleavedOutputs_eq _ _ (blockCount s.mix.ooff s.mix.olen) h.1]
    cases s.mix.ilv <;> rfl
  | firRcElem k =>
    simp only [planOf, listed, planFirRcElem, complexElemBuffers, windowInput, window_eq_firIn s _ k k]
    rfl
  | firRrElem k =>
    simp only [planOf, listed, planFirRrElem, windowInput, window_eq_firIn s _ k k]
    rfl
  | firCcElem k =>
    simp only [planOf, listed, planFirCcElem, complexElemBuffers, windowInput, window_eq_firIn s _ k k]
    rfl
  | firRcBlock =>
    simp only [planOf, listed, planFirRcBlock, complexBlockBuffers, hullInput, window_eq_firIn s _ 0 _]
    rfl
  | firRrBlock =>
    simp only [planOf, listed, planFirRrBlock, hullInput, window_eq_firIn s _ 0 _]
    rfl
  | firCcBlock =>
    simp only [planOf, listed, planFirCcBlock, complexBlockBuffers, hullInput, window_eq_firIn s _ 0 _]
    rfl
  | firRefreshC => exact refreshInputs_eq s _ h.1
  | firRefreshR => exact refreshInputs_eq s _ h.1
  | demElem k => rfl
  | demBlock => rfl
  | demSave => rfl
  | nop => rfl
  | resetState => rfl
  | mixGenlut => rfl
  | mixAdvance n => rfl
  | mixRefresh => rfl
  | mixReset => rfl
  | firClear => rfl
  | demReset => rfl

/-- A command reaches its buffer tests when it is no no-op and its configuration tests pass. -/
theorem reachesBuffers_iff {i : Instr} {s : State} :
    ReachesBuffers i s ↔ (planOf i s).noop = false ∧ ∀ t ∈ (planOf i s).tests, t.1 = false := by
  have hd : s.fir.decim = 0#24 ↔ s.fir.decim.toNat = 0 := by
    rw [← BitVec.toNat_inj]
    rfl
  have hm : ∀ o l : BitVec 24, blockCount o l = 0 ↔ l.toNat - o.toNat = 0 := fun _ _ => Iff.rfl
  cases i <;>
    simp [ReachesBuffers, planOf, planNop, planResetState, planConvElem, planConvBlock, planMixElem, planMixBlock,
      planMixGenlut, planMixAdvance, planMixRefresh, planMixReset, planFirRcElem, planFirRrElem, planFirCcElem,
      planFirRcBlock, planFirRrBlock, planFirCcBlock, planFirRefreshC, planFirRefreshR, planFirClear, planDemElem,
      planDemBlock, planDemSave, planDemReset, invalidIndex, hm, convCount, mixCount, firCount, demCount,
      mixTests, firTests, badCoslen, CoslenLegal, FirLegal, hd]
  all_goals first | omega | cases s.mix.lutValid
  · simp only [reduceCtorEq, and_false]
  · simp only [and_true]
    omega

/-- The overlap test is made for the block commands alone. -/
theorem plan_block_iff {i : Instr} {s : State} : (planOf i s).block = true ↔ i ∈ blocks := by
  cases i <;>
    simp [blocks, planOf, planNop, planResetState, planConvElem, planConvBlock, planMixElem, planMixBlock,
      planMixGenlut, planMixAdvance, planMixRefresh, planMixReset, planFirRcElem, planFirRrElem, planFirCcElem,
      planFirRcBlock, planFirRrBlock, planFirCcBlock, planFirRefreshC, planFirRefreshR, planFirClear, planDemElem,
      planDemBlock, planDemSave, planDemReset]

/-- A command executes exactly when it is no no-op and the check phase of its plan passes. -/
theorem executes_iff {i : Instr} {s : State} :
    Executes i s ↔ (planOf i s).noop = false ∧ planFailure s.params.dmemSize (planOf i s) = none := by
  rw [planFailure_none_iff]
  constructor
  · rintro ⟨hr, hb, ho⟩
    obtain ⟨hn, ht⟩ := reachesBuffers_iff.mp hr
    refine ⟨hn, ht, fun b hm => ?_, fun hblk => ?_⟩
    · rw [plan_buffers hr] at hm
      exact (bufferPasses_iff (listed_size b hm)).mp (hb b hm)
    · rw [plan_buffers hr]
      exact (overlapFailure_none_iff (by simp) listed_size).mpr ⟨by simp, ho (plan_block_iff.mp hblk)⟩
  · rintro ⟨hn, ht, hb, ho⟩
    have hr : ReachesBuffers i s := reachesBuffers_iff.mpr ⟨hn, ht⟩
    rw [plan_buffers hr] at hb ho
    exact ⟨hr, fun b hm => (bufferPasses_iff (listed_size b hm)).mpr (hb b hm), fun hblk =>
      ((overlapFailure_none_iff (by simp) listed_size).mp (ho (plan_block_iff.mpr hblk))).2⟩

/-- A command that executes and has output elements stores them. -/
theorem exec_of_executes {i : Instr} {s : State} (h : Executes i s) (hs : (planOf i s).stores ≠ []) :
    exec i s = .next (complete (storeAll (planOf i s).stores s)) := by
  obtain ⟨hn, hf⟩ := executes_iff.mp h
  rw [exec_stores hs, runPlan_executes hn hf]

/-! ### A command's output elements -/

theorem convTarget_eq (s : State) (k : Nat) : convDest s k = convTarget s k := by
  unfold convDest convTarget interleavedBase floatAddr
  cases s.conv.ilv <;> simp only [if_true, if_false, Bool.false_eq_true, reduceCtorEq]
  split_ifs <;> rfl

theorem mixTargets_eq (s : State) (k : Nat) : (mixBody s k).map (fun st => st.addr) = mixTargets s k := by
  unfold mixBody mixTargets mixStoreRe mixStoreIm floatAddr
  cases s.mix.ilv <;> simp only [if_true, if_false, Bool.false_eq_true, reduceCtorEq]
  · rfl
  · split_ifs <;> rfl

/-- The plan's output elements stand at the targets of the rules, in that order. -/
theorem stores_targets (i : Instr) (s : State) : (planOf i s).stores.map (fun st => st.addr) = targets i s := by
  cases i with
  | convElem k => exact congrArg (fun a => [a]) (convTarget_eq s k)
  | convBlock =>
    simp only [planOf, targets, planConvBlock, List.map_map]
    exact List.map_congr_left fun k _ => convTarget_eq s k
  | mixElem k => exact mixTargets_eq s k
  | mixBlock =>
    simp only [planOf, targets, planMixBlock, List.map_flatMap, mixTargets_eq]
    rfl
  | firRcElem k => rfl
  | firRrElem k => rfl
  | firCcElem k => rfl
  | firRcBlock => simp only [planOf, targets, planFirRcBlock, List.map_flatMap]; rfl
  | firRrBlock =>
    simp only [planOf, targets, planFirRrBlock, List.map_flatMap, firRrBody, List.map_cons, List.map_nil]
    exact List.flatMap_pure_eq_map ..
  | firCcBlock => simp only [planOf, targets, planFirCcBlock, List.map_flatMap]; rfl
  | demElem k => rfl
  | demBlock => simp only [planOf, targets, planDemBlock, List.map_map]; rfl
  | nop => rfl
  | resetState => rfl
  | mixGenlut => rfl
  | mixAdvance n => rfl
  | mixRefresh => rfl
  | mixReset => rfl
  | firRefreshC => rfl
  | firRefreshR => rfl
  | firClear => rfl
  | demSave => rfl
  | demReset => rfl

/-- The plan writes the bytes of the targets. -/
theorem planWrites_iff (i : Instr) (s : State) (a : Nat) :
    planWrites (planOf i s) a = true ↔ ∃ x ∈ targets i s, InWord x a := by
  rw [← stores_targets]
  simp [planWrites, spanCovers]

/-! ### The bytes a command reads -/

theorem spanCovers_iff {sp : Span} {a : Nat} : spanCovers sp a = true ↔ sp.addr ≤ a ∧ a < sp.addr + sp.len := by
  unfold spanCovers
  rw [Bool.and_eq_true, decide_eq_true_iff, decide_eq_true_iff]

/-- The bytes of elements f to l of a float buffer. -/
theorem floatSpan_covers {base : Word} {f l a : Nat} :
    spanCovers (floatSpan base f l) a = true ↔ ∃ j, f ≤ j ∧ j ≤ l ∧ InWord (base.toNat + 4 * j) a := by
  rw [spanCovers_iff]
  show base.toNat + 4 * f ≤ a ∧ a < base.toNat + 4 * f + 4 * (l + 1 - f) ↔ _
  unfold InWord
  constructor
  · rintro ⟨h1, h2⟩
    exact ⟨(a - base.toNat) / 4, by omega, by omega, by omega, by omega⟩
  · rintro ⟨j, h1, h2, h3, h4⟩
    omega

theorem windowSpan_covers {s : State} {base : Word} {i a : Nat} :
    spanCovers (windowSpan s.fir base i) a = true ↔ firUses s base i a := by
  rw [windowSpan, floatSpan_covers]
  have hi : (i : Int) * s.fir.decim.toNat = ((i * s.fir.decim.toNat : Nat) : Int) := by push_cast; rfl
  unfold firUses sampleOf taps firstSample windowBase tapCount InWord
  rw [hi]
  constructor
  · rintro ⟨j, h1, h2, h3⟩
    refine ⟨(j + s.fir.order.toNat - (s.fir.ioff.toNat + i * s.fir.decim.toNat) - 1), ?_, ?_, ?_⟩
    · split_ifs at h2 ⊢ <;> omega
    · omega
    · omega
  · rintro ⟨k, h1, h2, h3⟩
    refine ⟨_, ?_, ?_, h3⟩
    · omega
    · split_ifs at h1 ⊢ <;> omega

theorem refreshSpan_covers {s : State} {bases : List Word} {a : Nat} :
    (refreshSpans s.fir bases).any (fun sp => spanCovers sp a) = true ↔ ∃ base ∈ bases, refreshUses s base a := by
  have hm : ((blockCount s.fir.ooff s.fir.olen : Nat) : Int) * s.fir.decim.toNat =
      ((firCount s * s.fir.decim.toNat : Nat) : Int) := by
    unfold firCount blockCount
    push_cast
    rfl
  have key : ∀ base : Word, refreshUses s base a ↔ refreshReads s.fir = true ∧
      spanCovers (floatSpan base (firstSample (refreshFirst s.fir))
        (refreshFirst s.fir + s.fir.order.toNat - 2).toNat) a = true := by
    intro base
    have hm' : (firCount s : Int) * s.fir.decim.toNat = ((firCount s * s.fir.decim.toNat : Nat) : Int) := by
      push_cast; rfl
    rw [floatSpan_covers]
    unfold refreshUses refreshAddr refreshSample refreshReads refreshFirst firstSample InWord
    rw [hm, hm', decide_eq_true_iff]
    constructor
    · rintro ⟨m, h1, h2, h3⟩
      exact ⟨by omega, _, by omega, by omega, h3⟩
    · rintro ⟨h1, j, h2, h3, h4⟩
      refine ⟨j + s.fir.order.toNat - (s.fir.ioff.toNat + firCount s * s.fir.decim.toNat) - 1, by omega, by omega, ?_⟩
      omega
  unfold refreshSpans
  by_cases hr : refreshReads s.fir = true
  · simp only [hr, if_true, List.any_map, List.any_eq_true, Function.comp, key, true_and]
  · simp [hr, key]

theorem demSpans_cover {s : State} {i a : Nat} :
    (spanCovers (floatSpan s.dem.inRe (demFirstInput s i) (s.dem.ioff.toNat + i)) a ||
      spanCovers (floatSpan s.dem.inIm (demFirstInput s i) (s.dem.ioff.toNat + i)) a) = true ↔ demUses s i a := by
  have key : ∀ base : Word, spanCovers (floatSpan base (demFirstInput s i) (s.dem.ioff.toNat + i)) a = true ↔
      InWord (base.toNat + 4 * (s.dem.ioff.toNat + i)) a ∨
        (i ≠ 0 ∧ InWord (base.toNat + 4 * (s.dem.ioff.toNat + i - 1)) a) := by
    intro base
    rw [floatSpan_covers]
    unfold demFirstInput InWord
    constructor
    · rintro ⟨j, h1, h2, h3⟩
      split_ifs at h1 with h
      · left; omega
      · by_cases hj : j = s.dem.ioff.toNat + i
        · left; omega
        · right; refine ⟨h, ?_⟩; omega
    · rintro (h | ⟨h, h'⟩)
      · exact ⟨_, by split_ifs <;> omega, le_refl _, h⟩
      · exact ⟨_, by rw [if_neg h], by omega, h'⟩
  rw [Bool.or_eq_true, key, key]
  unfold demUses
  simp

theorem byteSpan_covers {base : Word} {k a : Nat} :
    spanCovers { addr := byteAddr base k, len := 1 } a = true ↔ a = base.toNat + k := by
  rw [spanCovers_iff]
  show base.toNat + k ≤ a ∧ a < base.toNat + k + 1 ↔ _
  omega

/-- A byte one of the elements' computations reads. -/
abbrev StoresRead (sts : List Store) (a : Nat) : Prop := ∃ st ∈ sts, ∃ sp ∈ st.reads, spanCovers sp a = true

theorem convBody_reads (s : State) (k a : Nat) : StoresRead [convBody s k] a ↔ convUses s k a := by
  simp [StoresRead, convBody, convUses, byteSpan_covers]

theorem mixBody_reads (s : State) (k a : Nat) : StoresRead (mixBody s k) a ↔ mixUses s k a := by
  unfold mixBody
  split_ifs <;> simp [StoresRead, mixStoreRe, mixStoreIm, mixReads, mixUses, byteSpan_covers]

theorem firRrBody_reads (s : State) (k a : Nat) : StoresRead (firRrBody s k) a ↔ firUses s s.fir.inRe k a := by
  simp [StoresRead, firRrBody, windowSpan_covers]

theorem firRcBody_reads (s : State) (k a : Nat) :
    StoresRead (firRcBody s k) a ↔ firUses s s.fir.inRe k a ∨ firUses s s.fir.inIm k a := by
  simp [StoresRead, firRcBody, windowSpan_covers]

theorem firCcBody_reads (s : State) (k a : Nat) :
    StoresRead (firCcBody s k) a ↔ firUses s s.fir.inRe k a ∨ firUses s s.fir.inIm k a := by
  simp [StoresRead, firCcBody, windowSpan_covers]

theorem demBody_reads (s : State) (k a : Nat) : StoresRead [demBody s k] a ↔ demUses s k a := by
  rw [← demSpans_cover, Bool.or_eq_true]
  simp [StoresRead, demBody]

/-- The elements of a block read what each of them reads. -/
theorem storesRead_flatMap {n : Nat} {body : Nat → List Store} {a : Nat} :
    StoresRead ((List.range n).flatMap body) a ↔ ∃ k < n, StoresRead (body k) a := by
  unfold StoresRead
  constructor
  · rintro ⟨st, hst, hsp⟩
    obtain ⟨k, hk, hst⟩ := List.mem_flatMap.mp hst
    exact ⟨k, List.mem_range.mp hk, st, hst, hsp⟩
  · rintro ⟨k, hk, st, hst, hsp⟩
    exact ⟨st, List.mem_flatMap.mpr ⟨k, List.mem_range.mpr hk, hst⟩, hsp⟩

theorem storesRead_map {n : Nat} {body : Nat → Store} {a : Nat} :
    StoresRead ((List.range n).map body) a ↔ ∃ k < n, StoresRead [body k] a := by
  rw [← List.flatMap_pure_eq_map]
  exact storesRead_flatMap

theorem planReads_of_stores {p : Plan} (h : p.loads = []) {a : Nat} : planReads p a = true ↔ StoresRead p.stores a := by
  simp [planReads, h]

theorem saveSpans_cover {s : State} {base : Word} {a : Nat} :
    spanCovers (floatSpan base (saveIndex s) (saveIndex s)) a = true ↔ InWord (saveAddr s base) a := by
  rw [floatSpan_covers]
  unfold saveIndex saveAddr
  constructor
  · rintro ⟨j, h1, h2, h⟩
    rwa [le_antisymm h2 h1] at h
  · exact fun h => ⟨_, le_refl _, le_refl _, h⟩

/-- The plan reads the bytes the rules name. -/
theorem planReads_iff (i : Instr) (s : State) (a : Nat) : planReads (planOf i s) a = true ↔ uses i s a := by
  have block : ∀ {n : Nat} {p q : Nat → Prop}, (∀ k, p k ↔ q k) → ((∃ k < n, p k) ↔ ∃ k < n, q k) := fun h =>
    exists_congr fun k => and_congr_right fun _ => h k
  cases i with
  | convElem k => exact (planReads_of_stores rfl).trans (convBody_reads s k a)
  | convBlock =>
    exact (planReads_of_stores rfl).trans (storesRead_map.trans (block fun k => convBody_reads s k a))
  | mixElem k => exact (planReads_of_stores rfl).trans (mixBody_reads s k a)
  | mixBlock =>
    exact (planReads_of_stores rfl).trans (storesRead_flatMap.trans (block fun k => mixBody_reads s k a))
  | firRcElem k => exact (planReads_of_stores rfl).trans (firRcBody_reads s k a)
  | firRrElem k => exact (planReads_of_stores rfl).trans (firRrBody_reads s k a)
  | firCcElem k => exact (planReads_of_stores rfl).trans (firCcBody_reads s k a)
  | firRcBlock =>
    exact (planReads_of_stores rfl).trans (storesRead_flatMap.trans (block fun k => firRcBody_reads s k a))
  | firRrBlock =>
    exact (planReads_of_stores rfl).trans (storesRead_flatMap.trans (block fun k => firRrBody_reads s k a))
  | firCcBlock =>
    exact (planReads_of_stores rfl).trans (storesRead_flatMap.trans (block fun k => firCcBody_reads s k a))
  | firRefreshC =>
    exact (show planReads (planFirRefreshC s) a = true ↔ _ from Iff.rfl).trans
      ((refreshSpan_covers (bases := [s.fir.inRe, s.fir.inIm])).trans (by simp [uses]))
  | firRefreshR => exact (refreshSpan_covers (bases := [s.fir.inRe])).trans (by simp [uses])
  | demElem k => exact (planReads_of_stores rfl).trans (demBody_reads s k a)
  | demBlock => exact (planReads_of_stores rfl).trans (storesRead_map.trans (block fun k => demBody_reads s k a))
  | demSave => simp [planReads, planOf, planDemSave, saveSpans_cover, uses]
  | nop => simp [planReads, planOf, planNop, uses]
  | resetState => simp [planReads, planOf, planResetState, uses]
  | mixGenlut => simp [planReads, planOf, planMixGenlut, uses]
  | mixAdvance n => simp [planReads, planOf, planMixAdvance, uses]
  | mixRefresh => simp [planReads, planOf, planMixRefresh, uses]
  | mixReset => simp [planReads, planOf, planMixReset, uses]
  | firClear => simp [planReads, planOf, planFirClear, uses]
  | demReset => simp [planReads, planOf, planDemReset, uses]

/-! ### The pending command -/

theorem executedPlan_of_executes {i : Instr} {s : State} (h : Executes i s) :
    executedPlan (planOf i s) s = planOf i s := by
  obtain ⟨hn, hf⟩ := executes_iff.mp h
  simp [executedPlan, hn, hf]

theorem executedPlan_of_not_executes {i : Instr} {s : State} (h : ¬Executes i s) :
    executedPlan (planOf i s) s = {} := by
  rw [executes_iff] at h
  unfold executedPlan
  rw [if_pos]
  cases hn : (planOf i s).noop
  · cases hf : planFailure s.params.dmemSize (planOf i s) with
    | none => exact absurd ⟨hn, hf⟩ h
    | some f => rfl
  · rfl

/-- The plan of a pending command that will execute. -/
theorem pendingPlan_of_willExecute {s : State} {i : Instr} (h : WillExecute s i) : pendingPlan s = planOf i s := by
  obtain ⟨w, hw, hd, he⟩ := h
  simp only [pendingPlan, hw, hd, executedPlan_of_executes he]

/-- Where no command will execute there is no byte to race. -/
theorem pendingPlan_of_none {s : State} (h : ∀ i, ¬WillExecute s i) : pendingPlan s = {} := by
  unfold pendingPlan
  split
  · rfl
  · rename_i w hw
    split
    · rename_i i hi
      exact executedPlan_of_not_executes fun he => h i ⟨w, hw, hi, he⟩
    · rfl

theorem readRaces_iff (s : State) (a : Nat) : readRaces s a = true ↔ PendingWrites s a := by
  unfold readRaces PendingWrites
  by_cases h : ∃ i, WillExecute s i
  · obtain ⟨i, hi⟩ := h
    rw [pendingPlan_of_willExecute hi, planWrites_iff]
    refine ⟨fun hx => ⟨i, hi, hx⟩, fun ⟨j, ⟨w, hw, hd, _⟩, hx⟩ => ?_⟩
    obtain ⟨w', hw', hd', -⟩ := hi
    obtain rfl := Option.some.inj (hw.symm.trans hw')
    obtain rfl := Except.ok.inj (hd.symm.trans hd')
    exact hx
  · rw [pendingPlan_of_none fun i hi => h ⟨i, hi⟩]
    exact ⟨fun hx => (nomatch hx), fun ⟨i, hi, _⟩ => absurd ⟨i, hi⟩ h⟩

theorem writeRaces_iff (s : State) (a : Nat) : writeRaces s a = true ↔ PendingReads s a ∨ PendingWrites s a := by
  rw [← readRaces_iff]
  unfold writeRaces readRaces PendingReads
  rw [Bool.or_eq_true]
  refine or_congr ?_ Iff.rfl
  by_cases h : ∃ i, WillExecute s i
  · obtain ⟨i, hi⟩ := h
    rw [pendingPlan_of_willExecute hi, planReads_iff]
    refine ⟨fun hx => ⟨i, hi, hx⟩, fun ⟨j, ⟨w, hw, hd, _⟩, hx⟩ => ?_⟩
    obtain ⟨w', hw', hd', -⟩ := hi
    obtain rfl := Option.some.inj (hw.symm.trans hw')
    obtain rfl := Except.ok.inj (hd.symm.trans hd')
    exact hx
  · rw [pendingPlan_of_none fun i hi => h ⟨i, hi⟩]
    exact ⟨fun hx => (nomatch hx), fun ⟨i, hi, _⟩ => absurd ⟨i, hi⟩ h⟩

end Sys2Proof.Claims
end

