-- ==== Sys2Proof/Laws/PerInstr.lean ====
section
/-! SUPPORT. Facts about every command as syntax, one lemma per constructor: the OP field of its word and the IMM field
of its word (spec/30_encoding.md R130, R132, R138). -/

namespace Sys2Proof.Laws

/-- The OP field of an encoded command is the opcode, whatever the operand. -/
theorem opField_encode (i : Instr) : opField (encode i) = opcode i := by
  simp only [opField, encode]
  exact BitVec.extractLsb'_append_eq_right

/-- The IMM field of an encoded command is the operand, 0 for class Z. -/
theorem immField_encode (i : Instr) : immField (encode i) = BitVec.ofNat 24 ((operand i).getD 0) := by
  simp only [immField, encode]
  exact BitVec.extractLsb'_append_eq_left

/-- The OP field of the command's word is the value of the opcode map (30 R132). -/
def OpcodeByte.Statement (i : Instr) : Prop := opField (encode i) = opcode i

theorem OpcodeByte.nop : OpcodeByte.Statement (.nop) := opField_encode _
theorem OpcodeByte.resetState : OpcodeByte.Statement (.resetState) := opField_encode _
theorem OpcodeByte.convElem (n : Nat) : OpcodeByte.Statement (.convElem n) := opField_encode _
theorem OpcodeByte.convBlock : OpcodeByte.Statement (.convBlock) := opField_encode _
theorem OpcodeByte.mixElem (n : Nat) : OpcodeByte.Statement (.mixElem n) := opField_encode _
theorem OpcodeByte.mixBlock : OpcodeByte.Statement (.mixBlock) := opField_encode _
theorem OpcodeByte.mixGenlut : OpcodeByte.Statement (.mixGenlut) := opField_encode _
theorem OpcodeByte.mixAdvance (n : Nat) : OpcodeByte.Statement (.mixAdvance n) := opField_encode _
theorem OpcodeByte.mixRefresh : OpcodeByte.Statement (.mixRefresh) := opField_encode _
theorem OpcodeByte.mixReset : OpcodeByte.Statement (.mixReset) := opField_encode _
theorem OpcodeByte.firRcElem (n : Nat) : OpcodeByte.Statement (.firRcElem n) := opField_encode _
theorem OpcodeByte.firRrElem (n : Nat) : OpcodeByte.Statement (.firRrElem n) := opField_encode _
theorem OpcodeByte.firCcElem (n : Nat) : OpcodeByte.Statement (.firCcElem n) := opField_encode _
theorem OpcodeByte.firRcBlock : OpcodeByte.Statement (.firRcBlock) := opField_encode _
theorem OpcodeByte.firRrBlock : OpcodeByte.Statement (.firRrBlock) := opField_encode _
theorem OpcodeByte.firCcBlock : OpcodeByte.Statement (.firCcBlock) := opField_encode _
theorem OpcodeByte.firRefreshC : OpcodeByte.Statement (.firRefreshC) := opField_encode _
theorem OpcodeByte.firRefreshR : OpcodeByte.Statement (.firRefreshR) := opField_encode _
theorem OpcodeByte.firClear : OpcodeByte.Statement (.firClear) := opField_encode _
theorem OpcodeByte.demElem (n : Nat) : OpcodeByte.Statement (.demElem n) := opField_encode _
theorem OpcodeByte.demBlock : OpcodeByte.Statement (.demBlock) := opField_encode _
theorem OpcodeByte.demSave : OpcodeByte.Statement (.demSave) := opField_encode _
theorem OpcodeByte.demReset : OpcodeByte.Statement (.demReset) := opField_encode _

/-- The IMM field of the command's word is the operand of a well-formed class I command and 0 for class Z
(30 R130, R131). -/
def ImmediateField.Statement (i : Instr) : Prop :=
  wellFormed i = true → (immField (encode i)).toNat = (operand i).getD 0

/-- A well-formed class I operand is kept whole. -/
theorem immField_encode_of_fits {i : Instr} {n : Nat} (hi : operand i = some n) (h : immFits n = true) :
    (immField (encode i)).toNat = (operand i).getD 0 := by
  rw [immField_encode, hi, Option.getD_some, BitVec.toNat_ofNat]
  exact Nat.mod_eq_of_lt (by simpa [immFits] using h)

/-- A class Z command has IMM 0. -/
theorem immField_encode_of_classZ {i : Instr} (hi : operand i = none) :
    (immField (encode i)).toNat = (operand i).getD 0 := by
  rw [immField_encode, hi]
  rfl

theorem ImmediateField.nop : ImmediateField.Statement (.nop) :=
  fun _ => immField_encode_of_classZ rfl
theorem ImmediateField.resetState : ImmediateField.Statement (.resetState) :=
  fun _ => immField_encode_of_classZ rfl
theorem ImmediateField.convElem (n : Nat) : ImmediateField.Statement (.convElem n) :=
  immField_encode_of_fits rfl
theorem ImmediateField.convBlock : ImmediateField.Statement (.convBlock) :=
  fun _ => immField_encode_of_classZ rfl
theorem ImmediateField.mixElem (n : Nat) : ImmediateField.Statement (.mixElem n) :=
  immField_encode_of_fits rfl
theorem ImmediateField.mixBlock : ImmediateField.Statement (.mixBlock) :=
  fun _ => immField_encode_of_classZ rfl
theorem ImmediateField.mixGenlut : ImmediateField.Statement (.mixGenlut) :=
  fun _ => immField_encode_of_classZ rfl
theorem ImmediateField.mixAdvance (n : Nat) : ImmediateField.Statement (.mixAdvance n) :=
  immField_encode_of_fits rfl
theorem ImmediateField.mixRefresh : ImmediateField.Statement (.mixRefresh) :=
  fun _ => immField_encode_of_classZ rfl
theorem ImmediateField.mixReset : ImmediateField.Statement (.mixReset) :=
  fun _ => immField_encode_of_classZ rfl
theorem ImmediateField.firRcElem (n : Nat) : ImmediateField.Statement (.firRcElem n) :=
  immField_encode_of_fits rfl
theorem ImmediateField.firRrElem (n : Nat) : ImmediateField.Statement (.firRrElem n) :=
  immField_encode_of_fits rfl
theorem ImmediateField.firCcElem (n : Nat) : ImmediateField.Statement (.firCcElem n) :=
  immField_encode_of_fits rfl
theorem ImmediateField.firRcBlock : ImmediateField.Statement (.firRcBlock) :=
  fun _ => immField_encode_of_classZ rfl
theorem ImmediateField.firRrBlock : ImmediateField.Statement (.firRrBlock) :=
  fun _ => immField_encode_of_classZ rfl
theorem ImmediateField.firCcBlock : ImmediateField.Statement (.firCcBlock) :=
  fun _ => immField_encode_of_classZ rfl
theorem ImmediateField.firRefreshC : ImmediateField.Statement (.firRefreshC) :=
  fun _ => immField_encode_of_classZ rfl
theorem ImmediateField.firRefreshR : ImmediateField.Statement (.firRefreshR) :=
  fun _ => immField_encode_of_classZ rfl
theorem ImmediateField.firClear : ImmediateField.Statement (.firClear) :=
  fun _ => immField_encode_of_classZ rfl
theorem ImmediateField.demElem (n : Nat) : ImmediateField.Statement (.demElem n) :=
  immField_encode_of_fits rfl
theorem ImmediateField.demBlock : ImmediateField.Statement (.demBlock) :=
  fun _ => immField_encode_of_classZ rfl
theorem ImmediateField.demSave : ImmediateField.Statement (.demSave) :=
  fun _ => immField_encode_of_classZ rfl
theorem ImmediateField.demReset : ImmediateField.Statement (.demReset) :=
  fun _ => immField_encode_of_classZ rfl

end Sys2Proof.Laws
end

