-- ==== Sys2Proof/Machine/HostProgram.lean ====
section
/-! DEFINITION. Host programs (spec/30_encoding.md R137 to R139): the command lines of the assembler and the
pseudo-instructions, as the host moves they stand for. -/

namespace Sys2Proof.Machine

/-- A host move made in its turn, after a pending command. -/
def inTurn (m : HostMove) : HostTurn := .once false m

/-- `WR reg, v` (30 R137), the register given by its offset. -/
def wr (off : BitVec 12) (v : Word) : HostTurn := inTurn (.regWrite off 4 v)

/-- `RD reg` (30 R137). -/
def rd (off : BitVec 12) : HostTurn := inTurn (.regRead off 4)

/-- A command mnemonic of 30 R132. -/
inductive Mnemonic where
  | nop | resetState | convElem | convBlock | mixElem | mixBlock | mixGenlut | mixAdvance | mixRefresh | mixReset
  | firRcElem | firRrElem | firCcElem | firRcBlock | firRrBlock | firCcBlock | firRefreshC | firRefreshR | firClear
  | demElem | demBlock | demSave | demReset
  deriving DecidableEq, Repr

/-- A class Z mnemonic takes no operand (30 R138). -/
def commandZ (i : Instr) (imm : Option Nat) : Option Instr :=
  match imm with
  | none => some i
  | some _ => none

/-- A class I mnemonic takes an operand 0 to 2^24 - 1 (30 R138). -/
def commandI (i : Nat → Instr) (imm : Option Nat) : Option Instr :=
  match imm with
  | none => none
  | some n => if immFits n then some (i n) else none

/-- The command a line names; none where the assembler refuses the line (30 R138). -/
def command (m : Mnemonic) (imm : Option Nat) : Option Instr :=
  match m with
  | .nop => commandZ .nop imm
  | .resetState => commandZ .resetState imm
  | .convElem => commandI .convElem imm
  | .convBlock => commandZ .convBlock imm
  | .mixElem => commandI .mixElem imm
  | .mixBlock => commandZ .mixBlock imm
  | .mixGenlut => commandZ .mixGenlut imm
  | .mixAdvance => commandI .mixAdvance imm
  | .mixRefresh => commandZ .mixRefresh imm
  | .mixReset => commandZ .mixReset imm
  | .firRcElem => commandI .firRcElem imm
  | .firRrElem => commandI .firRrElem imm
  | .firCcElem => commandI .firCcElem imm
  | .firRcBlock => commandZ .firRcBlock imm
  | .firRrBlock => commandZ .firRrBlock imm
  | .firCcBlock => commandZ .firCcBlock imm
  | .firRefreshC => commandZ .firRefreshC imm
  | .firRefreshR => commandZ .firRefreshR imm
  | .firClear => commandZ .firClear imm
  | .demElem => commandI .demElem imm
  | .demBlock => commandZ .demBlock imm
  | .demSave => commandZ .demSave imm
  | .demReset => commandZ .demReset imm

/-- `WR CMD, w` with w the command's word (30 R138). -/
def issue (i : Instr) : HostTurn := wr 0x018#12 (encode i)

/-- A command line assembles to `WR CMD, w`; none where the assembler refuses it (30 R138). -/
def assemble (m : Mnemonic) (imm : Option Nat) : Option HostTurn := (command m imm).map issue

/-- The pseudo-instructions of 30 R139. -/
inductive Pseudo where
  /-- `WAIT`; `polls` is how many of its reads of STATUS are made before a pending command's step. -/
  | wait (polls : Nat)
  | errClear
  | doneClear
  | wrTap (k : Word) (re im : Word)
  | wrRem (m : Word) (re im : Word)
  | convProcess
  | mixProcess
  | firRcProcess
  | firRrProcess
  | firCcProcess
  | demProcess
  deriving DecidableEq, Repr

/-- The entries of the host's queue a pseudo-instruction stands for (30 R139). -/
def expand (p : Pseudo) : List HostTurn :=
  match p with
  | .wait polls => [.wait polls]
  | .errClear => [wr 0x014#12 0x00000004#32]
  | .doneClear => [wr 0x014#12 0x00000002#32]
  | .wrTap k re im => [wr 0x328#12 k, wr 0x32C#12 re, wr 0x330#12 im]
  | .wrRem m re im => [wr 0x334#12 m, wr 0x338#12 re, wr 0x33C#12 im]
  | .convProcess => [issue .convBlock]
  | .mixProcess => [issue .mixBlock, issue .mixRefresh]
  | .firRcProcess => [issue .firRcBlock, issue .firRefreshC]
  | .firRrProcess => [issue .firRrBlock, issue .firRefreshR]
  | .firCcProcess => [issue .firCcBlock, issue .firRefreshC]
  | .demProcess => [issue .demBlock, issue .demSave]

end Sys2Proof.Machine
end

