-- ==== Sys2Proof/Tests/Slice0.lean ====
section
/-! SUPPORT. Tests of the model on the spec's own vectors (spec/95_test_vectors.md; each test names its vector) and on
words written out from the encodings of spec/30_encoding.md R132. -/

namespace Sys2Proof.Machine

-- One theorem at a time: checked side by side, these evaluations take more memory than the check allows.
set_option Elab.async false

/-! ### WellFormed: an ill-formed operand is refused (30 R138) -/

theorem test_illFormed_convElem : wellFormed (.convElem 16777216) = false := by decide
theorem test_illFormed_mixElem : wellFormed (.mixElem 16777216) = false := by decide
theorem test_illFormed_mixAdvance : wellFormed (.mixAdvance 16777216) = false := by decide
theorem test_illFormed_firRcElem : wellFormed (.firRcElem 16777216) = false := by decide
theorem test_illFormed_firRrElem : wellFormed (.firRrElem 16777216) = false := by decide
theorem test_illFormed_firCcElem : wellFormed (.firCcElem 16777216) = false := by decide
theorem test_illFormed_demElem : wellFormed (.demElem 16777216) = false := by decide
theorem test_wellFormed_largest : wellFormed (.convElem 16777215) = true := by decide

/-! ### Decoding: one word per command, its 32 bits written out from 30 R132, IMM above OP -/

/-- The command a word decodes to. -/
def decoded (w : Word) : Option Instr := (decode w).toOption

theorem test_decode_nop :
    decoded 0b00000000000000000000000000000000#32 = some (.nop) := by decide
theorem test_decode_resetState :
    decoded 0b00000000000000000000000000000001#32 = some (.resetState) := by decide
theorem test_decode_convElem :
    decoded 0b00000000000000000000001000001000#32 = some (.convElem 2) := by decide
theorem test_decode_convBlock :
    decoded 0b00000000000000000000000000001001#32 = some (.convBlock) := by decide
theorem test_decode_mixElem :
    decoded 0b00000000000000000000000100010000#32 = some (.mixElem 1) := by decide
theorem test_decode_mixBlock :
    decoded 0b00000000000000000000000000010001#32 = some (.mixBlock) := by decide
theorem test_decode_mixGenlut :
    decoded 0b00000000000000000000000000010010#32 = some (.mixGenlut) := by decide
theorem test_decode_mixAdvance :
    decoded 0b00000000000000000000011000010011#32 = some (.mixAdvance 6) := by decide
theorem test_decode_mixRefresh :
    decoded 0b00000000000000000000000000010100#32 = some (.mixRefresh) := by decide
theorem test_decode_mixReset :
    decoded 0b00000000000000000000000000010101#32 = some (.mixReset) := by decide
theorem test_decode_firRcElem :
    decoded 0b00000000000000000000000000100000#32 = some (.firRcElem 0) := by decide
theorem test_decode_firRrElem :
    decoded 0b00000000000000000000000100100001#32 = some (.firRrElem 1) := by decide
theorem test_decode_firCcElem :
    decoded 0b00000000000000000000000000100010#32 = some (.firCcElem 0) := by decide
theorem test_decode_firRcBlock :
    decoded 0b00000000000000000000000000100100#32 = some (.firRcBlock) := by decide
theorem test_decode_firRrBlock :
    decoded 0b00000000000000000000000000100101#32 = some (.firRrBlock) := by decide
theorem test_decode_firCcBlock :
    decoded 0b00000000000000000000000000100110#32 = some (.firCcBlock) := by decide
theorem test_decode_firRefreshC :
    decoded 0b00000000000000000000000000101000#32 = some (.firRefreshC) := by decide
theorem test_decode_firRefreshR :
    decoded 0b00000000000000000000000000101001#32 = some (.firRefreshR) := by decide
theorem test_decode_firClear :
    decoded 0b00000000000000000000000000101010#32 = some (.firClear) := by decide
theorem test_decode_demElem :
    decoded 0b10000000000000000000000000110000#32 = some (.demElem 8388608) := by decide
theorem test_decode_demBlock :
    decoded 0b00000000000000000000000000110001#32 = some (.demBlock) := by decide
theorem test_decode_demSave :
    decoded 0b00000000000000000000000000110010#32 = some (.demSave) := by decide
theorem test_decode_demReset :
    decoded 0b00000000000000000000000000110011#32 = some (.demReset) := by decide

/-- EN2, EN9, EN4: illegal words. -/
theorem test_decode_nop_imm : decode 0x00000100#32 = .error (.immediateNotZero 0x00#8) := by rfl
theorem test_decode_undefined_23 : decode 0x00000023#32 = .error (.undefinedOpcode 0x23#8) := by rfl
theorem test_decode_undefined_ff : decode 0x000000FF#32 = .error (.undefinedOpcode 0xFF#8) := by rfl
/-- EN6. -/
theorem test_decode_largest_imm : decoded 0xFFFFFF08#32 = some (.convElem 16777215) := by decide
/-- 30 R138: `FIR_RR_ELEM 1` is 0x00000121, `NOP 1` and `CONV_ELEM` alone are refused. -/
theorem test_encode_firRrElem : encode (.firRrElem 1) = 0x00000121#32 := by decide
theorem test_assemble_refuses :
    (assemble .nop (some 1), assemble .convElem none, assemble .convElem (some 16777216)) = (none, none, none) := by
  decide

/-! ### Binary32 (FR7 to FR13 and hand computation) -/

theorem test_fadd_tie_to_even : fadd 0x3F800000#32 0x33800000#32 = 0x3F800000#32 := by decide +kernel
theorem test_fadd_tie_up : fadd 0x3F800000#32 0x34400000#32 = 0x3F800002#32 := by decide +kernel
theorem test_fadd_negative_zero : fadd 0#32 0x80000000#32 = 0#32 := by decide +kernel
theorem test_fmul_zero_inf : fmul 0#32 0x7F800000#32 = 0x7FC00000#32 := by decide +kernel
theorem test_fmul_nan : fmul 0x3F800000#32 0x7FC00001#32 = 0x7FC00000#32 := by decide +kernel
/-- 2^-100 * 2^-45 = 2^-145, the subnormal 16 * 2^-149. -/
theorem test_fmul_subnormal : fmul 0x0D800000#32 0x29000000#32 = 0x00000010#32 := by decide +kernel
/-- The largest finite value doubled overflows to infinity. -/
theorem test_fadd_overflow : fadd 0x7F7FFFFF#32 0x7F7FFFFF#32 = 0x7F800000#32 := by decide +kernel
theorem test_fsub : fsub 0x40400000#32 0x41000000#32 = 0xC0A00000#32 := by decide +kernel

/-! ### Small states -/

/-- The state an outcome answers, if it is a next state. -/
def nextOf (o : Host.Outcome State Fault Refusal) : Option State :=
  match o with
  | .next t => some t
  | .fault _ => none
  | .refused _ => none

/-- DMEM holding the words `ws` from address `a` upward. -/
def memWords (m : Memory) (a : Nat) (ws : List Word) : Memory :=
  match ws with
  | [] => m
  | w :: rest => memWords (memWrite32 m a w) (a + 4) rest

/-- DMEM holding the bytes `bs` from address `a` upward. -/
def memBytes (m : Memory) (a : Nat) (bs : List Byte) : Memory :=
  match bs with
  | [] => m
  | v :: rest => memBytes (memWrite8 m a v) (a + 1) rest

/-- An internal memory whose first entries are `ws`. -/
def entriesOf (ws : List Word) : EntryMem := ws.zipIdx.map fun c => (c.2, .written c.1)

/-- The DMEM word at `a` after a command. -/
def wordAfter (i : Instr) (s : State) (a : Nat) : Option Word := (nextOf (exec i s)).map fun t => memRead32 t.dmem a

/-- STATUS, ERRINFO and ERRADDR after a command. -/
def errorAfter (i : Instr) (s : State) : Option (Word × Word × Word) :=
  (nextOf (exec i s)).map fun t => (statusWord t, t.errInfo, t.errAddr)

/-- The converter setting of 95 section 2.3, for the LUT entries 0x00, 0x7F, 0x80, 0x81 and 0xFF. -/
def convState (signed ilv : Bool) (len : BitVec 24) (bs : List Byte) : State :=
  { State.reset with
    conv := { ConvBank.reset with
      signed := signed, ilv := ilv, olen := len, inAddr := 0x100#32, outRe := 0x200#32, outIm := 0x300#32
      lut := [(0x00, .written 0xBF800000#32), (0x7F, .written 0xBC000000#32), (0x80, .written 0#32),
        (0x81, .written 0x3C000000#32), (0xFF, .written 0x3F7E0000#32)] }
    dmem := memBytes [] 0x100 bs }

/-- The FIR setting of 95 section 2.5. -/
def firState (n d len : BitVec 24) (tapRe tapIm remRe remIm inRe inIm : List Word) : State :=
  { State.reset with
    fir := { FirBank.reset with
      order := n, decim := d, olen := len, inRe := 0x1000#32, inIm := 0x1100#32, outRe := 0x1200#32
      outIm := 0x1300#32, tapRe := entriesOf tapRe, tapIm := entriesOf tapIm, remRe := entriesOf remRe
      remIm := entriesOf remIm }
    dmem := memWords (memWords [] 0x1000 inRe) 0x1100 inIm }

/-- FR1: three taps 1, 2, 3, remainder 0.5, 0.25, input 4, 5, 6. -/
def fr1 : State :=
  firState 3 1 2 [0x3F800000, 0x40000000, 0x40400000, 0x41200000] [] [0x3F000000, 0x3E800000] []
    [0x40800000, 0x40A00000, 0x40C00000] []

/-- FR22: both channels of the remainder and of the input. -/
def fr22 (len : BitVec 24) : State :=
  firState 3 1 len [] [] [0x3F000000, 0x3E800000] [0x3F400000, 0x3FC00000]
    [0x40800000, 0x40A00000, 0x40C00000] [0x40E00000, 0x41000000, 0x41100000]

/-- FR6: one complex tap (1, 2) and input (3, 4). -/
def fr6 : State := firState 1 1 1 [0x3F800000] [0x40000000] [] [] [0x40400000] [0x40800000]

/-- A mixer with C = 4 whose row 0 entry 0xC0 and row 1 entry 0xC0 hold (0.5, +0.0) and (+0.0, 0.5) (95 S4). -/
def mixState (ilv : Bool) (base len : BitVec 24) (bs : List Byte) : State :=
  { State.reset with
    mix := { MixBank.reset with
      signed := true, ilv := ilv, freq := 1, rate := 4, coslen := 4, base := base, olen := len, inAddr := 0x400#32
      outRe := 0x500#32, outIm := 0x600#32, lutValid := true
      lutRe := [(0x0C0, .written 0x3F000000#32), (0x1C0, .written 0#32)]
      lutIm := [(0x0C0, .written 0#32), (0x1C0, .written 0x3F000000#32)] }
    dmem := memBytes [] 0x400 bs }

/-- The demodulator setting of 95 section 2.6 (DM13): iO = 1, history (1, 0), inputs (5, 5), (0, 1), (-1, 0). -/
def demState : State :=
  { State.reset with
    dem := { DemBank.reset with
      gain := 0x3F800000#32, hre := 0x3F800000#32, ioff := 1, olen := 2, inRe := 0x2000#32, inIm := 0x2100#32
      out := 0x2200#32 }
    dmem := memWords (memWords [] 0x2000 [0x40A00000, 0x00000000, 0xBF800000]) 0x2100
      [0x40A00000, 0x3F800000, 0x00000000] }

/-! ### NOP and RESET_STATE -/

/-- EN1. -/
theorem test_nop : errorAfter .nop State.reset = some (0x00000002#32, 0#32, 0#32) := by decide +kernel
/-- DM18. -/
theorem test_resetState :
    (nextOf (exec .resetState
      { State.reset with
        fir := { FirBank.reset with remRe := [(0, .written 0x3F800000#32)] }
        dem := { DemBank.reset with hre := 0x40000000#32 } })).map
      (fun t => (entryAt t.fir.remRe 0, entryAt t.fir.remIm 14, t.dem.hre)) =
      some (.written 0#32, .written 0#32, 0#32) := by decide +kernel

/-! ### Converter -/

/-- CV4: signed byte 127 has index 0xFF. -/
theorem test_convElem_signed :
    wordAfter (.convElem 0) (convState true false 1 [0x7F]) 0x200 = some 0x3F7E0000#32 := by decide +kernel
/-- CV9: interleaved odd position. -/
theorem test_convElem_interleaved :
    (wordAfter (.convElem 3) (convState false true 4 [0x00, 0xFF, 0x80, 0x81]) 0x304,
      wordAfter (.convElem 3) (convState false true 4 [0x00, 0xFF, 0x80, 0x81]) 0x204) =
      (some 0x3C000000#32, some 0#32) := by decide +kernel
/-- CV2. -/
theorem test_convBlock_signed :
    [0x200, 0x204, 0x208].map (wordAfter .convBlock (convState true false 3 [0x00, 0x80, 0xFF])) =
      [some 0#32, some 0xBF800000#32, some 0xBC000000#32] := by decide +kernel
/-- CV17: both interleaved outputs at one address. -/
theorem test_convBlock_overlap :
    errorAfter .convBlock
      { convState false true 2 [0x00, 0xFF] with
        conv := { (convState false true 2 []).conv with outIm := 0x200#32 } } =
      some (0x00000904#32, 0x00000009#32, 0x00000200#32) := by decide +kernel

/-! ### Mixer -/

/-- MX3's form: element 1 uses phase step 1. -/
theorem test_mixElem :
    (wordAfter (.mixElem 1) (mixState false 0 4 [0x40, 0x40]) 0x504,
      wordAfter (.mixElem 1) (mixState false 0 4 [0x40, 0x40]) 0x604) =
      (some 0#32, some 0x3F000000#32) := by decide +kernel
/-- MX19. -/
theorem test_mixElem_stale :
    errorAfter (.mixElem 0)
      { State.reset with mix := { MixBank.reset with coslen := 4, olen := 1 } } =
      some (0x00000604#32, 0x00000010#32, 0#32) := by decide +kernel
/-- MX6: a phase of 4 acts as 0. -/
theorem test_mixBlock :
    [0x500, 0x504, 0x600, 0x604].map (wordAfter .mixBlock (mixState false 4 2 [0x40, 0x40])) =
      [some 0x3F000000#32, some 0#32, some 0#32, some 0x3F000000#32] := by decide +kernel
/-- MX5: interleaved, both bytes of sample 0 at phase 0. -/
theorem test_mixBlock_interleaved :
    [0x500, 0x504, 0x600, 0x604].map (wordAfter .mixBlock (mixState true 0 4 [0x40, 0x40, 0x40, 0x40])) =
      [some 0x3F000000#32, some 0#32, some 0#32, some 0x3F000000#32] := by decide +kernel
/-- MX20. -/
theorem test_mixGenlut_badRate :
    errorAfter .mixGenlut { State.reset with mix := { MixBank.reset with coslen := 4 } } =
      some (0x00000504#32, 0x00000012#32, 0#32) := by decide +kernel
/-- MX8's setting with two rows: MIX_FREQ = -1, MIX_RATE = 4. -/
def lutState : State :=
  { State.reset with mix := { MixBank.reset with signed := true, freq := 0xFFFFFFFF#32, rate := 4, coslen := 2 } }

/-- MX8: MIX_GENLUT completes and sets LUT_VALID (STATUS 0x0000000A). -/
theorem test_mixGenlut_status : (nextOf (exec .mixGenlut lutState)).map statusWord = some 0x0000000A#32 := by
  decide +kernel
/-- MX8: the entry of phase step 1 and byte index 0xC0 is LUTGEN's, MIX_FREQ read as signed. -/
theorem test_mixGenlut_entry :
    mlutIm (complete (generateLut lutState)) 0x1C0 = (Config.lutgen true (-1) 4 1 0xC0).2 := by
  have h : (0x1C0 : Nat) < 256 * lutState.mix.coslen.toNat := by decide
  simp only [mlutIm, complete_mix, generateLut_mix, entryAt_fill, if_pos h, entryValue_written]
  rfl
/-- MX11 and MX12. -/
theorem test_mixAdvance :
    [(3, 6), (5, 0)].map (fun c => (nextOf (exec (.mixAdvance c.2) (mixState false (BitVec.ofNat 24 c.1) 0 []))).map
      (fun t => t.mix.base)) = [some 1#24, some 1#24] := by decide +kernel
/-- MX13 and MX14. -/
theorem test_mixRefresh :
    [false, true].map (fun ilv => (nextOf (exec .mixRefresh (mixState ilv 0 3 []))).map (fun t => t.mix.base)) =
      [some 3#24, some 2#24] := by decide +kernel
/-- MX16. -/
theorem test_mixReset :
    (nextOf (exec .mixReset (mixState false 3 0 []))).map (fun t => (t.mix.base, t.mix.lutValid)) =
      some (0#24, true) := by decide +kernel

/-! ### FIR -/

/-- FR5. -/
theorem test_firRcElem :
    [0x1200, 0x1300].map (wordAfter (.firRcElem 0) (firState 1 1 1 [0x40000000] [] [] [] [0x3FC00000] [0xBF000000])) =
      [some 0x40400000#32, some 0xBF800000#32] := by decide +kernel
/-- FR1 and FR2. -/
theorem test_firRrElem :
    (wordAfter (.firRrElem 0) fr1 0x1200, wordAfter (.firRrElem 1) fr1 0x1204) =
      (some 0x41500000#32, some 0x41BA0000#32) := by decide +kernel
/-- FR18. -/
theorem test_firRrElem_badOrder :
    errorAfter (.firRrElem 0) { State.reset with fir := { FirBank.reset with olen := 1 } } =
      some (0x00000204#32, 0x00000021#32, 0#32) := by decide +kernel
/-- FR6. -/
theorem test_firCcElem :
    [0x1200, 0x1300].map (wordAfter (.firCcElem 0) fr6) = [some 0xC0A00000#32, some 0x41200000#32] := by
  decide +kernel
/-- FR13: a zero tap part against an infinity. -/
theorem test_firCcElem_nan :
    [0x1200, 0x1300].map
      (wordAfter (.firCcElem 0) (firState 1 1 1 [0x3F800000] [0] [] [] [0x3F800000] [0x7F800000])) =
      [some 0x7FC00000#32, some 0x7F800000#32] := by decide +kernel
/-- 43 R246: the RC example as a block. -/
theorem test_firRcBlock :
    [0x1200, 0x1300].map (wordAfter .firRcBlock (firState 1 1 1 [0x40000000] [] [] [] [0x3FC00000] [0xBF000000])) =
      [some 0x40400000#32, some 0xBF800000#32] := by decide +kernel
/-- FR32. -/
theorem test_firRcBlock_overlap :
    errorAfter .firRcBlock { fr6 with fir := { fr6.fir with outIm := 0x1200#32 } } =
      some (0x00000904#32, 0x00000024#32, 0x00001200#32) := by decide +kernel
/-- FR4: the literal bound, K = N + 1. -/
theorem test_firRrBlock_xtap :
    [0x1200, 0x1204].map (wordAfter .firRrBlock { fr1 with fir := { fr1.fir with xtap := true } }) =
      [some 0x427C0000#32, some 0x42A68000#32] := by decide +kernel
/-- FR31: with XTAP = 1 the window reaches one sample further and leaves DMEM. -/
theorem test_firRrBlock_range :
    errorAfter .firRrBlock
      { fr1 with fir := { fr1.fir with xtap := true, order := 2, inRe := 0xFFF8#32 } } =
      some (0x00000804#32, 0x00000025#32, 0x0000FFF8#32) := by decide +kernel
/-- 43 R248: the CC example as a block. -/
theorem test_firCcBlock :
    [0x1200, 0x1300].map (wordAfter .firCcBlock fr6) = [some 0xC0A00000#32, some 0x41200000#32] := by decide +kernel
/-- FR22. -/
theorem test_firRefreshC :
    (nextOf (exec .firRefreshC (fr22 2))).map (fun t => (t.fir.remRe, t.fir.remIm)) =
      some (entriesOf [0x40800000, 0x40A00000], entriesOf [0x40E00000, 0x41000000]) := by decide +kernel
/-- FR23: F = -1, so the old newest sample stays. -/
theorem test_firRefreshC_short :
    (nextOf (exec .firRefreshC (fr22 1))).map (fun t => (t.fir.remRe, t.fir.remIm)) =
      some (entriesOf [0x3E800000, 0x40800000], entriesOf [0x3FC00000, 0x40E00000]) := by decide +kernel
/-- FR24. -/
theorem test_firRefreshR :
    (nextOf (exec .firRefreshR (fr22 2))).map (fun t => (t.fir.remRe, t.fir.remIm)) =
      some (entriesOf [0x40800000, 0x40A00000], entriesOf [0x3F400000, 0x3FC00000]) := by decide +kernel
/-- 70 R342: the refresh copy of a not-written entry is not written, and keeps that entry's pattern. -/
theorem test_firRefreshR_notWritten :
    (nextOf (exec .firRefreshR (firState 3 1 1 [] [] [0x3F000000] [] [0x40800000] []))).map
      (fun t => (entryAt t.fir.remRe 0, entryAt t.fir.remRe 1)) =
      some (.unspecified 1, .written 0x40800000#32) := by decide +kernel
/-- FR28. -/
theorem test_firClear :
    (nextOf (exec .firClear (fr22 1))).map (fun t => (entryAt t.fir.remRe 0, entryAt t.fir.remIm 14)) =
      some (.written 0#32, .written 0#32) := by decide +kernel

/-! ### Demodulator -/

/-- DM13: element 0 uses the history, not input sample 0; both elements have the conjugate product (+0.0, 1.0). -/
theorem test_demElem_product :
    [0, 1].map (fun i => (conjMulRe (demInRe demState (1 + i)) (demInIm demState (1 + i)) (demPrevRe demState i)
        (demPrevIm demState i), conjMulIm (demInRe demState (1 + i)) (demInIm demState (1 + i)) (demPrevRe demState i)
        (demPrevIm demState i))) = [(0#32, 0x3F800000#32), (0#32, 0x3F800000#32)] := by decide +kernel
/-- DM20. -/
theorem test_demElem_align :
    errorAfter (.demElem 0) { demState with dem := { demState.dem with inIm := 0xFFFE#32 } } =
      some (0x00000704#32, 0x00000030#32, 0x0000FFFE#32) := by decide +kernel
/-- DM19. -/
theorem test_demBlock_overlap :
    errorAfter .demBlock { demState with dem := { demState.dem with out := 0x2104#32 } } =
      some (0x00000904#32, 0x00000031#32, 0x00002104#32) := by decide +kernel
/-- DM14. -/
theorem test_demSave :
    (nextOf (exec .demSave demState)).map (fun t => (t.dem.hre, t.dem.him)) = some (0xBF800000#32, 0#32) := by
  decide +kernel
/-- DM17. -/
theorem test_demReset :
    (nextOf (exec .demReset demState)).map (fun t => (t.dem.hre, t.dem.him)) = some (0#32, 0#32) := by decide +kernel

/-! ### The host port, errors and the interrupt -/

/-- The state after a host move, and its reply. -/
def afterMove (m : HostMove) (s : State) : Option (Reply × Word × Word × Word) :=
  (nextOf (hostMove m s)).map fun t => (t.reply, statusWord t, t.errInfo, t.errAddr)

/-- RP12. -/
theorem test_port_tapOutOfRange :
    afterMove (.regRead 0x32C#12 4) { State.reset with fir := { FirBank.reset with tidx := 17 } } =
      some (.value 0#32, 0x00000A04#32, 0x0000032C#32, 0x00000011#32) := by decide +kernel
/-- RP14. -/
theorem test_port_remOutOfRange :
    afterMove (.regWrite 0x338#12 4 0x3F800000#32) { State.reset with fir := { FirBank.reset with ridx := 15 } } =
      some (.completed, 0x00000A04#32, 0x00000338#32, 0x0000000F#32) := by decide +kernel
/-- RP7: an access at no multiple of 4. -/
theorem test_port_misaligned :
    afterMove (.regRead 0x012#12 4) { State.reset with doneIe := true } = some (.value 0#32, 0#32, 0#32, 0#32) := by
  decide +kernel
/-- RP5: only 24 bits are stored. -/
theorem test_port_mixBase :
    (nextOf (hostMove (.regWrite 0x210#12 4 0xFFFFFFFF#32) State.reset)).map (fun t => regValue t .mixBase) =
      some 0x00FFFFFF#32 := by decide +kernel
/-- RP19 and RP20: LUT_VALID and the two bits of MIX_CTRL. -/
theorem test_port_mixCtrl :
    [3, 0].map (fun v => (nextOf (hostMove (.regWrite 0x200#12 4 v) (mixState false 0 0 []))).map
      (fun t => t.mix.lutValid)) = [some true, some false] := by decide +kernel
/-- RP11: bit 1 written 0 leaves DONE. -/
theorem test_port_statusW1C :
    (nextOf (hostMove (.regWrite 0x014#12 4 4) { State.reset with done := true, error := some .align })).map
      statusWord = some 0x00000002#32 := by decide +kernel
/-- EN2: an illegal word raises ILLEGAL_CMD. -/
theorem test_step_illegal :
    (nextOf (step (State.reset.withFetchWord 32 0x100))).map (fun t => (statusWord t, t.errInfo)) =
      some (0x00000104#32, 0x00000100#32) := by decide +kernel
/-- ER1: a CMD write while ERR = 1 is discarded. -/
theorem test_step_discard :
    (nextOf (step { State.reset with error := some .illegalCmd, host := [issue .nop] })).map
      (fun t => (statusWord t, t.pending)) = some (0x00000104#32, none) := by decide +kernel
/-- A queued register write waits for the pending command (10 R69). -/
theorem test_step_waits :
    (nextOf (step { State.reset with pending := some 0#32, host := [wr 0x010#12 3] })).map
      (fun t => (t.done, t.host.length)) = some (true, 1) := by decide +kernel
/-- The state after n steps, if each answers a next state. -/
def after (n : Nat) (s : State) : Option State :=
  match n with
  | 0 => some s
  | n + 1 => (nextOf (step s)).bind (after n)

/-- 30 R139: with no command pending WAIT stops at its first read, BUSY = 0, however many early reads it has. -/
theorem test_wait_stops :
    (after 1 { State.reset with host := expand (.wait 2) }).map (fun t => (t.host, t.reply)) =
      some ([], .value 0#32) := by decide +kernel
/-- 30 R139: with NOP pending and one early read, WAIT reads BUSY = 1, the command completes, and the read after it,
BUSY = 0 and DONE = 1, ends the loop. -/
theorem test_wait_repeats :
    [1, 2, 3].map (fun n => (after n { State.reset with pending := some 0#32, host := expand (.wait 1) }).map
      (fun t => (t.reply, t.host.length))) =
      [some (.value 1#32, 1), some (.value 1#32, 1), some (.value 2#32, 0)] := by decide +kernel
/-- 20 R112: a host read of a byte CONV_ELEM 2 writes is a race, one of a byte it reads or does not use is not. -/
theorem test_race_hostRead :
    [0x20B, 0x102, 0x204].map (fun a => (nextOf (hostMove (.memRead8 a)
      { convState false false 3 [0x00, 0x80, 0xFF] with pending := some 0x208#32 })).map (fun t => t.raced)) =
      [some [0x20B], some [], some []] := by decide +kernel
/-- 20 R112: a host write of a byte CONV_ELEM 2 reads or writes is a race. -/
theorem test_race_hostWrite :
    [0x20B, 0x102, 0x204].map (fun a => (nextOf (hostMove (.memWrite8 a 1)
      { convState false false 3 [0x00, 0x80, 0xFF] with pending := some 0x208#32 })).map (fun t => t.raced)) =
      [some [0x20B], some [0x102], some []] := by decide +kernel
/-- 20 R112: an output element with a raced byte is a free word. -/
theorem test_race_result (a : Nat) (h : 0x208 ≤ a ∧ a < 0x20C) (v : Word) :
    racedWord { convState false false 3 [] with raced := [a] } [{ addr := 0x208, len := 4 }] 0 v =
      Config.freeWord 0 := by
  simp [racedWord, spanCovers, h.1, h.2, convState, State.reset]

/-- ER6: the interrupt of an error. -/
theorem test_irq_error : irq { State.reset with errIe := true, error := some .align } = true := by decide

/-! ### Witnesses: the hypotheses of each statement of Certificates/Slice0/Obligations.lean are met -/

open Sys2Proof.Claims

/-- IllegalWordsRaise: a class Z opcode with the least and with the greatest nonzero IMM, the first and the last
undefined opcode, and a legal word with the greatest IMM. -/
theorem test_hyp_illegalWords :
    IllegalWord 0x00000100#32 ∧ IllegalWord 0xFFFFFF33#32 ∧ IllegalWord 0x00000002#32 ∧ IllegalWord 0x000000FF#32 ∧
      ¬IllegalWord 0xFFFFFF08#32 := by
  refine ⟨?_, ?_, ?_, ?_, ?_⟩ <;> decide +kernel

/-- EncodeOfDecode. -/
theorem test_hyp_encodeOfDecode : decode 0xFFFFFF30#32 = .ok (.demElem 16777215) := by rfl

/-- A converter element 2 pending, the host's next move waiting. -/
def pendingState : State :=
  { convState false false 3 [0x00, 0x80, 0xFF] with pending := some 0x00000208#32, host := [wr 0x010#12 3] }

/-- StepRunsPendingCommand: a move that waits, marked early or not, a move that need not wait but is not early, and a
WAIT with no early read. -/
theorem test_hyp_stepRuns :
    pendingState.pending = some 0x208#32 ∧ decode 0x208#32 = .ok (.convElem 2) ∧ HostWaits pendingState ∧
      HostWaits { pendingState with host := [.once true (.regWrite 0x010#12 4 3#32)] } ∧
      HostWaits { pendingState with host := [inTurn (.memRead 0)] } ∧
      HostWaits { pendingState with host := expand (.wait 0) } := by
  refine ⟨rfl, rfl, ?_, ?_, ?_, ?_⟩ <;> decide +kernel

/-- StepMakesHostMove: each form of the queue, with no command pending and with one. -/
theorem test_hyp_stepMakesHostMove :
    State.reset.pending = none ∧ State.reset.host = [] ∧ pendingState.pending.isSome = true ∧
      ({ State.reset with host := [wr 0x010#12 3] } : State).host = .once false (.regWrite 0x010#12 4 3#32) :: [] ∧
      ({ State.reset with host := expand (.wait 2) } : State).host = .wait 2 :: [] ∧
      [HostMove.regRead 0x014#12 4, .memWrite 0 1#32, .memWrite8 0 1#8, .memRead 0, .memRead8 0, .reset,
        .observeIrq].all needNotWait = true := by decide +kernel

/-- RegisterAccessWaits: a write, the 2-byte read of STATUS and the 4-byte read of another register. -/
theorem test_hyp_registerAccessWaits :
    pendingState.pending = some 0x208#32 ∧ NextMove pendingState (.regWrite 0x010#12 4 3#32) ∧
      NextMove { pendingState with host := [rd 0x018#12] } (.regRead 0x018#12 4) ∧
      NextMove { pendingState with host := [inTurn (.regRead 0x014#12 2)] } (.regRead 0x014#12 2) := by decide +kernel

/-- InvalidIndexIsNoop, EmptyBlockIsNoop: O = L = 1, the boundary, in every bank; DEM_SAVE with L = 0. -/
def emptyState : State :=
  { State.reset with
    conv := { ConvBank.reset with ooff := 1, olen := 1 }
    mix := { MixBank.reset with ooff := 1, olen := 1 }
    fir := { FirBank.reset with ooff := 1, olen := 1 }
    dem := { DemBank.reset with ooff := 1, olen := 1 } }

theorem test_hyp_noops :
    emptyState.conv.olen.toNat ≤ 0 + emptyState.conv.ooff.toNat ∧
      emptyState.mix.olen.toNat ≤ 0 + emptyState.mix.ooff.toNat ∧
      emptyState.fir.olen.toNat ≤ 0 + emptyState.fir.ooff.toNat ∧
      emptyState.dem.olen.toNat ≤ 0 + emptyState.dem.ooff.toNat ∧ State.reset.dem.olen.toNat = 0 := by decide

/-- FirConfigurationErrors: N = 0, N = FIR_MAX_ORDER + 1, and N = FIR_MAX_ORDER with D = 0, each with one valid
output. -/
theorem test_hyp_firConfiguration :
    (0#24).toNat = 0 ∧ (firState 17 1 1 [] [] [] [] [] []).params.firMaxOrder < (17#24).toNat ∧
      1 ≤ (16#24).toNat ∧ (16#24).toNat ≤ (firState 16 0 1 [] [] [] [] [] []).params.firMaxOrder ∧
      0 + (firState 16 0 1 [] [] [] [] [] []).fir.ooff.toNat < (firState 16 0 1 [] [] [] [] [] []).fir.olen.toNat := by
  decide

/-- MixCoslenErrors: C = 0 and C = MIX_COSLEN_MAX + 1 with a valid index; MixRateAndStaleErrors: C = MIX_COSLEN_MAX,
rate 0, LUT_VALID 0. -/
theorem test_hyp_mixConfiguration :
    (0#24).toNat = 0 ∧ State.reset.params.mixCoslenMax < (65#24).toNat ∧
      CoslenLegal { State.reset with mix := { MixBank.reset with coslen := 64, olen := 1 } } ∧
      CoslenLegal { State.reset with mix := { MixBank.reset with coslen := 1, olen := 1 } } ∧
      MixBank.reset.rate = 0#32 ∧ MixBank.reset.lutValid = false := by decide

/-- Every buffer of the command passes its tests. -/
abbrev BuffersPass (i : Instr) (s : State) : Prop := ∀ b ∈ listed i s, BufferPasses s.params.dmemSize b

/-- BufferErrors: for DEM_ELEM 0 the second buffer fails ALIGN after the first, whose last sample ends where DMEM ends,
passes; the third fails MEM_RANGE by one word; CONV_BLOCK's byte buffer fails MEM_RANGE by one byte. -/
theorem test_hyp_buffers :
    let s : State := { demState with dem := { demState.dem with inRe := 0xFFF8#32, inIm := 0x2102#32 } }
    ReachesBuffers (.demElem 0) s ∧
      listed (.demElem 0) s = [floatsIn 0xFFF8#32 1 1] ++ floatsIn 0x2102#32 1 1 :: [floatsOut 0x2200#32 0 0] ∧
      BufferPasses 0x10000 (floatsIn 0xFFF8#32 1 1) ∧ BufferFails 0x10000 (floatsIn 0x2102#32 1 1) .align ∧
      BufferPasses 0x10000 (floatsOut 0xFFFC#32 0 0) ∧ BufferFails 0x10000 (floatsOut 0xFFFC#32 0 1) .memRange ∧
      BufferPasses 0x10000 (bytesIn 0xFFFE#32 0 1) ∧ BufferFails 0x10000 (bytesIn 0xFFFE#32 0 2) .memRange := by
  unfold ReachesBuffers listed
  decide +kernel

/-- OverlapErrors: FIR_RC_BLOCK with both outputs at one address, the first of them raising; and FIR_RR_BLOCK with the
output in the last input word, and one word further on, where it meets nothing. -/
theorem test_hyp_overlap :
    let s : State := { fr6 with fir := { fr6.fir with outIm := 0x1200#32 } }
    let rr (out : Word) : State := { fr1 with fir := { fr1.fir with outRe := out } }
    (ReachesBuffers .firRcBlock s ∧ BuffersPass .firRcBlock s ∧
      listed .firRcBlock s = [floatsIn 0x1000#32 0 0, floatsIn 0x1100#32 0 0] ++ floatsOut 0x1200#32 0 0 ::
        [floatsOut 0x1200#32 0 0] ∧ Meet (floatsOut 0x1200#32 0 0) (floatsOut 0x1200#32 0 0)) ∧
      (ReachesBuffers .firRrBlock (rr 0x1004) ∧ BuffersPass .firRrBlock (rr 0x1004) ∧
        listed .firRrBlock (rr 0x1004) = [floatsIn 0x1000#32 0 1] ++ floatsOut 0x1004#32 0 1 :: [] ∧
        Meet (floatsOut 0x1004#32 0 1) (floatsIn 0x1000#32 0 1)) ∧
      ¬Meet (floatsOut 0x1008#32 0 1) (floatsIn 0x1000#32 0 1) := by
  unfold BuffersPass ReachesBuffers listed
  refine ⟨⟨?_, ?_, ?_, ?_⟩, ⟨?_, ?_, ?_, ?_⟩, ?_⟩ <;> decide +kernel

/-- An output buffer that meets nothing stands before the one OverlapErrors names: FIR_RC_BLOCK whose imaginary output
lies in its imaginary input. -/
theorem test_hyp_overlapLater :
    let s : State := { fr6 with fir := { fr6.fir with outIm := 0x1100#32 } }
    BuffersPass .firRcBlock s ∧
      listed .firRcBlock s = [floatsIn 0x1000#32 0 0, floatsIn 0x1100#32 0 0, floatsOut 0x1200#32 0 0] ++
        floatsOut 0x1100#32 0 0 :: [] ∧ Meet (floatsOut 0x1100#32 0 0) (floatsIn 0x1100#32 0 0) ∧
      ∀ x ∈ [floatsIn 0x1000#32 0 0, floatsIn 0x1100#32 0 0, floatsOut 0x1100#32 0 0],
        ¬Meet (floatsOut 0x1200#32 0 0) x := by
  unfold BuffersPass listed
  refine ⟨?_, ?_, ?_, ?_⟩ <;> decide +kernel

/-- PhaseAdvances, GenlutFillsRows. -/
theorem test_hyp_phase :
    CoslenLegal (mixState true 3 3 []) ∧ CoslenLegal lutState ∧ lutState.mix.rate ≠ 0#32 := by decide +kernel

/-- RefreshCopiesSamples: F = 0, F = -1, and N = 1 with nothing to copy. -/
theorem test_hyp_refresh :
    Executes .firRefreshC (fr22 2) ∧ Executes .firRefreshR (fr22 2) ∧ Executes .firRefreshC (fr22 1) ∧
      Executes .firRefreshR (fr22 0) ∧ Executes .firRefreshC fr6 := by
  unfold Executes ReachesBuffers listed
  refine ⟨?_, ?_, ?_, ?_, ?_⟩ <;> decide +kernel

/-- DemSaveCapturesLastSample, DemElemWritesPhase (elements 0 and 1), DemBlockWritesPhases. -/
theorem test_hyp_dem :
    Executes .demSave demState ∧ Executes (.demElem 0) demState ∧ Executes (.demElem 1) demState ∧
      Executes .demBlock demState := by
  unfold Executes ReachesBuffers listed
  refine ⟨?_, ?_, ?_, ?_⟩ <;> decide +kernel

/-- ConvElemWritesLutEntry and ConvBlockWritesEveryPosition, not interleaved, interleaved, and interleaved with M = 1;
the last valid element. -/
theorem test_hyp_conv :
    Executes (.convElem 2) (convState false false 3 [0, 0x80, 0xFF]) ∧
      Executes (.convElem 3) (convState false true 4 []) ∧
      Executes .convBlock (convState true false 3 []) ∧ Executes .convBlock (convState true true 3 []) ∧
      Executes .convBlock (convState true true 1 []) := by
  unfold Executes ReachesBuffers listed
  refine ⟨?_, ?_, ?_, ?_, ?_⟩ <;> decide +kernel

/-- The raced clause of the result statements: a byte read and an output byte of CONV_ELEM 2, a sample byte of both
outputs of FIR_CC_ELEM, the previous sample of DEM_ELEM 1 and a byte DEM_SAVE copies. -/
theorem test_hyp_raced :
    convUses (convState false false 3 []) 2 0x102 ∧ InWord (convTarget (convState false false 3 []) 2) 0x20B ∧
      firUses fr6 fr6.fir.inIm 0 0x1103 ∧ demUses demState 1 0x2107 ∧
      InWord (saveAddr demState 0x2000#32) 0x200B := by
  unfold convUses firUses demUses
  refine ⟨by decide, by decide, ⟨0, ?_⟩, ⟨demState.dem.inIm, ?_, ?_⟩, ?_⟩
  · decide +kernel
  · exact List.mem_cons_of_mem _ (List.mem_cons_self ..)
  · decide +kernel
  · decide +kernel

/-- MixElemWritesLutEntries and MixBlockWritesEveryPosition, not interleaved and interleaved. -/
theorem test_hyp_mix :
    Executes (.mixElem 3) (mixState false 0 4 []) ∧ Executes (.mixElem 2) (mixState true 0 4 []) ∧
      Executes (.mixElem 3) (mixState true 0 4 []) ∧ Executes .mixBlock (mixState false 5 4 []) ∧
      Executes .mixBlock (mixState true 5 3 []) := by
  unfold Executes ReachesBuffers listed
  refine ⟨?_, ?_, ?_, ?_, ?_⟩ <;> decide +kernel

/-- FirRrElemWritesSum, FirRrBlockWritesSums, with both tap bounds. -/
theorem test_hyp_firReal :
    Executes (.firRrElem 1) fr1 ∧ Executes (.firRrElem 1) { fr1 with fir := { fr1.fir with xtap := true } } ∧
      Executes .firRrBlock fr1 ∧ Executes .firRrBlock { fr1 with fir := { fr1.fir with xtap := true } } := by
  unfold Executes ReachesBuffers listed
  refine ⟨?_, ?_, ?_, ?_⟩ <;> decide +kernel

/-- FirComplexElemsWriteSums, with coinciding outputs too, and FirComplexBlocksWriteSums. -/
theorem test_hyp_firComplex :
    Executes (.firRcElem 1) (fr22 2) ∧ Executes (.firCcElem 1) (fr22 2) ∧
      Executes (.firRcElem 1) { fr22 2 with fir := { (fr22 2).fir with outIm := 0x1200#32 } } ∧
      Executes .firRcBlock (fr22 2) ∧ Executes .firCcBlock (fr22 2) := by
  unfold Executes ReachesBuffers listed
  refine ⟨?_, ?_, ?_, ?_, ?_⟩ <;> decide +kernel

/-- HostDmemWrites, HostDmemReads: the last word and the last byte of DMEM, and the first addresses that stop. -/
theorem test_hyp_hostDmem :
    0xFFFC + 4 ≤ State.reset.params.dmemSize ∧ State.reset.params.dmemSize < 0xFFFD + 4 ∧
      0xFFFF < State.reset.params.dmemSize ∧ State.reset.params.dmemSize ≤ 0x10000 := by decide

/-- HostDmemWrites, HostDmemReads, ResetAbandonsCommand: a pending command that executes, a byte it reads and one it
writes; its one element is not written again. -/
theorem test_hyp_willExecute :
    WillExecute pendingState (.convElem 2) ∧ PendingReads pendingState 0x102 ∧ PendingWrites pendingState 0x20B ∧
      targets (.convElem 2) pendingState = [] ++ 0x208 :: [] := by
  have h : WillExecute pendingState (.convElem 2) := by
    refine ⟨0x208#32, rfl, rfl, ?_⟩
    unfold Executes ReachesBuffers listed
    decide +kernel
  exact ⟨h, ⟨_, h, by unfold uses convUses; decide +kernel⟩, ⟨_, h, by unfold targets; decide +kernel⟩,
    by unfold targets; decide +kernel⟩

/-- ResetAbandonsCommand: nothing pending, and an illegal word. -/
theorem test_hyp_notExecuting :
    (∀ i, ¬WillExecute State.reset i) ∧ ∀ i, ¬WillExecute { State.reset with pending := some 0x100#32 } i := by
  refine ⟨fun i h => ?_, fun i h => ?_⟩
  · obtain ⟨w, hw, -⟩ := h
    exact nomatch hw
  · obtain ⟨w, hw, hd, -⟩ := h
    obtain rfl : (0x100#32 : Word) = w := Option.some.inj hw
    rw [show decode 0x100#32 = .error (.immediateNotZero 0x00#8) from rfl] at hd
    exact nomatch hd

/-- StoringCommandsFrame, FirWritesNoOutputPastLength: every storing command answers a next state. -/
theorem test_hyp_storing :
    ∀ i ∈ [Instr.convElem 0, .mixElem 0, .firRcElem 0, .firRrElem 0, .firCcElem 0, .demElem 0] ++ blocks,
      (nextOf (exec i fr1)).isSome = true := by decide +kernel

/-- MaintenanceCommandsFrame, NoCommandWritesConfiguration: and so does every other command. -/
theorem test_hyp_maintenance :
    ∀ i ∈ [Instr.nop, .resetState, .mixRefresh, .mixReset, .firRefreshC, .firRefreshR, .firClear, .demSave, .demReset,
      .mixAdvance 6], (nextOf (exec i { fr1 with mix := (mixState false 3 0 []).mix })).isSome = true := by
  decide +kernel

/-- StepKeepsInvariant: a state with DMEM, a LUT and a pending command. -/
theorem test_hyp_inv : pendingState.Inv ∧ (nextOf (step pendingState)).isSome = true := by
  refine ⟨?_, ?_⟩
  · unfold State.Inv; decide +kernel
  · decide +kernel

/-- StepKeepsLutCurrent: LUT_VALID is 1. -/
theorem test_hyp_lutCurrent :
    (generateLut lutState).LutCurrent ∧ (generateLut lutState).mix.lutValid = true ∧
      step (generateLut lutState) = .next (generateLut lutState) := by
  refine ⟨fun _ => ⟨by decide, fun k hk => ?_⟩, by decide, by rfl⟩
  have h : k < 256 * lutState.mix.coslen.toNat := hk
  simp only [generateLut_mix, entryAt_fill, if_pos h, lutgenAt, and_self]

/-- LutValidChangesOnlyAsRuled: MIX_GENLUT sets it; a MIX_FREQ write, a SIGNED change and a reset clear it. -/
theorem test_hyp_lutValid :
    (lutState.mix.lutValid = false ∧
      (nextOf (step { lutState with pending := some 0x12#32 })).map (fun t => t.mix.lutValid) = some true) ∧
    ∀ m ∈ [HostMove.regWrite 0x204#12 4 1#32, .regWrite 0x200#12 4 0#32, .reset],
      (mixState false 0 0 []).mix.lutValid = true ∧
        (nextOf (step { mixState false 0 0 [] with host := [inTurn m] })).map (fun t => t.mix.lutValid) =
          some false := by decide +kernel

/-- ErrorAndDoneKept: an error kept by a discarded command, and one cleared. -/
theorem test_hyp_errorAndDone :
    let s : State := { State.reset with error := some .align, done := true, host := [issue .nop] }
    s.CommandOk ∧ s.error = some .align ∧ s.done = true ∧ (nextOf (step s)).isSome = true ∧
      (nextOf (step { s with host := [wr 0x014#12 6] })).map (fun t => (t.error, t.done)) = some (none, false) := by
  decide +kernel

/-- BlockOrderDoesNotMatter: a block of two elements executes, and they can be taken in reverse. -/
theorem test_hyp_blockOrder :
    Instr.firRrBlock ∈ blocks ∧ Executes .firRrBlock fr1 ∧ fr1.raced = [] ∧
      (planOf .firRrBlock fr1).stores.reverse.Perm (planOf .firRrBlock fr1).stores :=
  ⟨by decide, test_hyp_firReal.2.2.1, rfl, List.reverse_perm _⟩

/-- The second block of a stream whose first block is `fr22 1`'s: its input starts one sample further on. -/
def secondBlock : State :=
  { fr22 2 with fir := { (fr22 2).fir with inRe := 0x1004#32, remRe := refreshedRe (fr22 1) } }

/-- FirContinuity: a stream split after one output; output 1 of the second block. -/
theorem test_hyp_continuity :
    let long := fr22 3
    let first : State := { long with fir := { long.fir with olen := 1#24 } }
    long.fir.xtap = false ∧ long.fir.ioff = 0#24 ∧ long.fir.ooff = 0#24 ∧ long.raced = [] ∧
      Executes .firRefreshR first ∧ (∃ t, exec .firRefreshR first = .next t ∧ secondBlock.fir.remRe = t.fir.remRe) ∧
      secondBlock.resets = long.resets ∧ secondBlock.fir.xtap = false ∧ secondBlock.fir.ioff = 0#24 ∧
      secondBlock.fir.ooff = 0#24 ∧ secondBlock.fir.order = long.fir.order ∧
      secondBlock.fir.decim = long.fir.decim ∧ secondBlock.fir.tapRe = long.fir.tapRe ∧
      ∀ j ≤ 1 * long.fir.decim.toNat, memRead32 secondBlock.dmem (secondBlock.fir.inRe.toNat + 4 * j) =
        memRead32 long.dmem (long.fir.inRe.toNat + 4 * ((1#24).toNat * long.fir.decim.toNat + j)) := by
  refine ⟨rfl, rfl, rfl, rfl, ?_, ⟨_, rfl, rfl⟩, rfl, rfl, rfl, rfl, rfl, rfl, rfl, fun j _ => ?_⟩
  · unfold Executes ReachesBuffers listed
    decide +kernel
  have h : secondBlock.fir.inRe.toNat + 4 * j =
      (fr22 3).fir.inRe.toNat + 4 * ((1#24).toNat * (fr22 3).fir.decim.toNat + j) := by
    simp [secondBlock, fr22, firState]; omega
  rw [h]; rfl

/-- MixerPeriodicity: MIX_BASE 1 and 5 with C = 4. -/
theorem test_hyp_periodicity :
    (5#24).toNat = (mixState false 1 4 []).mix.base.toNat + (mixState false 1 4 []).mix.coslen.toNat := by decide

/-- NaNAndInfinityResults: a NaN operand with a payload gives a NaN result, the least and the greatest pattern of each
class, and infinities of both signs. -/
theorem test_hyp_nan :
    IsNaN (fadd 0x7F800001#32 0#32) ∧ IsNaN (fsub 0x7F800000#32 0x7F800000#32) ∧ IsNaN 0x7F800001#32 ∧
      IsNaN 0xFFFFFFFF#32 ∧ IsInfinite 0x7F800000#32 ∧ IsInfinite 0xFF800000#32 ∧ IsFinite 0xFF7FFFFF#32 ∧
      magnitude 0x80000000#32 = 0 ∧ magnitude 0x00000001#32 ≠ 0 ∧
      (0x7F800000#32 : Word).msb ≠ (0xFF800000#32 : Word).msb := by
  refine ⟨?_, ?_, ?_, ?_, ?_, ?_, ?_, ?_, ?_, ?_⟩ <;> decide +kernel

/-- RoundingIsNearestEven: the largest finite operands, whose sum rounds to an infinity; half the largest, whose
difference is an exact zero; -0.0 + -0.0; and 3/2 unit, as near to 1 unit as to 2. -/
theorem test_hyp_rounding :
    IsFinite 0x7F7FFFFF#32 ∧
      (2 ^ 25 - 1) * 2 ^ (252 + 0) ≤ (unitsOf 0x7F7FFFFF#32 + unitsOf 0x7F7FFFFF#32).natAbs ∧
      (unitsOf 0x7EFFFFFF#32 + unitsOf 0x7EFFFFFF#32).natAbs < (2 ^ 25 - 1) * 2 ^ (252 + 0) ∧
      unitsOf 0x7EFFFFFF#32 - unitsOf 0x7EFFFFFF#32 = 0 ∧ unitsOf 0x80000000#32 + unitsOf 0x80000000#32 = 0 ∧
      (unitsOf (f32Round false 3 1) * 2 ^ 1 - 3).natAbs = (unitsOf 1#32 * 2 ^ 1 - 3).natAbs := by
  refine ⟨?_, ?_, ?_, ?_, ?_, ?_⟩ <;> decide +kernel

/-- The value of a pattern as the format gives it: 1.0, the smallest subnormal, and -1.5. -/
theorem test_unitsOf :
    (unitsOf 0x3F800000#32, unitsOf 1#32, unitsOf 0xBFC00000#32) = (2 ^ 149, 1, -(3 * 2 ^ 148)) := by decide +kernel

/-- CmdWriteIssuesOrIsDiscarded. -/
theorem test_hyp_cmdWrite :
    State.reset.error = none ∧ ({ State.reset with error := some Cause.align } : State).error ≠ none := by decide

/-- IndexPortOutOfRange: every port with the least index out of range, and REM_RE with FIR_MAX_ORDER = 1;
InternalMemoryPorts: the greatest index in range. -/
theorem test_hyp_indexPorts :
    let s : State :=
      { State.reset with
        fir := { FirBank.reset with tidx := 17, ridx := 15 }, mix := { MixBank.reset with lidx := 16384#32 } }
    (∀ p ∈ ports s, p.2.2 ≤ p.2.1) ∧
      (∀ p ∈ (ports { State.reset with params := { Params.test with firMaxOrder := 1 } }).drop 2 |>.take 2,
        p.2.2 ≤ p.2.1) ∧
      (16#16 : BitVec 16).toNat ≤ s.params.firMaxOrder ∧ (14#16 : BitVec 16).toNat + 2 ≤ s.params.firMaxOrder ∧
      (16383#32 : Word).toNat < 256 * s.params.mixCoslenMax := by
  decide +kernel

/-- OtherAccessesHaveNoEffect: a narrow access, a misaligned one, and the reserved offsets next to the listed ones. -/
theorem test_hyp_otherAccesses :
    (2 ≠ 4) ∧ (0x016#12 : BitVec 12).toNat % 4 ≠ 0 ∧ ¬Listed 0x00C#12 ∧ ¬Listed 0x024#12 ∧ ¬Listed 0x3A4#12 ∧
      ¬Listed 0x3FC#12 ∧ ¬Listed 0x800#12 ∧ ¬Listed 0xFFC#12 := by
  unfold Listed
  refine ⟨?_, ?_, ?_, ?_, ?_, ?_, ?_, ?_⟩ <;> decide +kernel

/-- RegistersHoldWrittenBits, ReadOnlyRegisters, ResetValues. -/
theorem test_hyp_registers :
    (∃ r ∈ plainRegisters, r.off = 0x010#12) ∧ (∃ r ∈ plainRegisters, r.off = 0x3A0#12) ∧
      State.reset.params.Legal ∧ State.reset.pending = none := by decide +kernel

/-- FIR_IOFF and FIR_OOFF, of equal width, each hold their own field (10 R37, R61). -/
theorem test_port_firOffsets :
    [0x30C#12, 0x310#12].map (fun off => (nextOf (hostMove (.regWrite off 4 5) State.reset)).map
      (fun t => (t.fir.ioff, t.fir.ooff))) = [some (5#24, 0#24), some (0#24, 5#24)] := by decide +kernel

end Sys2Proof.Machine
end

/-! ### The state's form is kept by every step -/

namespace Sys2Proof.Machine

open Sys2Proof.Claims

/-! #### Which addresses and indexes an update can reach -/

/-- The word at `x` is an element of one of the listed float output buffers. -/
def InOutput (bs : List Buffer) (x : Nat) : Prop :=
  ∃ base kmin kmax k, floatsOut base kmin kmax ∈ bs ∧ k ≤ kmax ∧ x = base.toNat + 4 * k

theorem inOutput_of_mem {bs : List Buffer} {base : Word} {kmin kmax k : Nat} (h : floatsOut base kmin kmax ∈ bs)
    (hk : k ≤ kmax) : InOutput bs (base.toNat + 4 * k) := ⟨base, kmin, kmax, k, h, hk, rfl⟩

theorem InOutput.cons {b : Buffer} {bs : List Buffer} {x : Nat} (h : InOutput bs x) : InOutput (b :: bs) x := by
  obtain ⟨base, kmin, kmax, k, hmem, hk, hx⟩ := h
  exact ⟨base, kmin, kmax, k, List.mem_cons_of_mem b hmem, hk, hx⟩

/-- An element of an output buffer that passes its test is within DMEM (40 R164). -/
theorem InOutput.within {bs : List Buffer} {x size : Nat} (h : InOutput bs x) (hb : ∀ b ∈ bs, BufferPasses size b) :
    x + 3 < size := by
  obtain ⟨base, kmin, kmax, k, hmem, hk, rfl⟩ := h
  have hend : base.toNat + 4 * kmax + 4 ≤ size := (hb _ hmem).2
  omega

/-- An even position of an interleaved block is stored in the real buffer (41 R192, 42 R215). -/
theorem inOutput_interleavedOut_even {re im : Word} {m k : Nat} (hk : k < m) (hpar : k % 2 = 0) :
    InOutput (interleavedOut re im m) (re.toNat + 4 * (k / 2)) := by
  unfold interleavedOut
  split_ifs with hm <;> exact inOutput_of_mem List.mem_cons_self (by omega)

/-- An odd position is stored in the imaginary buffer, which is listed because then m is at least 2. -/
theorem inOutput_interleavedOut_odd {re im : Word} {m k : Nat} (hk : k < m) (hpar : ¬k % 2 = 0) :
    InOutput (interleavedOut re im m) (im.toNat + 4 * (k / 2)) := by
  unfold interleavedOut
  rw [if_neg (by omega)]
  exact inOutput_of_mem (List.mem_cons_of_mem _ (List.mem_singleton_self _)) (by omega)

/-- Both outputs of position k of a pair of buffers with elements up to kmax. -/
theorem inOutput_pair {re im : Word} {kmin kmax k x : Nat} (hk : k ≤ kmax)
    (hx : x ∈ [re.toNat + 4 * k, im.toNat + 4 * k]) :
    InOutput [floatsOut re kmin kmax, floatsOut im kmin kmax] x := by
  rcases List.mem_pair.mp hx with rfl | rfl
  · exact inOutput_of_mem List.mem_cons_self hk
  · exact inOutput_of_mem (List.mem_cons_of_mem _ (List.mem_singleton_self _)) hk

theorem inOutput_single {re : Word} {kmin kmax k : Nat} (hk : k ≤ kmax) :
    InOutput [floatsOut re kmin kmax] (re.toNat + 4 * k) :=
  inOutput_of_mem (List.mem_singleton_self _) hk

/-- Every output element of a command is an element of an output buffer of its check list (41 to 44). -/
theorem target_inOutput {i : Instr} {s : State} {x : Nat} (hx : x ∈ targets i s) : InOutput (listed i s) x := by
  cases i with
  | convElem k =>
    obtain rfl := List.mem_singleton.mp hx
    simp only [listed, convTarget]
    split_ifs <;> exact (inOutput_single le_rfl).cons
  | convBlock =>
    obtain ⟨k, hk, rfl⟩ := List.mem_map.mp hx
    have hk := List.mem_range.mp hk
    simp only [listed, convTarget]
    split_ifs with hilv hpar
    · exact (inOutput_single (Nat.le_sub_one_of_lt hk)).cons
    · exact (inOutput_interleavedOut_even hk hpar).cons
    · exact (inOutput_interleavedOut_odd hk hpar).cons
  | mixElem k =>
    simp only [targets, mixTargets, listed] at hx ⊢
    split_ifs at hx ⊢ with hilv hpar
    · exact (inOutput_pair le_rfl hx).cons
    · exact List.mem_singleton.mp hx ▸ (inOutput_single le_rfl).cons
    · exact List.mem_singleton.mp hx ▸ (inOutput_single le_rfl).cons
  | mixBlock =>
    obtain ⟨k, hk, hx⟩ := List.mem_flatMap.mp hx
    have hk := List.mem_range.mp hk
    simp only [mixTargets, listed] at hx ⊢
    split_ifs at hx ⊢ with hilv hpar
    · exact (inOutput_pair (Nat.le_sub_one_of_lt hk) hx).cons
    · exact List.mem_singleton.mp hx ▸ (inOutput_interleavedOut_even hk hpar).cons
    · exact List.mem_singleton.mp hx ▸ (inOutput_interleavedOut_odd hk hpar).cons
  | firRrElem k =>
    obtain rfl := List.mem_singleton.mp hx
    exact (inOutput_single le_rfl).cons
  | firRcElem k => exact (inOutput_pair le_rfl hx).cons.cons
  | firCcElem k => exact (inOutput_pair le_rfl hx).cons.cons
  | firRrBlock =>
    obtain ⟨k, hk, rfl⟩ := List.mem_map.mp hx
    exact (inOutput_single (Nat.le_sub_one_of_lt (List.mem_range.mp hk))).cons
  | firRcBlock =>
    obtain ⟨k, hk, hx⟩ := List.mem_flatMap.mp hx
    exact (inOutput_pair (Nat.le_sub_one_of_lt (List.mem_range.mp hk)) hx).cons.cons
  | firCcBlock =>
    obtain ⟨k, hk, hx⟩ := List.mem_flatMap.mp hx
    exact (inOutput_pair (Nat.le_sub_one_of_lt (List.mem_range.mp hk)) hx).cons.cons
  | demElem k =>
    obtain rfl := List.mem_singleton.mp hx
    exact (inOutput_single le_rfl).cons.cons
  | demBlock =>
    obtain ⟨k, hk, rfl⟩ := List.mem_map.mp hx
    exact (inOutput_single (Nat.le_sub_one_of_lt (List.mem_range.mp hk))).cons.cons
  | _ => exact absurd hx List.not_mem_nil

/-- Every output element of a command that executes is within DMEM. -/
theorem targets_within_dmem {i : Instr} {s : State} (h : Executes i s) {x : Nat} (hx : x ∈ targets i s) :
    x + 3 < s.params.dmemSize := by
  obtain ⟨-, hb, -⟩ := h
  exact (target_inOutput hx).within hb

/-- The window offset of a CONV_LUT entry names one of 256 (10 R47). -/
theorem regAt_convLut_lt {off k : Nat} (h : regAt off = some (.convLut k)) : k < 256 := by
  unfold regAt at h
  split_ifs at h with hoff
  · cases h
    omega
  · obtain ⟨r, hr, hk⟩ := Option.map_eq_some_iff.mp h
    have hmem := List.mem_of_find?_eq_some hr
    obtain ⟨o, r⟩ := r
    subst hk
    simp [globalRegs, convRegs, mixRegs, firRegs, demRegs] at hmem

/-- An access to a FIR data port whose index is in range stays below the depth of the memory (10 R70). -/
theorem index_lt_depth {s : State} {r : Reg} {index : BitVec 16} {depth : Nat}
    (hp : indexPort s r = some (index.setWidth 32, depth)) (h : indexOutOfRange s r = none) : index.toNat < depth := by
  simp only [indexOutOfRange, hp] at h
  split_ifs at h with hlt
  rwa [BitVec.toNat_setWidth_of_le (by decide)] at hlt

/-! #### Internal memories -/

theorem sized_nil (depth : Nat) : EntryMem.Sized [] depth := ⟨⟨.nil, nofun⟩, nofun⟩

theorem sized_entryWrite {m : EntryMem} {depth k : Nat} (v : Word) (h : m.Sized depth) (hk : k < depth) :
    (entryWrite m k v).Sized depth :=
  ⟨entryWrite_wf k v h.1, entryWrite_keysBelow v h.2 hk⟩

theorem sized_entriesFill {m : EntryMem} {depth n : Nat} (f : Nat → Entry) (h : m.Sized depth) (hn : n ≤ depth) :
    (entriesFill m n f).Sized depth :=
  ⟨entriesFill_wf n f h.1, entriesFill_keysBelow f h.2 hn⟩

/-! #### Commands -/

variable {s t : State}

theorem inv_complete (h : s.Inv) : (complete s).Inv := by
  obtain ⟨hp, hm, hb, hc⟩ := h
  exact ⟨hp, hm, hb, nofun, fun _ => rfl⟩

theorem inv_raiseError (f : Failure) (w : Word) (h : s.Inv) : (raiseError f w s).Inv := by
  obtain ⟨hp, hm, hb, hc⟩ := h
  exact ⟨hp, hm, hb, nofun, fun _ => rfl⟩

/-- A command keeps the form when its effect does, should it execute. -/
theorem inv_exec_of_effect {i : Instr} (e : State → State)
    (hi : exec i s = runPlan (encode i) (planOf i s) e s) (h : s.Inv) (he : Executes i s → (e s).Inv)
    (ht : exec i s = .next t) : t.Inv := by
  rcases runPlan_cases (hi ▸ ht) with ⟨-, rfl⟩ | ⟨-, f, -, rfl⟩ | ⟨hn, hf, rfl⟩
  · exact inv_complete h
  · exact inv_raiseError f _ h
  · exact inv_complete (he (executes_iff.mpr ⟨hn, hf⟩))

theorem stores_within_dmem {i : Instr} (h : Executes i s) :
    ∀ st ∈ (planOf i s).stores, st.addr + 3 < s.params.dmemSize := fun _ hst =>
  targets_within_dmem h (stores_targets i s ▸ List.mem_map_of_mem hst)

theorem inv_storeAll {sts : List Store} (h : s.Inv) (hs : ∀ st ∈ sts, st.addr + 3 < s.params.dmemSize) :
    (storeAll sts s).Inv := by
  obtain ⟨hp, ⟨hwf, hkeys⟩, hb, hc⟩ := h
  exact ⟨hp, ⟨writeStores_wf s hwf, writeStores_keysBelow s hkeys hs⟩, hb, hc⟩

/-- A command whose results are DMEM elements keeps the form. -/
theorem inv_exec_of_stores {i : Instr} (hi : exec i s = runPlan (encode i) (planOf i s) (storeAll (planOf i s).stores) s)
    (h : s.Inv) (ht : exec i s = .next t) : t.Inv :=
  inv_exec_of_effect _ hi h (fun he => inv_storeAll h (stores_within_dmem he)) ht

theorem inv_clearRemainder (h : s.Inv) : (clearRemainder s).Inv := by
  obtain ⟨hp, hm, ⟨hl, hmr, hmi, htr, hti, hre, him⟩, hc⟩ := h
  exact ⟨hp, hm, ⟨hl, hmr, hmi, htr, hti, sized_entriesFill _ hre le_rfl, sized_entriesFill _ him le_rfl⟩, hc⟩

theorem inv_generateLut (h : s.Inv) (hC : s.mix.coslen.toNat ≤ s.params.mixCoslenMax) : (generateLut s).Inv := by
  obtain ⟨hp, hm, ⟨hl, hmr, hmi, hfir⟩, hc⟩ := h
  have hrows : 256 * s.mix.coslen.toNat ≤ 256 * s.params.mixCoslenMax := Nat.mul_le_mul_left _ hC
  exact ⟨hp, hm, ⟨hl, sized_entriesFill _ hmr hrows, sized_entriesFill _ hmi hrows, hfir⟩, hc⟩

theorem inv_refreshReal (h : s.Inv) (hN : s.fir.order.toNat ≤ s.params.firMaxOrder) : (refreshReal s).Inv := by
  obtain ⟨hp, hm, ⟨hl, hmr, hmi, htr, hti, hre, him⟩, hc⟩ := h
  exact ⟨hp, hm, ⟨hl, hmr, hmi, htr, hti, sized_entriesFill _ hre (Nat.sub_le_sub_right hN 1), him⟩, hc⟩

theorem inv_refreshComplex (h : s.Inv) (hN : s.fir.order.toNat ≤ s.params.firMaxOrder) : (refreshComplex s).Inv := by
  obtain ⟨hp, hm, ⟨hl, hmr, hmi, htr, hti, hre, him⟩, hc⟩ := h
  have hlen := Nat.sub_le_sub_right hN 1
  exact ⟨hp, hm, ⟨hl, hmr, hmi, htr, hti, sized_entriesFill _ hre hlen, sized_entriesFill _ him hlen⟩, hc⟩

/-- Every command keeps the form. -/
theorem inv_exec {i : Instr} (h : s.Inv) (ht : exec i s = .next t) : t.Inv := by
  cases i with
  | nop => exact inv_exec_of_effect id rfl h (fun _ => h) ht
  | resetState =>
    exact inv_exec_of_effect (fun u => clearHistory (clearRemainder u)) rfl h (fun _ => inv_clearRemainder h) ht
  | mixGenlut =>
    exact inv_exec_of_effect (i := .mixGenlut) generateLut rfl h
      (fun ⟨⟨⟨_, hC⟩, _⟩, _⟩ => inv_generateLut h hC) ht
  | mixAdvance n => exact inv_exec_of_effect (advancePhase n) rfl h (fun _ => h) ht
  | mixRefresh => exact inv_exec_of_effect (advancePhase (complexOutputs s)) rfl h (fun _ => h) ht
  | mixReset => exact inv_exec_of_effect resetPhase rfl h (fun _ => h) ht
  | firRefreshC =>
    exact inv_exec_of_effect (i := .firRefreshC) refreshComplex rfl h
      (fun ⟨⟨_, hN, _⟩, _⟩ => inv_refreshComplex h hN) ht
  | firRefreshR =>
    exact inv_exec_of_effect (i := .firRefreshR) refreshReal rfl h
      (fun ⟨⟨_, hN, _⟩, _⟩ => inv_refreshReal h hN) ht
  | firClear => exact inv_exec_of_effect clearRemainder rfl h (fun _ => inv_clearRemainder h) ht
  | demSave => exact inv_exec_of_effect saveHistory rfl h (fun _ => h) ht
  | demReset => exact inv_exec_of_effect clearHistory rfl h (fun _ => h) ht
  | _ => exact inv_exec_of_stores rfl h ht

/-! #### Host moves -/

/-- REG_RANGE is recorded only by accesses that wait for a pending command (10 R69, R70). -/
theorem inv_recordRegRange (off index : Word) (h : s.Inv) (hnone : s.pending = none) :
    (recordRegRange off index s).Inv := by
  have hinv := h
  obtain ⟨hp, hm, hb, -, hraced⟩ := h
  cases he : s.error with
  | some c => rwa [recordRegRange_of_error he]
  | none =>
    rw [recordRegRange_of_noError he]
    exact ⟨hp, hm, hb, fun hpend => absurd hpend (by simp [hnone]), hraced⟩

theorem inv_clearError (h : s.Inv) : (clearError s).Inv := by
  obtain ⟨hp, hm, hb, -, hraced⟩ := h
  exact ⟨hp, hm, hb, fun _ => rfl, hraced⟩

/-- A write to an index port or to CONV_LUT stores within its memory's depth, CMD issues a command only while no error
is recorded, and no other register touches what the form speaks of. -/
theorem inv_regStore {r : Reg} (v : Word) (h : s.Inv) (hr : indexOutOfRange s r = none)
    (hlut : ∀ k, r = .convLut k → k < 256) : (regStore r v s).Inv := by
  have hinv := h
  obtain ⟨hp, hm, ⟨hl, hmr, hmi, htr, hti, hre, him⟩, herr, hraced⟩ := h
  cases r with
  | status =>
    simp only [regStore, writeStatus]
    split_ifs
    · exact inv_clearError (s := { s with done := false }) hinv
    · exact inv_clearError hinv
    · exact hinv
    · exact hinv
  | cmd =>
    cases he : s.error with
    | some c => simpa only [regStore, issueCommand, he] using hinv
    | none =>
      simp only [regStore, issueCommand, he]
      exact ⟨hp, hm, ⟨hl, hmr, hmi, htr, hti, hre, him⟩, fun _ => rfl, nofun⟩
  | convLut k =>
    exact ⟨hp, hm, ⟨sized_entryWrite v hl (hlut k rfl), hmr, hmi, htr, hti, hre, him⟩, herr, hraced⟩
  | firTre =>
    exact ⟨hp, hm, ⟨hl, hmr, hmi, sized_entryWrite v htr (index_lt_depth rfl hr), hti, hre, him⟩, herr, hraced⟩
  | firTim =>
    exact ⟨hp, hm, ⟨hl, hmr, hmi, htr, sized_entryWrite v hti (index_lt_depth rfl hr), hre, him⟩, herr, hraced⟩
  | firRre =>
    exact ⟨hp, hm, ⟨hl, hmr, hmi, htr, hti, sized_entryWrite v hre (index_lt_depth rfl hr), him⟩, herr, hraced⟩
  | firRim =>
    exact ⟨hp, hm, ⟨hl, hmr, hmi, htr, hti, hre, sized_entryWrite v him (index_lt_depth rfl hr)⟩, herr, hraced⟩
  | _ => exact hinv

/-- A register read that does not wait for a pending command is one of STATUS and has no effect (10 R69). -/
theorem portRead_of_neverWaits {off : BitVec 12} {bytes : Nat} (h : neverWaits (.regRead off bytes) = true) :
    portRead off bytes s = s := by
  simp only [neverWaits, Bool.and_eq_true, beq_iff_eq] at h
  obtain ⟨hproper, hoff⟩ := h
  simp only [portRead, hproper, hoff]
  rfl

theorem inv_portRead {off : BitVec 12} {bytes : Nat} (h : s.Inv)
    (hw : s.pending.isSome = true → neverWaits (.regRead off bytes) = true) : (portRead off bytes s).Inv := by
  by_cases hpend : s.pending.isSome = true
  · rwa [portRead_of_neverWaits (hw hpend)]
  · unfold portRead
    split_ifs
    · split
      · exact h
      · split
        · exact inv_recordRegRange _ _ h (Option.not_isSome_iff_eq_none.mp hpend)
        · exact h
    · exact h

theorem inv_portWrite (off : BitVec 12) (bytes : Nat) (v : Word) (h : s.Inv) (hnone : s.pending = none) :
    (portWrite off bytes v s).Inv := by
  unfold portWrite
  split_ifs
  · split
    · exact h
    · rename_i r hr
      split
      · exact inv_recordRegRange _ _ h hnone
      · exact inv_regStore v h (by assumption) fun k hk => regAt_convLut_lt (hk ▸ hr)
  · exact h

/-- Without a pending command a host access races no byte (20 R112). -/
theorem racedAfter_of_noRaces {races : Nat → Bool} {bytes : List Nat} (hr : s.raced = [])
    (h : ∀ a, races a = false) : racedAfter races bytes s = [] := by
  simp [racedAfter, hr, h]

theorem inv_hostMemWrite {addr : Nat} {v : Word} (h : s.Inv) (ht : hostMemWrite addr v s = .next t) : t.Inv := by
  obtain ⟨hp, ⟨hwf, hkeys⟩, hb, herr, hraced⟩ := h
  unfold hostMemWrite at ht
  split_ifs at ht with hex
  cases ht
  exact ⟨hp, ⟨memWrite32_wf _ _ hwf, memWrite32_keysBelow _ hkeys (of_decide_eq_true hex)⟩, hb, herr,
    fun hn => racedAfter_of_noRaces (hraced hn) (writeRaces_of_noCommand hn)⟩

theorem inv_hostMemWrite8 {addr : Nat} {v : Byte} (h : s.Inv) (ht : hostMemWrite8 addr v s = .next t) : t.Inv := by
  obtain ⟨hp, ⟨hwf, hkeys⟩, hb, herr, hraced⟩ := h
  unfold hostMemWrite8 at ht
  split_ifs at ht with hex
  cases ht
  exact ⟨hp, ⟨memWrite8_wf _ _ hwf, memWrite8_keysBelow _ hkeys (of_decide_eq_true hex)⟩, hb, herr,
    fun hn => racedAfter_of_noRaces (hraced hn) (writeRaces_of_noCommand hn)⟩

theorem inv_hostMemRead {addr : Nat} (h : s.Inv) (ht : hostMemRead addr s = .next t) : t.Inv := by
  obtain ⟨hp, hm, hb, herr, hraced⟩ := h
  unfold hostMemRead at ht
  split at ht
  case isFalse => exact nomatch ht
  cases ht
  exact ⟨hp, hm, hb, herr, fun hn => racedAfter_of_noRaces (hraced hn) (readRaces_of_noCommand hn)⟩

theorem inv_hostMemRead8 {addr : Nat} (h : s.Inv) (ht : hostMemRead8 addr s = .next t) : t.Inv := by
  obtain ⟨hp, hm, hb, herr, hraced⟩ := h
  unfold hostMemRead8 at ht
  split at ht
  case isFalse => exact nomatch ht
  cases ht
  exact ⟨hp, hm, hb, herr, fun hn => racedAfter_of_noRaces (hraced hn) (readRaces_of_noCommand hn)⟩

/-- The elements a reset abandons are those of a command that would execute, so they are within DMEM (70 R340). -/
theorem pendingPlan_stores_within_dmem (s : State) :
    ∀ st ∈ (pendingPlan s).stores, st.addr + 3 < s.params.dmemSize := by
  by_cases h : ∃ i, WillExecute s i
  · obtain ⟨i, hi⟩ := h
    rw [pendingPlan_of_willExecute hi]
    obtain ⟨w, -, -, he⟩ := hi
    exact stores_within_dmem he
  · rw [pendingPlan_of_none (not_exists.mp h)]
    exact nofun

theorem inv_hostReset (h : s.Inv) : (hostReset s).Inv := by
  obtain ⟨hp, ⟨hwf, hkeys⟩, -, -⟩ := h
  exact ⟨hp, ⟨abandonStores_wf hwf, abandonStores_keysBelow hkeys (pendingPlan_stores_within_dmem s)⟩,
    ⟨sized_nil _, sized_nil _, sized_nil _, sized_nil _, sized_nil _, sized_nil _, sized_nil _⟩, nofun, fun _ => rfl⟩

/-- Every host move keeps the form, if only moves that do not wait are made while a command is pending. -/
theorem inv_hostMove {m : HostMove} (h : s.Inv) (hw : s.pending.isSome = true → neverWaits m = true)
    (ht : hostMove m s = .next t) : t.Inv := by
  cases m with
  | regWrite off bytes v =>
    cases ht
    exact inv_portWrite off bytes v h (Option.not_isSome_iff_eq_none.mp fun hpend => nomatch hw hpend)
  | regRead off bytes =>
    cases ht
    exact inv_portRead h hw
  | memWrite addr v => exact inv_hostMemWrite h ht
  | memWrite8 addr v => exact inv_hostMemWrite8 h ht
  | memRead addr => exact inv_hostMemRead h ht
  | memRead8 addr => exact inv_hostMemRead8 h ht
  | reset =>
    cases ht
    exact inv_hostReset h
  | observeIrq =>
    cases ht
    exact h

/-- Settles O40, by cases on what a step can be (10 R69, 40 R160): a host move, a legal command, an illegal word, or
nothing. -/
theorem stepKeepsInvariant : Obligations.StepKeepsInvariant := by
  intro s t h ht
  rcases step_cases ht with ⟨m, s', hturn, hmove⟩ | ⟨-, w, i, -, -, hexec⟩ | ⟨-, w, e, -, -, rfl⟩ | ⟨-, -, rfl⟩
  · obtain ⟨turn, rest, -, rfl, rfl, hw⟩ := hostTurn_eq_some hturn
    exact inv_hostMove (s := { s with host := turnLeft s turn ++ rest }) h (fun hpend => (hw hpend).2) hmove
  · exact inv_exec h hexec
  · exact inv_raiseError _ w h
  · exact h

end Sys2Proof.Machine

/-! ### Binary32 patterns, sums and products -/

namespace Sys2Proof.Machine

open Sys2Proof.Claims

/-! #### A pattern is its sign and its magnitude field -/

theorem toNat_eq_sign_add_magnitude (a : Word) : a.toNat = (if a.msb then 2 ^ 31 else 0) + magnitude a := by
  have hlt := a.isLt
  unfold magnitude
  cases h : a.msb
  · have := BitVec.msb_eq_false_iff_two_mul_lt.mp h
    simp only [Bool.false_eq_true, if_false]
    omega
  · have := BitVec.msb_eq_true_iff_two_mul_ge.mp h
    simp only [if_true]
    omega

theorem magnitude_lt (a : Word) : magnitude a < 2 ^ 31 := Nat.mod_lt _ (by decide)

theorem pattern_ext {a b : Word} (hs : a.msb = b.msb) (hm : magnitude a = magnitude b) : a = b := by
  rw [← BitVec.toNat_inj, toNat_eq_sign_add_magnitude a, toNat_eq_sign_add_magnitude b, hs, hm]

theorem f32Pack_toNat (neg : Bool) {n : Nat} (h : n < 2 ^ 31) :
    (f32Pack neg n).toNat = (if neg then 2 ^ 31 else 0) + n := by
  cases neg <;> simp [f32Pack] <;> omega

@[simp] theorem f32Pack_magnitude (neg : Bool) {n : Nat} (h : n < 2 ^ 31) : magnitude (f32Pack neg n) = n := by
  rw [magnitude, f32Pack_toNat neg h]
  split_ifs <;> omega

@[simp] theorem f32Pack_msb (neg : Bool) {n : Nat} (h : n < 2 ^ 31) : (f32Pack neg n).msb = neg := by
  rw [BitVec.msb_eq_decide, f32Pack_toNat neg h]
  cases neg with
  | false => exact decide_eq_false (by simpa using h)
  | true => exact decide_eq_true (by simp)

theorem f32Pack_eq (a : Word) : f32Pack a.msb (magnitude a) = a :=
  pattern_ext (f32Pack_msb _ (magnitude_lt a)) (f32Pack_magnitude _ (magnitude_lt a))

theorem f32Infinity_eq (neg : Bool) : f32Infinity neg = infinity neg := by cases neg <;> rfl

theorem eq_infinity {a : Word} (h : IsInfinite a) : a = infinity a.msb := by
  rw [← f32Infinity_eq, f32Infinity, ← show magnitude a = 0x7F800000 from h, f32Pack_eq]

@[simp] theorem f32Negate_msb (a : Word) : (f32Negate a).msb = !a.msb := by
  rw [f32Negate, BitVec.msb_xor, show (0x80000000#32).msb = true from rfl, Bool.xor_true]

@[simp] theorem f32Negate_magnitude (a : Word) : magnitude (f32Negate a) = magnitude a := by
  simp only [magnitude, f32Negate, BitVec.toNat_xor]
  rw [Nat.xor_mod_two_pow]
  simp

/-! #### The fields of Machine/Float.lean in these words -/

theorem f32Exp_eq (a : Word) : f32Exp a = magnitude a / 2 ^ 23 := by
  simp only [f32Exp, magnitude, BitVec.extractLsb'_toNat, Nat.shiftRight_eq_div_pow]
  omega

theorem f32Frac_eq (a : Word) : f32Frac a = magnitude a % 2 ^ 23 := by
  simp only [f32Frac, magnitude, BitVec.extractLsb'_toNat, Nat.shiftRight_eq_div_pow]
  omega

theorem f32IsNaN_iff {a : Word} : f32IsNaN a = true ↔ IsNaN a := by
  have := magnitude_lt a
  simp only [f32IsNaN, f32Exp_eq, f32Frac_eq, Bool.and_eq_true, beq_iff_eq, bne_iff_ne, IsNaN]
  omega

theorem f32IsInf_iff {a : Word} : f32IsInf a = true ↔ IsInfinite a := by
  have := magnitude_lt a
  simp only [f32IsInf, f32Exp_eq, f32Frac_eq, Bool.and_eq_true, beq_iff_eq, IsInfinite]
  omega

/-- The value of a magnitude field, in units of 2^-149. -/
def fieldValue (n : Nat) : Nat := if n / 2 ^ 23 = 0 then n % 2 ^ 23 else (2 ^ 23 + n % 2 ^ 23) * 2 ^ (n / 2 ^ 23 - 1)

theorem f32Mag_eq (a : Word) : f32Mag a = fieldValue (magnitude a) := by
  rw [f32Mag, f32Exp_eq, f32Frac_eq, fieldValue]

/-- The integer, with its sign inverted for a negative pattern. -/
def withSign (neg : Bool) (v : Int) : Int := (if neg then -1 else 1) * v

theorem withSign_withSign (neg : Bool) (v : Int) : withSign neg (withSign neg v) = v := by
  cases neg <;> simp [withSign]

theorem natAbs_withSign (neg : Bool) (v : Int) : (withSign neg v).natAbs = v.natAbs := by
  cases neg <;> simp [withSign]

theorem unitsOf_eq (a : Word) : unitsOf a = withSign a.msb (f32Mag a) := by
  rw [f32Mag_eq]
  rfl

theorem f32Int_eq (a : Word) : f32Int a = unitsOf a := by
  rw [unitsOf_eq, f32Int, f32Sign, withSign]
  split <;> ring

theorem f32Mag_eq_zero_iff {a : Word} : f32Mag a = 0 ↔ magnitude a = 0 := by
  rw [f32Mag_eq, fieldValue]
  split_ifs with h
  · omega
  · have : 0 < 2 ^ (magnitude a / 2 ^ 23 - 1) := by positivity
    simp only [mul_eq_zero]
    omega

theorem unitsOf_negate (a : Word) : unitsOf (f32Negate a) = -unitsOf a := by
  rw [unitsOf_eq, unitsOf_eq, f32Mag_eq, f32Mag_eq, f32Negate_msb, f32Negate_magnitude, withSign, withSign]
  cases a.msb <;> simp

/-! #### The cases of the operations -/

theorem f32RoundMag_le (m k : Nat) : f32RoundMag m k ≤ 0x7F800000 := Nat.min_le_right _ _

theorem f32Round_magnitude (neg : Bool) (m k : Nat) : magnitude (f32Round neg m k) = f32RoundMag m k :=
  f32Pack_magnitude neg (lt_of_le_of_lt (f32RoundMag_le m k) (by decide))

theorem f32Round_msb (neg : Bool) (m k : Nat) : (f32Round neg m k).msb = neg :=
  f32Pack_msb neg (lt_of_le_of_lt (f32RoundMag_le m k) (by decide))

theorem isNaN_or_iff {a b : Word} : (f32IsNaN a || f32IsNaN b) = true ↔ IsNaN a ∨ IsNaN b := by
  rw [Bool.or_eq_true, f32IsNaN_iff, f32IsNaN_iff]

theorem not_isNaN_or {a b : Word} (ha : ¬IsNaN a) (hb : ¬IsNaN b) : ¬(f32IsNaN a || f32IsNaN b) = true :=
  fun h => (isNaN_or_iff.mp h).elim ha hb

theorem not_isNaN_of_isFinite {a : Word} (h : IsFinite a) : ¬IsNaN a := Nat.lt_asymm h

theorem not_isNaN_of_isInfinite {a : Word} (h : IsInfinite a) : ¬IsNaN a := Nat.not_lt_of_ge (Nat.le_of_eq h)

theorem not_isInf_of_isFinite {a : Word} (h : IsFinite a) : ¬f32IsInf a = true := fun hi =>
  Nat.ne_of_lt h (f32IsInf_iff.mp hi)

theorem isFinite_of_not {a : Word} (hn : ¬IsNaN a) (hi : ¬IsInfinite a) : IsFinite a :=
  Nat.lt_of_le_of_ne (Nat.le_of_not_lt hn) hi

theorem fmul_of_nan {a b : Word} (h : IsNaN a ∨ IsNaN b) : fmul a b = canonicalNaN := by
  rw [fmul, if_pos (isNaN_or_iff.mpr h)]

theorem fmul_of_infinite {a b : Word} (ha : ¬IsNaN a) (hb : ¬IsNaN b) (h : IsInfinite a ∨ IsInfinite b) :
    fmul a b = if magnitude a = 0 ∨ magnitude b = 0 then canonicalNaN else infinity (a.msb ^^ b.msb) := by
  have hi : (f32IsInf a || f32IsInf b) = true := by rwa [Bool.or_eq_true, f32IsInf_iff, f32IsInf_iff]
  simp only [fmul, if_neg (not_isNaN_or ha hb), if_pos hi, f32Mag_eq_zero_iff, f32Infinity_eq, f32Sign]

theorem fmul_of_finite {a b : Word} (ha : IsFinite a) (hb : IsFinite b) :
    fmul a b = f32Round (a.msb ^^ b.msb) (f32Mag a * f32Mag b) 149 := by
  have hn := not_isNaN_or (not_isNaN_of_isFinite ha) (not_isNaN_of_isFinite hb)
  have hi : ¬(f32IsInf a || f32IsInf b) = true := by
    rw [Bool.or_eq_true]
    exact not_or.mpr ⟨not_isInf_of_isFinite ha, not_isInf_of_isFinite hb⟩
  rw [fmul, if_neg hn, if_neg hi, f32Sign, f32Sign]

theorem fadd_of_nan {a b : Word} (h : IsNaN a ∨ IsNaN b) : fadd a b = canonicalNaN := by
  rw [fadd, if_pos (isNaN_or_iff.mpr h)]

theorem fadd_of_infinite_left {a b : Word} (ha : IsInfinite a) (hb : ¬IsNaN b) :
    fadd a b = if IsInfinite b ∧ a.msb ≠ b.msb then canonicalNaN else a := by
  rw [fadd, if_neg (not_isNaN_or (not_isNaN_of_isInfinite ha) hb), if_pos (f32IsInf_iff.mpr ha)]
  simp only [Bool.and_eq_true, f32IsInf_iff, f32Sign, bne_iff_ne]

theorem fadd_of_infinite_right {a b : Word} (ha : IsFinite a) (hb : IsInfinite b) : fadd a b = b := by
  rw [fadd, if_neg (not_isNaN_or (not_isNaN_of_isFinite ha) (not_isNaN_of_isInfinite hb)),
    if_neg (not_isInf_of_isFinite ha), if_pos (f32IsInf_iff.mpr hb)]

theorem fadd_of_finite {a b : Word} (ha : IsFinite a) (hb : IsFinite b) :
    fadd a b = if unitsOf a + unitsOf b = 0 then f32Pack (a.msb && b.msb) 0
      else f32Round (decide (unitsOf a + unitsOf b < 0)) (unitsOf a + unitsOf b).natAbs 0 := by
  rw [fadd, if_neg (not_isNaN_or (not_isNaN_of_isFinite ha) (not_isNaN_of_isFinite hb)),
    if_neg (not_isInf_of_isFinite ha), if_neg (not_isInf_of_isFinite hb), f32Int_eq, f32Int_eq, f32Sign, f32Sign]

theorem isNaN_negate_iff {a : Word} : IsNaN (f32Negate a) ↔ IsNaN a := by rw [IsNaN, f32Negate_magnitude]

theorem isInfinite_negate_iff {a : Word} : IsInfinite (f32Negate a) ↔ IsInfinite a := by
  rw [IsInfinite, f32Negate_magnitude]

theorem isFinite_negate_iff {a : Word} : IsFinite (f32Negate a) ↔ IsFinite a := by
  rw [IsFinite, f32Negate_magnitude]

theorem fsub_of_nan {a b : Word} (h : IsNaN a ∨ IsNaN b) : fsub a b = canonicalNaN :=
  fadd_of_nan (h.imp_right isNaN_negate_iff.mpr)

theorem fsub_of_infinite_left {a b : Word} (ha : IsInfinite a) (hb : ¬IsNaN b) :
    fsub a b = if IsInfinite b ∧ a.msb = b.msb then canonicalNaN else a := by
  rw [fsub, fadd_of_infinite_left ha (mt isNaN_negate_iff.mp hb)]
  simp only [isInfinite_negate_iff, f32Negate_msb, ne_eq, Bool.not_eq_not]

theorem fsub_of_infinite_right {a b : Word} (ha : IsFinite a) (hb : IsInfinite b) : fsub a b = infinity (!b.msb) := by
  have hneg := isInfinite_negate_iff.mpr hb
  rw [fsub, fadd_of_infinite_right ha hneg, eq_infinity hneg, f32Negate_msb]

/-! #### NaN results -/

theorem infinity_isInfinite (neg : Bool) : IsInfinite (infinity neg) := by cases neg <;> rfl

theorem f32Round_not_isNaN (neg : Bool) (m k : Nat) : ¬IsNaN (f32Round neg m k) := by
  rw [IsNaN, f32Round_magnitude]
  exact Nat.not_lt_of_ge (f32RoundMag_le m k)

theorem fmul_eq_canonicalNaN {a b : Word} (h : IsNaN (fmul a b)) : fmul a b = canonicalNaN := by
  by_cases hn : IsNaN a ∨ IsNaN b
  · exact fmul_of_nan hn
  obtain ⟨ha, hb⟩ := not_or.mp hn
  by_cases hi : IsInfinite a ∨ IsInfinite b
  · rw [fmul_of_infinite ha hb hi] at h ⊢
    split_ifs at h ⊢
    · rfl
    · exact absurd h (not_isNaN_of_isInfinite (infinity_isInfinite _))
  · obtain ⟨hia, hib⟩ := not_or.mp hi
    rw [fmul_of_finite (isFinite_of_not ha hia) (isFinite_of_not hb hib)] at h
    exact absurd h (f32Round_not_isNaN _ _ _)

theorem fadd_eq_canonicalNaN {a b : Word} (h : IsNaN (fadd a b)) : fadd a b = canonicalNaN := by
  by_cases hn : IsNaN a ∨ IsNaN b
  · exact fadd_of_nan hn
  obtain ⟨ha, hb⟩ := not_or.mp hn
  by_cases hia : IsInfinite a
  · rw [fadd_of_infinite_left hia hb] at h ⊢
    split_ifs at h ⊢
    · rfl
    · exact absurd h ha
  have hfa := isFinite_of_not ha hia
  by_cases hib : IsInfinite b
  · rw [fadd_of_infinite_right hfa hib] at h
    exact absurd h hb
  · rw [fadd_of_finite hfa (isFinite_of_not hb hib)] at h
    split_ifs at h
    · exact absurd h (by rw [IsNaN, f32Pack_magnitude _ (by decide)]; decide)
    · exact absurd h (f32Round_not_isNaN _ _ _)

theorem fmul_of_infinite_zero {a b : Word} (h : (IsInfinite a ∧ magnitude b = 0) ∨ (magnitude a = 0 ∧ IsInfinite b)) :
    fmul a b = canonicalNaN := by
  have hzero : ∀ {c : Word}, magnitude c = 0 → ¬IsNaN c := fun hc hn => absurd hn (by rw [IsNaN, hc]; decide)
  rcases h with ⟨ha, hb⟩ | ⟨ha, hb⟩
  · rw [fmul_of_infinite (not_isNaN_of_isInfinite ha) (hzero hb) (.inl ha), if_pos (.inr hb)]
  · rw [fmul_of_infinite (hzero ha) (not_isNaN_of_isInfinite hb) (.inr hb), if_pos (.inl ha)]

/-- Settles O48, from the cases of the three operations. -/
theorem naNAndInfinityResults : Obligations.NaNAndInfinityResults := by
  intro a b
  refine ⟨?_, fun h => ⟨fmul_of_nan h, fadd_of_nan h, fsub_of_nan h⟩, fmul_of_infinite_zero, ?_,
    fun ha hb => ⟨fun hs => ?_, fun hs => ?_⟩, fun ha hb => ?_,
    fun ha hb => ⟨fadd_of_infinite_right ha hb, fsub_of_infinite_right ha hb⟩⟩
  · intro r hr
    simp only [List.mem_cons, List.not_mem_nil, or_false] at hr
    rcases hr with rfl | rfl | rfl
    · exact fmul_eq_canonicalNaN
    · exact fadd_eq_canonicalNaN
    · exact fadd_eq_canonicalNaN
  · intro ha hb hza hzb hi
    rw [fmul_of_infinite ha hb hi, if_neg (not_or.mpr ⟨hza, hzb⟩)]
  · have hn := not_isNaN_of_isInfinite hb
    rw [fadd_of_infinite_left ha hn, fsub_of_infinite_left ha hn, if_pos ⟨hb, hs⟩, if_neg (hs ·.2)]
    exact ⟨rfl, rfl⟩
  · have hn := not_isNaN_of_isInfinite hb
    rw [fadd_of_infinite_left ha hn, fsub_of_infinite_left ha hn, if_neg (·.2 hs), if_pos ⟨hb, hs⟩]
    exact ⟨rfl, rfl⟩
  · have hn := not_isNaN_of_isFinite hb
    have hi : ¬IsInfinite b := Nat.ne_of_lt hb
    rw [fadd_of_infinite_left ha hn, fsub_of_infinite_left ha hn, if_neg (hi ·.1), if_neg (hi ·.1)]
    exact ⟨rfl, rfl⟩

end Sys2Proof.Machine

/-! ### Rounding to nearest, ties to even -/

namespace Sys2Proof.Machine

open Sys2Proof.Claims

/-! #### The nearest integer -/

theorem roundHalfEven_bounds (m d : Nat) : m / 2 ^ d ≤ roundHalfEven m d ∧ roundHalfEven m d ≤ m / 2 ^ d + 1 := by
  simp only [roundHalfEven]
  split_ifs <;> omega

/-- An integer is q, q + 1, or at least one below q or one above q + 1, whatever the unit P. -/
theorem multiple_cases (j q : Int) {P : Int} (hP : 0 ≤ P) :
    j = q ∨ j = q + 1 ∨ j * P ≤ q * P - P ∨ q * P + 2 * P ≤ j * P := by
  rcases lt_trichotomy j q with h | h | h
  · have := mul_le_mul_of_nonneg_right (show j ≤ q - 1 by omega) hP
    rw [sub_mul, one_mul] at this
    exact .inr (.inr (.inl this))
  · exact .inl h
  · by_cases h1 : j = q + 1
    · exact .inr (.inl h1)
    · have := mul_le_mul_of_nonneg_right (show q + 2 ≤ j by omega) hP
      rw [add_mul] at this
      exact .inr (.inr (.inr this))

/-- No integer is nearer to m / 2^d, and one as near is the same or the result is even. -/
theorem roundHalfEven_nearest (m d : Nat) (j : Int) :
    ((roundHalfEven m d : Int) * 2 ^ d - m).natAbs ≤ (j * 2 ^ d - m).natAbs ∧
    (((roundHalfEven m d : Int) * 2 ^ d - m).natAbs = (j * 2 ^ d - m).natAbs →
      j = roundHalfEven m d ∨ roundHalfEven m d % 2 = 0) := by
  have hr : m % 2 ^ d < 2 ^ d := Nat.mod_lt _ (by positivity)
  have hm : (m : Int) = (m / 2 ^ d : Nat) * (2 ^ d : Nat) + (m % 2 ^ d : Nat) := by
    exact_mod_cast (Nat.div_add_mod' m (2 ^ d)).symm
  have hpow : (2 ^ d : Int) = (2 ^ d : Nat) := by push_cast; rfl
  simp only [roundHalfEven, hpow, hm]
  generalize m / 2 ^ d = q
  generalize m % 2 ^ d = r at hr ⊢
  generalize 2 ^ d = P at hr ⊢
  rcases multiple_cases j q (Int.natCast_nonneg P) with rfl | rfl | h | h
  all_goals
    split_ifs
    all_goals
      push_cast [add_mul, one_mul]
      omega

/-- For an even n, the midpoint of n - 1 and n is where the result reaches n. -/
theorem le_roundHalfEven_iff {m d n : Nat} (hn : n % 2 = 0) (hpos : 0 < n) :
    n ≤ roundHalfEven m d ↔ (2 * n - 1) * 2 ^ d ≤ 2 * m := by
  have hm := Nat.div_add_mod' m (2 ^ d)
  have hr : m % 2 ^ d < 2 ^ d := Nat.mod_lt _ (by positivity)
  simp only [roundHalfEven]
  generalize m / 2 ^ d = q at *
  generalize m % 2 ^ d = r at *
  generalize 2 ^ d = P at *
  rcases Nat.lt_trichotomy n (q + 1) with h | rfl | h
  · have hle : (2 * n - 1) * P ≤ 2 * q * P := Nat.mul_le_mul_right P (by omega)
    rw [mul_assoc] at hle
    split_ifs <;> omega
  · rw [show 2 * (q + 1) - 1 = 2 * q + 1 by omega, add_mul, mul_assoc, one_mul]
    split_ifs <;> omega
  · have hle : (2 * q + 3) * P ≤ (2 * n - 1) * P := Nat.mul_le_mul_right P (by omega)
    rw [add_mul, mul_assoc] at hle
    split_ifs <;> omega

/-! #### The bits dropped -/

theorem lt_two_pow_bitLength (m : Nat) : m < 2 ^ bitLength m := by
  unfold bitLength
  split_ifs with h
  · omega
  · exact Nat.lt_log2_self

theorem two_pow_le_of_lt_bitLength {m n : Nat} (h : n < bitLength m) : 2 ^ n ≤ m := by
  unfold bitLength at h
  split_ifs at h with hm
  · omega
  · exact (Nat.pow_le_pow_right (by decide) (by omega)).trans (Nat.log2_self_le hm)

/-- The number of bits f32RoundMag drops. -/
def droppedBits (m k : Nat) : Nat := max k (bitLength m - 24)

theorem quotient_lt (m k : Nat) : m / 2 ^ droppedBits m k < 2 ^ 24 := by
  rw [Nat.div_lt_iff_lt_mul (by positivity), ← pow_add]
  exact (lt_two_pow_bitLength m).trans_le (Nat.pow_le_pow_right (by decide) (by unfold droppedBits; omega))

/-- When more than the k bits below the unit are dropped, the quotient has 24 bits. -/
theorem le_quotient {m k : Nat} (h : k < droppedBits m k) : 2 ^ 23 ≤ m / 2 ^ droppedBits m k := by
  rw [Nat.le_div_iff_mul_le (by positivity), ← pow_add]
  exact two_pow_le_of_lt_bitLength (by unfold droppedBits at h ⊢; omega)

theorem k_le_droppedBits (m k : Nat) : k ≤ droppedBits m k := Nat.le_max_left _ _

/-! #### Values of magnitude fields -/

/-- A significand of 24 bits (or of fewer in the lowest binade), or the next power of two, at its exponent. -/
theorem fieldValue_of_significand {e n : Nat} (hlow : e = 0 ∨ 2 ^ 23 ≤ n) (hn : n ≤ 2 ^ 24) :
    fieldValue (e * 2 ^ 23 + n) = n * 2 ^ e := by
  unfold fieldValue
  rcases Nat.lt_or_ge n (2 ^ 23) with h | h
  · obtain rfl : e = 0 := by omega
    rw [if_pos (by omega)]
    omega
  rcases Nat.lt_or_eq_of_le hn with h' | rfl
  · rw [if_neg (by omega), show (e * 2 ^ 23 + n) / 2 ^ 23 - 1 = e by omega,
      show 2 ^ 23 + (e * 2 ^ 23 + n) % 2 ^ 23 = n by omega]
  · rw [if_neg (by omega), show (e * 2 ^ 23 + 2 ^ 24) / 2 ^ 23 - 1 = e + 1 by omega,
      show 2 ^ 23 + (e * 2 ^ 23 + 2 ^ 24) % 2 ^ 23 = 2 ^ 23 by omega, pow_succ]
    ring

/-- The value of a pattern is a multiple of 2^e, or its magnitude is below 2^(23 + e). -/
theorem unitsOf_multiple_or_small (c : Word) (e : Nat) :
    (2 ^ e : Int) ∣ unitsOf c ∨ (unitsOf c).natAbs < 2 ^ 23 * 2 ^ e := by
  have habs : (unitsOf c).natAbs = fieldValue (magnitude c) := by
    rw [unitsOf_eq, natAbs_withSign, f32Mag_eq, Int.natAbs_natCast]
  have hdvd : (2 ^ e : Int) ∣ unitsOf c ↔ 2 ^ e ∣ fieldValue (magnitude c) := by
    rw [← habs, ← Int.natCast_dvd]
    push_cast
    rfl
  rw [hdvd, habs, fieldValue]
  split_ifs with h
  · have := Nat.one_le_two_pow (n := e)
    right
    omega
  rcases Nat.lt_or_ge (magnitude c / 2 ^ 23 - 1) e with he | he
  · right
    calc (2 ^ 23 + magnitude c % 2 ^ 23) * 2 ^ (magnitude c / 2 ^ 23 - 1)
        < (2 ^ 23 * 2) * 2 ^ (magnitude c / 2 ^ 23 - 1) := Nat.mul_lt_mul_of_pos_right (by omega) (by positivity)
      _ = 2 ^ 23 * 2 ^ (magnitude c / 2 ^ 23 - 1 + 1) := by ring
      _ ≤ 2 ^ 23 * 2 ^ e := Nat.mul_le_mul_left _ (Nat.pow_le_pow_right (by decide) he)
  · exact .inl ((pow_dvd_pow 2 he).mul_left _)

/-! #### The rounded magnitude -/

/-- The field f32RoundMag computes, before it is bounded by that of infinity. -/
def roundedField (m k : Nat) : Nat :=
  (droppedBits m k - k) * 2 ^ 23 + roundHalfEven m (droppedBits m k)

theorem f32RoundMag_eq (m k : Nat) : f32RoundMag m k = min (roundedField m k) 0x7F800000 := rfl

theorem roundHalfEven_le_significand (m k : Nat) : roundHalfEven m (droppedBits m k) ≤ 2 ^ 24 :=
  (roundHalfEven_bounds m _).2.trans (quotient_lt m k)

/-- The rounded field stands for the rounded quotient, times the unit of the last bit kept. -/
theorem fieldValue_roundedField (m k : Nat) :
    fieldValue (roundedField m k) = roundHalfEven m (droppedBits m k) * 2 ^ (droppedBits m k - k) := by
  refine fieldValue_of_significand ?_ (roundHalfEven_le_significand m k)
  rcases Nat.eq_or_lt_of_le (k_le_droppedBits m k) with h | h
  · exact .inl (by omega)
  · exact .inr ((le_quotient h).trans (roundHalfEven_bounds m _).1)

/-- The result is bounded by infinity's field from the midpoint of the largest finite number and 2^128 on. -/
theorem infinity_le_roundedField_iff (m k : Nat) :
    0x7F800000 ≤ roundedField m k ↔ (2 ^ 25 - 1) * 2 ^ (252 + k) ≤ m := by
  have hle := roundHalfEven_le_significand m k
  have hk := k_le_droppedBits m k
  unfold roundedField
  rcases Nat.lt_trichotomy (droppedBits m k) (253 + k) with h | h | h
  · have hlen : bitLength m ≤ 276 + k := by unfold droppedBits at h; omega
    have hm : m < 2 ^ 24 * 2 ^ (252 + k) := by
      rw [← pow_add]
      exact (lt_two_pow_bitLength m).trans_le (Nat.pow_le_pow_right (by decide) (by omega))
    constructor <;> intro hi <;> omega
  · have hmid := le_roundHalfEven_iff (m := m) (d := droppedBits m k) (n := 2 ^ 24) (by decide) (by decide)
    rw [h, show 253 + k = 252 + k + 1 by omega, pow_succ] at hmid
    rw [h, show 253 + k - k = 253 by omega, show 253 + k = 252 + k + 1 by omega]
    omega
  · have hq := (le_quotient (m := m) (k := k) (by omega)).trans (roundHalfEven_bounds m _).1
    have hm : 2 ^ 25 * 2 ^ (252 + k) ≤ m := by
      rw [← pow_add]
      exact two_pow_le_of_lt_bitLength (by unfold droppedBits at h; omega)
    constructor <;> intro hi <;> omega

/-- Of all multiples of the unit of the last bit kept, and all numbers below 2^23 such units, none is nearer. -/
theorem roundedField_nearest (m k : Nat) (v : Int)
    (hv : (2 ^ (droppedBits m k - k) : Int) ∣ v ∨ v.natAbs < 2 ^ 23 * 2 ^ (droppedBits m k - k)) :
    ((fieldValue (roundedField m k) : Int) * 2 ^ k - m).natAbs ≤ (v * 2 ^ k - m).natAbs ∧
    (((fieldValue (roundedField m k) : Int) * 2 ^ k - m).natAbs = (v * 2 ^ k - m).natAbs →
      v = fieldValue (roundedField m k) ∨ roundHalfEven m (droppedBits m k) % 2 = 0) := by
  have hunit : ∀ j : Int, j * 2 ^ (droppedBits m k - k) * 2 ^ k = j * 2 ^ droppedBits m k := fun j => by
    rw [mul_assoc, ← pow_add, Nat.sub_add_cancel (k_le_droppedBits m k)]
  rw [fieldValue_roundedField]
  push_cast
  rw [hunit]
  by_cases hdvd : (2 ^ (droppedBits m k - k) : Int) ∣ v
  · obtain ⟨j, rfl⟩ := hdvd
    obtain ⟨hnear, htie⟩ := roundHalfEven_nearest m (droppedBits m k) j
    rw [mul_comm _ j, hunit]
    exact ⟨hnear, fun h => (htie h).imp_left fun hj => by rw [hj]⟩
  · have hsmall := hv.resolve_left hdvd
    have hlt : k < droppedBits m k := by
      by_contra hge
      rw [Nat.sub_eq_zero_of_le (Nat.le_of_not_lt hge)] at hdvd
      exact hdvd (by simp)
    have hfar : v * 2 ^ k < 2 ^ 23 * 2 ^ droppedBits m k := by
      rw [← hunit (2 ^ 23)]
      refine mul_lt_mul_of_pos_right ?_ (by positivity)
      have : (v.natAbs : Int) < 2 ^ 23 * 2 ^ (droppedBits m k - k) := by exact_mod_cast hsmall
      omega
    have hm : (2 ^ 23 * 2 ^ droppedBits m k : Int) ≤ m := by
      exact_mod_cast (Nat.mul_le_mul_right _ (le_quotient hlt)).trans (Nat.div_mul_le_self m _)
    have hnear := (roundHalfEven_nearest m (droppedBits m k) (2 ^ 23)).1
    omega

/-! #### The rounded pattern -/

/-- Distances are the same when the signs of both numbers are inverted. -/
theorem natAbs_mul_sub_withSign (neg : Bool) (v x : Int) (k : Nat) :
    (v * 2 ^ k - withSign neg x).natAbs = (withSign neg v * 2 ^ k - x).natAbs := by
  rw [← natAbs_withSign neg]
  congr 1
  calc withSign neg (v * 2 ^ k - withSign neg x)
      = withSign neg v * 2 ^ k - withSign neg (withSign neg x) := by unfold withSign; ring
    _ = withSign neg v * 2 ^ k - x := by rw [withSign_withSign]

theorem even_iff_magnitude (a : Word) : a.getLsbD 0 = false ↔ magnitude a % 2 = 0 := by
  unfold magnitude
  rw [← BitVec.testBit_toNat, Nat.testBit_zero, decide_eq_false_iff_not]
  omega

/-- f32Round gives the nearest pattern, ties to even, and an infinity from the overflow midpoint on. -/
theorem rounds_f32Round (neg : Bool) (m k : Nat) : Rounds (withSign neg m) k (f32Round neg m k) := by
  have hover := infinity_le_roundedField_iff m k
  unfold Rounds
  rw [natAbs_withSign, Int.natAbs_natCast]
  refine ⟨fun h => ?_, fun h => ?_⟩
  · have hm : 0 < m := lt_of_lt_of_le (by positivity) h
    have hneg : decide (withSign neg m < 0) = neg := by cases neg <;> simp [withSign, hm]
    rw [hneg, ← f32Infinity_eq, f32Infinity, f32Round, f32RoundMag_eq, Nat.min_eq_right (hover.mpr h)]
  · have hfin : roundedField m k < 0x7F800000 := Nat.lt_of_not_le fun hle => absurd (hover.mp hle) (Nat.not_le_of_lt h)
    have hmag : magnitude (f32Round neg m k) = roundedField m k := by
      rw [f32Round_magnitude, f32RoundMag_eq, Nat.min_eq_left (Nat.le_of_lt hfin)]
    have hval : unitsOf (f32Round neg m k) = withSign neg (fieldValue (roundedField m k)) := by
      rw [unitsOf_eq, f32Mag_eq, f32Round_msb, hmag]
    refine ⟨lt_of_eq_of_lt hmag hfin, fun c _ => ?_⟩
    have hgrid : (2 ^ (droppedBits m k - k) : Int) ∣ withSign neg (unitsOf c) ∨
        (withSign neg (unitsOf c)).natAbs < 2 ^ 23 * 2 ^ (droppedBits m k - k) := by
      rw [natAbs_withSign]
      exact (unitsOf_multiple_or_small c _).imp_left (Dvd.dvd.mul_left · _)
    obtain ⟨hnear, htie⟩ := roundedField_nearest m k _ hgrid
    beta_reduce
    rw [natAbs_mul_sub_withSign, natAbs_mul_sub_withSign, hval, withSign_withSign]
    refine ⟨hnear, fun h => (htie h).imp (fun hv => ?_) fun heven => ?_⟩
    · rw [← hv, withSign_withSign]
    · rw [even_iff_magnitude, hmag, roundedField]
      omega

/-! #### The operations -/

theorem withSign_mul (s t : Bool) (v w : Int) : withSign s v * withSign t w = withSign (s ^^ t) (v * w) := by
  cases s <;> cases t <;> simp [withSign]

theorem withSign_decide_neg (x : Int) : withSign (decide (x < 0)) x.natAbs = x := by
  by_cases h : x < 0
  · rw [withSign, if_pos (decide_eq_true h)]
    omega
  · rw [withSign, if_neg (by simpa using h)]
    omega

theorem rounds_fmul {a b : Word} (ha : IsFinite a) (hb : IsFinite b) :
    Rounds (unitsOf a * unitsOf b) 149 (fmul a b) := by
  rw [fmul_of_finite ha hb, unitsOf_eq a, unitsOf_eq b, withSign_mul, ← Nat.cast_mul]
  exact rounds_f32Round _ _ _

theorem fadd_of_zero_sum {a b : Word} (ha : IsFinite a) (hb : IsFinite b) (h : unitsOf a + unitsOf b = 0) :
    fadd a b = f32Round (a.msb && b.msb) 0 0 := by
  rw [fadd_of_finite ha hb, if_pos h]
  rfl

theorem rounds_fadd {a b : Word} (ha : IsFinite a) (hb : IsFinite b) : Rounds (unitsOf a + unitsOf b) 0 (fadd a b) := by
  by_cases h : unitsOf a + unitsOf b = 0
  · have hr := rounds_f32Round (a.msb && b.msb) 0 0
    rwa [withSign, Nat.cast_zero, mul_zero, ← h, ← fadd_of_zero_sum ha hb h] at hr
  · rw [fadd_of_finite ha hb, if_neg h]
    have hr := rounds_f32Round (decide (unitsOf a + unitsOf b < 0)) (unitsOf a + unitsOf b).natAbs 0
    rwa [withSign_decide_neg] at hr

/-- An exact zero sum is -0.0 only of two negative patterns. -/
theorem fadd_zero_sum_sign {a b : Word} (ha : IsFinite a) (hb : IsFinite b) (h : unitsOf a + unitsOf b = 0) :
    fadd a b = if a.msb && b.msb then 0x80000000#32 else 0#32 := by
  rw [fadd_of_finite ha hb, if_pos h]
  cases a.msb && b.msb <;> rfl

/-- Settles O50: rounding is to the nearest multiple of the last bit kept, and fsub adds the negated pattern. -/
theorem roundingIsNearestEven : Obligations.RoundingIsNearestEven := by
  refine ⟨fun neg m k => ⟨rounds_f32Round neg m k, f32Round_msb neg m k⟩, fun a b ha hb => ?_⟩
  have hneg := isFinite_negate_iff.mpr hb
  have hsub : unitsOf a - unitsOf b = unitsOf a + unitsOf (f32Negate b) := by rw [unitsOf_negate, sub_eq_add_neg]
  refine ⟨rounds_fmul ha hb, ?_, rounds_fadd ha hb, fadd_zero_sum_sign ha hb, ?_, fun h => ?_⟩
  · rw [fmul_of_finite ha hb, f32Round_msb]
  · rw [hsub]
    exact rounds_fadd ha hneg
  · rw [fsub, fadd_zero_sum_sign ha hneg (hsub ▸ h), f32Negate_msb]

end Sys2Proof.Machine

/-! ### What the commands leave unchanged -/

namespace Sys2Proof.Machine

open Sys2Proof.Claims

/-- The effect of a command that executes, its completion apart. -/
def effectOf (i : Instr) (s : State) : State :=
  match i with
  | .nop => s
  | .resetState => clearHistory (clearRemainder s)
  | .mixGenlut => generateLut s
  | .mixAdvance n => advancePhase n s
  | .mixRefresh => advancePhase (complexOutputs s) s
  | .mixReset => resetPhase s
  | .firRefreshC => refreshComplex s
  | .firRefreshR => refreshReal s
  | .firClear => clearRemainder s
  | .demSave => saveHistory s
  | .demReset => clearHistory s
  | i => storeAll (planOf i s).stores s

theorem runPlan_congr {w : Word} {p : Plan} {e e' : State → State} {s : State} (h : e s = e' s) :
    runPlan w p e s = runPlan w p e' s := by
  simp only [runPlan, h]

theorem exec_eq_runPlan (i : Instr) (s : State) : exec i s = runPlan (encode i) (planOf i s) (effectOf i) s := by
  cases i with
  | nop | resetState | mixGenlut | mixAdvance | mixRefresh | mixReset => rfl
  | firRefreshC | firRefreshR | firClear | demReset => rfl
  | _ => exact runPlan_congr rfl

/-- The state with a command's end recorded in it: P gone, DONE and the error record as given. -/
def endedWith (u : State) (done : Bool) (error : Option Cause) (info addr : Word) : State :=
  { u with pending := none, raced := [], done := done, error := error, errInfo := info, errAddr := addr }

/-- A command leaves the state it started in or, if it executes, the one its effect gives, with its end recorded. -/
theorem exec_ends {i : Instr} {s t : State} (h : exec i s = .next t) :
    ∃ u d e info addr, t = endedWith u d e info addr ∧ (u = s ∨ Executes i s ∧ u = effectOf i s) := by
  rcases runPlan_cases (exec_eq_runPlan i s ▸ h) with ⟨-, rfl⟩ | ⟨-, f, -, rfl⟩ | ⟨hn, hf, rfl⟩
  · exact ⟨s, _, _, _, _, rfl, .inl rfl⟩
  · exact ⟨s, _, _, _, _, rfl, .inl rfl⟩
  · exact ⟨effectOf i s, _, _, _, _, rfl, .inr ⟨executes_iff.mpr ⟨hn, hf⟩, rfl⟩⟩

/-- What recording the end of a command does not touch, and its effect keeps, the command keeps. -/
theorem exec_keeps {α : Type} {proj : State → α} {i : Instr} {s t : State} (h : exec i s = .next t)
    (hend : ∀ u d e info addr, proj (endedWith u d e info addr) = proj u)
    (heffect : proj (effectOf i s) = proj s) : proj t = proj s := by
  obtain ⟨u, d, e, info, addr, rfl, rfl | ⟨-, rfl⟩⟩ := exec_ends h
  · exact hend ..
  · rw [hend, heffect]

section

variable {i : Instr} {s t : State} (h : exec i s = .next t)
include h

theorem exec_conv : t.conv = s.conv := exec_keeps h (fun _ _ _ _ _ => rfl) (by cases i <;> rfl)

theorem exec_mix (he : (effectOf i s).mix = s.mix) : t.mix = s.mix := exec_keeps h (fun _ _ _ _ _ => rfl) he

theorem exec_fir (he : (effectOf i s).fir = s.fir) : t.fir = s.fir := exec_keeps h (fun _ _ _ _ _ => rfl) he

theorem exec_dem (he : (effectOf i s).dem = s.dem) : t.dem = s.dem := exec_keeps h (fun _ _ _ _ _ => rfl) he

theorem exec_memory (he : (effectOf i s).dmem = s.dmem) : MemoryKept s t := fun a =>
  congrArg (memRead8 · a) (exec_keeps (proj := State.dmem) h (fun _ _ _ _ _ => rfl) he)

/-- No command writes the control state (10 R31). -/
theorem exec_control : ControlKept s t := by
  refine ⟨?_, ?_, ?_, ?_, ?_, ?_⟩ <;> exact exec_keeps h (fun _ _ _ _ _ => rfl) (by cases i <;> rfl)

end

/-- Settles O36: the effects of these commands touch no DMEM and only their own kernel's bank. -/
theorem maintenanceCommandsFrame : Obligations.MaintenanceCommandsFrame := by
  intro s t
  refine ⟨fun i hi h => ⟨exec_memory h ?_, exec_control h, exec_conv h⟩,
    fun n h => ⟨exec_memory h rfl, exec_control h, exec_conv h, exec_fir h rfl, exec_dem h rfl⟩,
    fun h => ⟨exec_conv h, exec_mix h rfl, exec_fir h rfl, exec_dem h rfl⟩,
    fun i hi h => ⟨exec_fir h ?_, exec_dem h ?_⟩, fun i hi h => ⟨exec_mix h ?_, exec_dem h ?_⟩,
    fun i hi h => ⟨exec_mix h ?_, exec_fir h ?_⟩, fun h => exec_mix h rfl⟩
  all_goals fin_cases hi <;> rfl

/-- Of the mixer bank no effect changes more than MIX_BASE, the LUTs and LUT_VALID, of the FIR bank more than the
remainder, of the demodulator bank more than the history (10 R31, R47, R63). -/
theorem effectOf_banks (i : Instr) (s : State) :
    (effectOf i s).mix = { s.mix with
      base := (effectOf i s).mix.base, lutRe := (effectOf i s).mix.lutRe, lutIm := (effectOf i s).mix.lutIm
      lutValid := (effectOf i s).mix.lutValid } ∧
    (effectOf i s).fir = { s.fir with remRe := (effectOf i s).fir.remRe, remIm := (effectOf i s).fir.remIm } ∧
    (effectOf i s).dem = { s.dem with hre := (effectOf i s).dem.hre, him := (effectOf i s).dem.him } := by
  cases i <;> exact ⟨rfl, rfl, rfl⟩

/-- Settles O37, from the effects of the commands. -/
theorem noCommandWritesConfiguration : Obligations.NoCommandWritesConfiguration := by
  intro i s t h
  obtain ⟨hparams, hdone, herr, -⟩ := exec_control h
  refine ⟨hdone, herr, hparams, exec_conv h, ?_⟩
  obtain ⟨u, d, e, info, addr, rfl, rfl | ⟨-, rfl⟩⟩ := exec_ends h
  · exact ⟨rfl, rfl, rfl⟩
  · exact effectOf_banks i s

/-! #### Banks of other kernels are not read -/

/-- What elements are written depends on the races of the state alone (20 R112). -/
theorem writeStores_congr {s u : State} (hraced : u.raced = s.raced) (hfresh : u.fresh = s.fresh) {m : Memory} {n : Nat}
    {sts : List Store} : writeStores u m n sts = writeStores s m n sts := by
  induction sts generalizing m n with
  | nil => rfl
  | cons st rest ih => simp only [writeStores, racedWord, hraced, hfresh, ih]

/-- `r` replaces nothing that ending a command or writing its elements reads or changes. -/
structure ReplacesBanks (r : State → State) : Prop where
  params : ∀ u, (r u).params = u.params
  completes : ∀ u, complete (r u) = r (complete u)
  raises : ∀ f w u, raiseError f w (r u) = r (raiseError f w u)
  reads : ∀ u, (r u).dmem = u.dmem ∧ (r u).raced = u.raced ∧ (r u).fresh = u.fresh
  writes : ∀ u m n, r { u with dmem := m, fresh := n } = { r u with dmem := m, fresh := n }

theorem ReplacesBanks.storeAll_comm {r : State → State} (hr : ReplacesBanks r) (sts : List Store) (s : State) :
    storeAll sts (r s) = r (storeAll sts s) := by
  obtain ⟨hdmem, hraced, hfresh⟩ := hr.reads s
  refine Eq.trans ?_ (hr.writes s (writeStores s s.dmem 0 sts) (freshAfter s sts.length)).symm
  simp only [storeAll, freshAfter, writeStores_congr hraced hfresh, hdmem, hraced, hfresh]

/-- A command whose plan does not see the replaced banks, and whose effect passes them through, does the same. -/
theorem ReplacesBanks.exec_mapNext {r : State → State} (hr : ReplacesBanks r) {i : Instr} {s : State}
    (hplan : planOf i (r s) = planOf i s) (heffect : effectOf i (r s) = r (effectOf i s)) :
    exec i (r s) = mapNext r (exec i s) := by
  rw [exec_eq_runPlan, exec_eq_runPlan, hplan]
  cases hn : (planOf i s).noop with
  | true => rw [runPlan_noop hn, runPlan_noop hn, hr.completes, mapNext]
  | false =>
    cases hf : planFailure s.params.dmemSize (planOf i s) with
    | some f => rw [runPlan_raises hn (hr.params s ▸ hf), runPlan_raises hn hf, hr.raises, mapNext]
    | none => rw [runPlan_executes hn (hr.params s ▸ hf), runPlan_executes hn hf, heffect, hr.completes, mapNext]

/-- A command that stores elements need only have a plan that does not see the replaced banks. -/
theorem ReplacesBanks.exec_mapNext_of_stores {r : State → State} (hr : ReplacesBanks r) {i : Instr} {s : State}
    (hplan : planOf i (r s) = planOf i s) (hi : ∀ u, effectOf i u = storeAll (planOf i u).stores u) :
    exec i (r s) = mapNext r (exec i s) :=
  hr.exec_mapNext hplan (by rw [hi, hi, hplan, hr.storeAll_comm])

/-- Settles O39: the plan and the effect of each command are those of the state with the other banks replaced. -/
theorem kernelsReadOnlyTheirBank : Obligations.KernelsReadOnlyTheirBank := by
  intro s c x f d
  have hconv : ReplacesBanks fun t => { t with mix := x, fir := f, dem := d } :=
    ⟨fun _ => rfl, fun _ => rfl, fun _ _ _ => rfl, fun _ => ⟨rfl, rfl, rfl⟩, fun _ _ _ => rfl⟩
  have hmix : ReplacesBanks fun t => { t with conv := c, fir := f, dem := d } :=
    ⟨fun _ => rfl, fun _ => rfl, fun _ _ _ => rfl, fun _ => ⟨rfl, rfl, rfl⟩, fun _ _ _ => rfl⟩
  have hfir : ReplacesBanks fun t => { t with conv := c, mix := x, dem := d } :=
    ⟨fun _ => rfl, fun _ => rfl, fun _ _ _ => rfl, fun _ => ⟨rfl, rfl, rfl⟩, fun _ _ _ => rfl⟩
  have hdem : ReplacesBanks fun t => { t with conv := c, mix := x, fir := f } :=
    ⟨fun _ => rfl, fun _ => rfl, fun _ _ _ => rfl, fun _ => ⟨rfl, rfl, rfl⟩, fun _ _ _ => rfl⟩
  refine ⟨fun i hi => ?_, fun i hi => ?_, fun i hi => ?_, fun i hi => ?_⟩
  · rcases hi with ⟨n, rfl⟩ | rfl <;> exact hconv.exec_mapNext_of_stores rfl fun _ => rfl
  · rcases hi with ⟨n, rfl | rfl⟩ | hi
    · exact hmix.exec_mapNext_of_stores rfl fun _ => rfl
    · exact hmix.exec_mapNext rfl rfl
    · fin_cases hi
      · exact hmix.exec_mapNext_of_stores rfl fun _ => rfl
      all_goals exact hmix.exec_mapNext rfl rfl
  · rcases hi with ⟨n, rfl | rfl | rfl⟩ | hi
    iterate 3 exact hfir.exec_mapNext_of_stores rfl fun _ => rfl
    fin_cases hi
    iterate 3 exact hfir.exec_mapNext_of_stores rfl fun _ => rfl
    all_goals exact hfir.exec_mapNext rfl rfl
  · rcases hi with ⟨n, rfl⟩ | hi
    · exact hdem.exec_mapNext_of_stores rfl fun _ => rfl
    · fin_cases hi
      · exact hdem.exec_mapNext_of_stores rfl fun _ => rfl
      all_goals exact hdem.exec_mapNext rfl rfl

end Sys2Proof.Machine

/-! ### Whose move a step is -/

namespace Sys2Proof.Machine

open Sys2Proof.Claims

theorem turnMove_eq_headMove (turn : HostTurn) : turnMove turn = headMove turn := by cases turn <;> rfl

theorem neverWaits_eq_needNotWait (m : HostMove) : neverWaits m = needNotWait m := by
  cases m with
  | regRead off bytes =>
    have hoff : off.toNat = 0x014 ↔ off = 0x014#12 := by rw [← BitVec.toNat_inj]; rfl
    rw [Bool.eq_iff_iff]
    simp only [neverWaits, needNotWait, properAccess, Bool.and_eq_true, beq_iff_eq, hoff]
    constructor
    · rintro ⟨⟨rfl, -⟩, rfl⟩
      exact ⟨rfl, rfl⟩
    · rintro ⟨rfl, rfl⟩
      exact ⟨⟨rfl, rfl⟩, rfl⟩
  | _ => rfl

/-- An entry stands back unless it is early and its move need not wait. -/
theorem standsBack_eq (turn : HostTurn) : standsBack turn = !(turnEarly turn && neverWaits (turnMove turn)) := by
  cases turn with
  | once early m => rw [neverWaits_eq_needNotWait, Bool.not_and]; rfl
  | wait polls => cases polls <;> rfl

/-- BUSY, DONE, ERR and LUT_VALID in STATUS (10 R39). -/
theorem statusWord_bits (s : State) :
    (statusWord s).getLsbD 0 = busy s ∧ (statusWord s).getLsbD 1 = s.done ∧ (statusWord s).getLsbD 2 = errFlag s ∧
    (statusWord s).getLsbD 3 = s.mix.lutValid := by
  refine ⟨?_, ?_, ?_, ?_⟩ <;> simp only [statusWord, bit, BitVec.getLsbD_append, BitVec.getLsbD_ofBool] <;> simp

variable {s t : State}

theorem hostTurn_of_hostWaits {w : Word} (hp : s.pending = some w) (h : HostWaits s) : hostTurn s = none := by
  unfold hostTurn
  cases hq : s.host with
  | nil => rfl
  | cons turn rest =>
    have hback : standsBack turn = true := h turn (by simp [hq])
    rw [standsBack_eq] at hback
    simp [hp, hback]

theorem step_of_hostWaits {w : Word} (hp : s.pending = some w) (h : HostWaits s) : step s = coreStep w s := by
  simp only [step, hostTurn_of_hostWaits hp h, hp]

/-- Settles O5: the host's turn is empty, so the step is the core's. -/
theorem stepRunsPendingCommand : Obligations.StepRunsPendingCommand := by
  intro s w hp h
  have hstep := step_of_hostWaits hp h
  exact ⟨hstep, fun i hi => by rw [hstep, coreStep, hi]⟩

theorem hostWaits_of_nextMove {m : HostMove} (h : NextMove s m) (hm : needNotWait m = false) : HostWaits s := by
  intro turn hturn
  rw [NextMove, Option.mem_def.mp hturn] at h
  obtain rfl : headMove turn = m := Option.some.inj h
  rw [standsBack_eq, turnMove_eq_headMove, neverWaits_eq_needNotWait, hm, Bool.and_false, Bool.not_false]

/-- Settles O7: these moves need waiting, so the host's turn is empty. -/
theorem registerAccessWaits : Obligations.RegisterAccessWaits := by
  intro s w hp
  refine ⟨fun off bytes v h => step_of_hostWaits hp (hostWaits_of_nextMove h rfl),
    fun off bytes h hne => step_of_hostWaits hp (hostWaits_of_nextMove h ?_)⟩
  simpa only [needNotWait, Bool.and_eq_false_iff, beq_eq_false_iff_ne, not_and_or] using hne

/-- The head of the queue makes its move when no command is pending or it does not stand back. -/
theorem step_of_turn {turn : HostTurn} {rest : List HostTurn} (hq : s.host = turn :: rest)
    (h : s.pending = none ∨ standsBack turn = false) :
    step s = hostMove (headMove turn) { s with host := turnLeft s turn ++ rest } := by
  have hturn : hostTurn s = some (turnMove turn, { s with host := turnLeft s turn ++ rest }) := by
    rcases h with hp | hback
    · simp [hostTurn, hq, hp]
    · rw [standsBack_eq] at hback
      simp [hostTurn, hq, hback]
  simp only [step, hturn, turnMove_eq_headMove]

/-- Settles O6, by the forms of the head of the queue. -/
theorem stepMakesHostMove : Obligations.StepMakesHostMove := by
  intro s
  refine ⟨fun hp => ⟨fun early m rest hq => ?_, fun polls rest hq => ?_, fun hq => ?_⟩,
    fun hp => ⟨fun m rest hm hq => ?_, fun polls rest hpolls hq => ?_, statusWord s, rfl, ?_⟩⟩
  · exact step_of_turn hq (.inl hp)
  · rw [step_of_turn hq (.inl hp)]
    simp [turnLeft, busy, hp, headMove]
  · simp [step, hostTurn, hq, hp]
  · exact step_of_turn hq (.inr (by simp [standsBack, hm]))
  · rw [step_of_turn hq (.inr (by simp [standsBack, hpolls]))]
    simp [turnLeft, busy, hp, headMove]
  · rw [(statusWord_bits s).1, busy, hp]

/-! ### The register port -/

/-- The register `r` stands at the window offset `off`. -/
def PortAt (off : BitVec 12) (r : Reg) : Prop := properAccess off 4 = true ∧ regAt off.toNat = some r

variable {off : BitVec 12} {r : Reg}

theorem hostMove_read (h : PortAt off r) (hi : indexOutOfRange s r = none) : Reads s off (regValue s r) := by
  obtain ⟨hproper, hr⟩ := h
  simp [Reads, hostMove, portRead, portReadValue, hproper, hr, hi]

theorem hostMove_write (v : Word) (h : PortAt off r) (hi : indexOutOfRange s r = none) :
    hostMove (.regWrite off 4 v) s = .next { regStore r v s with reply := .completed } := by
  obtain ⟨hproper, hr⟩ := h
  simp [hostMove, portWrite, hproper, hr, hi]

theorem hostMove_read_outOfRange {index : Word} (h : PortAt off r) (hi : indexOutOfRange s r = some index) :
    hostMove (.regRead off 4) s =
      .next { recordRegRange (off.setWidth 32) index s with reply := .value 0#32 } := by
  obtain ⟨hproper, hr⟩ := h
  simp [hostMove, portRead, portReadValue, hproper, hr, hi]

theorem hostMove_write_outOfRange {index : Word} (v : Word) (h : PortAt off r)
    (hi : indexOutOfRange s r = some index) :
    hostMove (.regWrite off 4 v) s =
      .next { recordRegRange (off.setWidth 32) index s with reply := .completed } := by
  obtain ⟨hproper, hr⟩ := h
  simp [hostMove, portWrite, hproper, hr, hi]

/-! #### STATUS and CMD -/

theorem writeStatus_eq (v : Word) (s : State) :
    writeStatus v s = { s with
      done := s.done && !v.getLsbD 1, error := if v.getLsbD 2 then none else s.error } := by
  unfold writeStatus
  cases v.getLsbD 1 <;> cases v.getLsbD 2 <;> simp [clearError]

theorem recordRegRange_eq (off index : Word) (s : State) :
    recordRegRange off index s =
      if s.error = none then { s with error := some .regRange, errInfo := off, errAddr := index } else s := by
  cases h : s.error with
  | none => rw [recordRegRange_of_noError h, if_pos rfl]
  | some c => rw [recordRegRange_of_error h, if_neg nofun]

/-- A word written to CMD becomes pending unless an error is recorded (10 R41, 60 R314). -/
theorem issueCommand_eq (w : Word) (s : State) :
    issueCommand w s = { s with
      pending := if s.error = none then some w else s.pending, raced := if s.error = none then [] else s.raced } := by
  cases h : s.error with
  | none => simp only [issueCommand, h, if_pos]
  | some c => simp only [issueCommand, h, if_neg, reduceCtorEq, not_false_eq_true]; rw [← h]

/-- Settles O51: a word written to CMD is issued or discarded, and CMD reads 0. -/
theorem cmdWriteIssuesOrIsDiscarded : Obligations.CmdWriteIssuesOrIsDiscarded := by
  intro s w
  have hport : PortAt 0x018#12 .cmd := ⟨rfl, rfl⟩
  refine ⟨fun h => ?_, fun h => ?_, hostMove_read hport rfl⟩
  · simp only [hostMove_write w hport rfl, regStore, issueCommand_eq, if_neg h]
  · simp only [hostMove_write w hport rfl, regStore, issueCommand_eq, if_pos h]

/-- Settles O53, from what a STATUS write does. -/
theorem statusWriteClears : Obligations.StatusWriteClears := by
  intro s v
  rw [hostMove_write v (r := .status) ⟨rfl, rfl⟩ rfl, regStore, writeStatus_eq]

theorem reads_status (s : State) : Reads s 0x014#12 (statusWord s) := hostMove_read (r := .status) ⟨rfl, rfl⟩ rfl

/-- The fields of STATUS by their weights (10 R39). -/
theorem statusWord_toNat (s : State) :
    (statusWord s).toNat = 256 * (causeField s).toNat + 8 * s.mix.lutValid.toNat + 4 * (errFlag s).toNat +
      2 * s.done.toNat + (busy s).toNat := by
  have happend {m : Nat} (x : BitVec m) {n : Nat} (y : BitVec n) : (x ++ y).toNat = x.toNat * 2 ^ n + y.toNat := by
    rw [BitVec.toNat_append, ← Nat.shiftLeft_add_eq_or_of_lt y.isLt, Nat.shiftLeft_eq]
  simp only [statusWord, happend, bit, BitVec.toNat_ofBool, BitVec.toNat_ofNat]
  omega

/-- Settles O52, from the weights and the bits of the fields of STATUS. -/
theorem statusReadBits : Obligations.StatusReadBits := by
  intro s
  have hval := statusWord_toNat s
  have hlow : 8 * s.mix.lutValid.toNat + 4 * (errFlag s).toNat + 2 * s.done.toNat + (busy s).toNat < 16 := by
    have := Bool.toNat_le s.mix.lutValid
    have := Bool.toNat_le (errFlag s)
    have := Bool.toNat_le s.done
    have := Bool.toNat_le (busy s)
    omega
  have hfield := (causeField s).isLt
  have hcause : (statusWord s).toNat / 256 % 256 = (causeField s).toNat := by omega
  obtain ⟨hbusy, hdone, herr, hvalid⟩ := statusWord_bits s
  refine ⟨statusWord s, reads_status s, hbusy, hdone, herr, hvalid, fun h => ?_,
    fun c h => ?_, by omega, by omega⟩
  · rw [hcause, causeField, h]
    rfl
  · rw [hcause, causeField, h]
    cases c <;> simp [causeNumbers, causeCode]

/-! ### LUT_VALID and what it records -/

/-! #### The register map -/

/-- A register of the map is a LUT entry in the window at 0x400 or stands in the tables (10 R37). -/
theorem regAt_cases {off : Nat} (h : regAt off = some r) :
    (∃ k < 256, off = 0x400 + 4 * k ∧ r = .convLut k) ∨
    (off, r) ∈ globalRegs ++ convRegs ++ mixRegs ++ firRegs ++ demRegs := by
  unfold regAt at h
  split_ifs at h
  · exact .inl ⟨(off - 0x400) / 4, by omega, by omega, (Option.some.inj h).symm⟩
  · obtain ⟨c, hc, rfl⟩ := Option.map_eq_some_iff.mp h
    obtain rfl : c.1 = off := by simpa using List.find?_some hc
    exact .inr (List.mem_of_find?_eq_some hc)

/-- No register but a LUT entry stands at two offsets. -/
theorem portAt_unique {o : BitVec 12} (h : PortAt off r) (ho : PortAt o r) (hr : ∀ k, r ≠ .convLut k) :
    off = o := by
  have hnodup : ((globalRegs ++ convRegs ++ mixRegs ++ firRegs ++ demRegs).map Prod.snd).Nodup := by decide
  have hmem {n : Nat} (hn : regAt n = some r) := (regAt_cases hn).resolve_left fun ⟨k, _, _, hk⟩ => hr k hk
  have heq := List.inj_on_of_nodup_map hnodup (hmem h.2) (hmem ho.2) rfl
  exact BitVec.eq_of_toNat_eq (congrArg Prod.fst heq)

/-! #### What a host move does to the mixer -/

@[simp] theorem recordRegRange_params (o index : Word) (s : State) : (recordRegRange o index s).params = s.params := by
  rw [recordRegRange_eq]
  split_ifs <;> rfl

@[simp] theorem recordRegRange_mix (o index : Word) (s : State) : (recordRegRange o index s).mix = s.mix := by
  rw [recordRegRange_eq]
  split_ifs <;> rfl

@[simp] theorem regStore_params (r : Reg) (v : Word) (s : State) : (regStore r v s).params = s.params := by
  cases r with
  | status => rw [regStore, writeStatus_eq]
  | cmd => rw [regStore, issueCommand_eq]
  | _ => rfl

/-- All a register-port write can do: nothing, record REG_RANGE, or store in a register in range (10 R35, R70). -/
theorem portWrite_cases (off : BitVec 12) (bytes : Nat) (v : Word) (s : State) :
    portWrite off bytes v s = s ∨ (∃ index, portWrite off bytes v s = recordRegRange (off.setWidth 32) index s) ∨
    bytes = 4 ∧ ∃ r, PortAt off r ∧ portWrite off bytes v s = regStore r v s := by
  unfold portWrite
  split_ifs with hproper
  · split
    · exact .inl rfl
    · rename_i r hr
      split
      · exact .inr (.inl ⟨_, rfl⟩)
      · obtain rfl : bytes = 4 := by simp_all [properAccess]
        exact .inr (.inr ⟨rfl, r, ⟨hproper, hr⟩, rfl⟩)
  · exact .inl rfl

/-- All a register-port read can do: nothing, or record REG_RANGE. -/
theorem portRead_cases (off : BitVec 12) (bytes : Nat) (s : State) :
    portRead off bytes s = s ∨ ∃ index, portRead off bytes s = recordRegRange (off.setWidth 32) index s := by
  unfold portRead
  split_ifs
  · split
    · exact .inl rfl
    · split
      · exact .inr ⟨_, rfl⟩
      · exact .inl rfl
  · exact .inl rfl

/-- All a host move can do to the mixer: nothing, a reset, or a 4-byte write to one of the registers. -/
theorem hostMove_mix {m : HostMove} (h : hostMove m s = .next t) :
    t.params = s.params ∧ (t.mix = s.mix ∨ (m = .reset ∧ t.mix = .reset) ∨
      ∃ off v r, m = .regWrite off 4 v ∧ PortAt off r ∧ t.mix = (regStore r v s).mix) := by
  cases m with
  | regWrite off bytes v =>
    cases h
    rcases portWrite_cases off bytes v s with he | ⟨index, he⟩ | ⟨rfl, r, hport, he⟩
    · simp [he]
    · simp [he]
    · exact ⟨by simp [he], .inr (.inr ⟨off, v, r, rfl, hport, by rw [he]⟩)⟩
  | regRead off bytes =>
    cases h
    rcases portRead_cases off bytes s with he | ⟨index, he⟩ <;> simp [he]
  | memWrite | memWrite8 | memRead | memRead8 =>
    simp only [hostMove, hostMemWrite, hostMemWrite8, hostMemRead, hostMemRead8] at h
    split at h
    case isFalse => exact nomatch h
    cases h
    exact ⟨rfl, .inl rfl⟩
  | reset =>
    cases h
    exact ⟨rfl, .inr (.inl ⟨rfl, rfl⟩)⟩
  | observeIrq =>
    cases h
    exact ⟨rfl, .inl rfl⟩

/-! #### The LUT is current -/

/-- Only the mixer bank and MIX_COSLEN_MAX matter. -/
theorem lutCurrent_congr (hparams : t.params = s.params) (hmix : t.mix = s.mix) (h : s.LutCurrent) :
    t.LutCurrent := by
  unfold State.LutCurrent
  rwa [hparams, hmix]

theorem lutCurrent_of_invalid (h : s.mix.lutValid = false) : s.LutCurrent := fun hv => nomatch h.symm.trans hv

/-- A MIX_CTRL write that keeps SIGNED changes ILV alone (10 R57). -/
theorem writeMixCtrl_of_signed {v : Word} (hv : v.getLsbD 0 = s.mix.signed) :
    writeMixCtrl v s = { s with mix := { s.mix with ilv := v.getLsbD 1 } } := by
  simp only [writeMixCtrl, hv, beq_self_eq_true, Bool.and_true]

theorem writeMixCtrl_lutValid_of_ne {v : Word} (hv : v.getLsbD 0 ≠ s.mix.signed) :
    (writeMixCtrl v s).mix.lutValid = false := by
  simp only [writeMixCtrl, beq_eq_false_iff_ne.mpr hv, Bool.and_false]

/-- A write to a register LUTGEN reads clears LUT_VALID if it changes it, and no write reaches a LUT (10 R57). -/
theorem lutCurrent_regStore (r : Reg) (v : Word) (h : s.LutCurrent) : (regStore r v s).LutCurrent := by
  cases r with
  | mixFreq | mixRate | mixCoslen => exact lutCurrent_of_invalid rfl
  | mixCtrl =>
    by_cases hv : v.getLsbD 0 = s.mix.signed
    · rw [regStore, writeMixCtrl_of_signed hv]
      exact h
    · exact lutCurrent_of_invalid (writeMixCtrl_lutValid_of_ne hv)
  | status => rw [regStore, writeStatus_eq]; exact h
  | cmd => rw [regStore, issueCommand_eq]; exact h
  | _ => exact h

theorem lutCurrent_hostMove {m : HostMove} (h : s.LutCurrent) (ht : hostMove m s = .next t) : t.LutCurrent := by
  obtain ⟨hparams, hmix | ⟨-, hmix⟩ | ⟨off, v, r, -, -, hmix⟩⟩ := hostMove_mix ht
  · exact lutCurrent_congr hparams hmix h
  · exact lutCurrent_of_invalid (by rw [hmix]; rfl)
  · exact lutCurrent_congr (hparams.trans (regStore_params r v s).symm) hmix (lutCurrent_regStore r v h)

theorem lutCurrent_generateLut (h : Executes .mixGenlut s) : (generateLut s).LutCurrent := by
  obtain ⟨⟨⟨hpos, hmax⟩, hrate⟩, -⟩ := h
  refine fun _ => ⟨⟨Nat.ne_of_gt hpos, hmax, hrate⟩, fun k hk => ?_⟩
  have hrow : k < 256 * s.mix.coslen.toNat := hk
  simp only [generateLut_mix, entryAt_fill, if_pos hrow]
  exact ⟨rfl, rfl⟩

theorem lutCurrent_effectOf {i : Instr} (h : s.LutCurrent) (he : Executes i s) : (effectOf i s).LutCurrent := by
  cases i with
  | mixGenlut => exact lutCurrent_generateLut he
  | _ => exact h

/-- Settles O41, by cases on what a step can be. -/
theorem stepKeepsLutCurrent : Obligations.StepKeepsLutCurrent := by
  intro s t h ht
  rcases step_cases ht with ⟨m, s', hturn, hmove⟩ | ⟨-, w, i, -, -, hexec⟩ | ⟨-, w, e, -, -, rfl⟩ | ⟨-, -, rfl⟩
  · obtain ⟨turn, rest, -, rfl, rfl, -⟩ := hostTurn_eq_some hturn
    exact lutCurrent_hostMove (s := { s with host := turnLeft s turn ++ rest }) h hmove
  · obtain ⟨u, d, e, info, addr, rfl, rfl | ⟨he, rfl⟩⟩ := exec_ends hexec
    · exact h
    · exact lutCurrent_effectOf (s := s) h he
  · exact h
  · exact h

/-- Settles O42: every memory is empty, nothing is pending and LUT_VALID is 0. -/
theorem resetMeetsInvariants : Obligations.ResetMeetsInvariants := by
  refine ⟨⟨?_, ?_, ⟨sized_nil _, sized_nil _, sized_nil _, sized_nil _, sized_nil _, sized_nil _, sized_nil _⟩,
    nofun, fun _ => rfl⟩, lutCurrent_of_invalid rfl⟩
  · decide
  · exact ⟨reset_dmem_wf, nofun⟩

/-! #### What changes LUT_VALID -/

/-- A register write keeps LUT_VALID, or clears it by one of the writes of 10 R57. -/
theorem regStore_lutValid (r : Reg) (v : Word) (s : State) :
    (regStore r v s).mix.lutValid = s.mix.lutValid ∨ (regStore r v s).mix.lutValid = false ∧
      (r ∈ [.mixFreq, .mixRate, .mixCoslen] ∨ r = .mixCtrl ∧ v.getLsbD 0 ≠ s.mix.signed) := by
  cases r with
  | mixFreq | mixRate | mixCoslen => exact .inr ⟨rfl, .inl (by decide)⟩
  | mixCtrl =>
    by_cases hv : v.getLsbD 0 = s.mix.signed
    · exact .inl (by rw [regStore, writeMixCtrl_of_signed hv])
    · exact .inr ⟨writeMixCtrl_lutValid_of_ne hv, .inr ⟨rfl, hv⟩⟩
  | status => exact .inl (by rw [regStore, writeStatus_eq])
  | cmd => exact .inl (by rw [regStore, issueCommand_eq])
  | _ => exact .inl rfl

/-- The host moves of 10 R57 that clear LUT_VALID. -/
def ClearsLutValid (s : State) (m : HostMove) : Prop :=
  m = .reset ∨ (∃ v off, off ∈ [0x204#12, 0x208#12, 0x20C#12] ∧ m = .regWrite off 4 v) ∨
    ∃ v, v.getLsbD 0 ≠ s.mix.signed ∧ m = .regWrite 0x200#12 4 v

theorem hostMove_lutValid {m : HostMove} (h : hostMove m s = .next t) :
    t.mix.lutValid = s.mix.lutValid ∨ t.mix.lutValid = false ∧ ClearsLutValid s m := by
  obtain ⟨-, hmix | ⟨rfl, hmix⟩ | ⟨off, v, r, rfl, hport, hmix⟩⟩ := hostMove_mix h
  · exact .inl (by rw [hmix])
  · exact .inr ⟨by rw [hmix]; rfl, .inl rfl⟩
  · rw [hmix]
    refine (regStore_lutValid r v s).imp_right (And.imp_right fun hr => .inr ?_)
    rcases hr with hr | ⟨rfl, hv⟩
    · refine .inl ⟨v, off, ?_, rfl⟩
      fin_cases hr
      · rw [portAt_unique hport (o := 0x204#12) ⟨rfl, rfl⟩ nofun]; decide
      · rw [portAt_unique hport (o := 0x208#12) ⟨rfl, rfl⟩ nofun]; decide
      · rw [portAt_unique hport (o := 0x20C#12) ⟨rfl, rfl⟩ nofun]; decide
    · exact .inr ⟨v, hv, by rw [portAt_unique hport (o := 0x200#12) ⟨rfl, rfl⟩ nofun]⟩

theorem effectOf_lutValid (i : Instr) (s : State) :
    (effectOf i s).mix.lutValid = s.mix.lutValid ∨ i = .mixGenlut ∧ (effectOf i s).mix.lutValid = true := by
  cases i with
  | mixGenlut => exact .inr ⟨rfl, rfl⟩
  | _ => exact .inl rfl

/-- All a step can do to LUT_VALID: keep it, clear it by a host move of 10 R57, or set it by a pending MIX_GENLUT. -/
theorem step_lutValid (h : step s = .next t) :
    t.mix.lutValid = s.mix.lutValid ∨ (t.mix.lutValid = false ∧ ∃ m, NextMove s m ∧ ClearsLutValid s m) ∨
      (t.mix.lutValid = true ∧ ∃ w, s.pending = some w ∧ decode w = .ok .mixGenlut) := by
  rcases step_cases h with ⟨m, s', hturn, hmove⟩ | ⟨-, w, i, hp, hd, hexec⟩ | ⟨-, w, e, -, -, rfl⟩ | ⟨-, -, rfl⟩
  · obtain ⟨turn, rest, hq, rfl, rfl, -⟩ := hostTurn_eq_some hturn
    refine (hostMove_lutValid hmove).imp_right fun ⟨hf, hclears⟩ => .inl ⟨hf, turnMove turn, ?_, hclears⟩
    rw [NextMove, hq, turnMove_eq_headMove]
    rfl
  · obtain ⟨u, d, e, info, addr, rfl, rfl | ⟨-, rfl⟩⟩ := exec_ends hexec
    · exact .inl rfl
    · refine (effectOf_lutValid i s).imp_right ?_
      rintro ⟨rfl, hv⟩
      exact .inr ⟨hv, w, hp, hd⟩
  · exact .inl rfl
  · exact .inl rfl

/-- Settles O43, from all a step can do to LUT_VALID. -/
theorem lutValidChangesOnlyAsRuled : Obligations.LutValidChangesOnlyAsRuled := by
  intro s t h
  rcases step_lutValid h with hkept | ⟨hf, m, hm, hclears⟩ | ⟨ht, hgenlut⟩
  · exact ⟨fun hf ht => by simp_all, fun ht hf => by simp_all⟩
  · refine ⟨fun _ ht => by simp_all, fun _ _ => ?_⟩
    rcases hclears with rfl | ⟨v, off, hoff, rfl⟩ | ⟨v, hv, rfl⟩
    · exact .inl hm
    · exact .inr (.inl ⟨v, off, hoff, hm⟩)
    · exact .inr (.inr ⟨v, hv, hm⟩)
  · exact ⟨fun _ _ => hgenlut, fun _ hf => by simp_all⟩

end Sys2Proof.Machine

/-! ### Index ports and internal memories -/

namespace Sys2Proof.Machine

open Sys2Proof.Claims

variable {s t : State} {off : BitVec 12} {r : Reg}

theorem indexOutOfRange_of_lt {index : Word} {depth : Nat} (hp : indexPort s r = some (index, depth))
    (h : index.toNat < depth) : indexOutOfRange s r = none := by
  simp only [indexOutOfRange, hp, if_pos h]

theorem indexOutOfRange_of_le {index : Word} {depth : Nat} (hp : indexPort s r = some (index, depth))
    (h : depth ≤ index.toNat) : indexOutOfRange s r = some index := by
  simp only [indexOutOfRange, hp, if_neg (Nat.not_lt_of_le h)]

theorem portAt_firTre : PortAt 0x32C#12 .firTre := ⟨rfl, rfl⟩
theorem portAt_firTim : PortAt 0x330#12 .firTim := ⟨rfl, rfl⟩
theorem portAt_firRre : PortAt 0x338#12 .firRre := ⟨rfl, rfl⟩
theorem portAt_firRim : PortAt 0x33C#12 .firRim := ⟨rfl, rfl⟩
theorem portAt_mixLre : PortAt 0x22C#12 .mixLre := ⟨rfl, rfl⟩
theorem portAt_mixLim : PortAt 0x230#12 .mixLim := ⟨rfl, rfl⟩

/-- A FIR index register, zero-extended (10 R63, R64). -/
theorem toNat_zext (x : BitVec 16) : (x.setWidth 32).toNat = x.toNat := BitVec.toNat_setWidth_of_le (by decide)

/-- The ports of the statements are the index ports of the map (10 R37, R56, R63, R64). -/
theorem ports_index {p : BitVec 12 × Nat × Nat} (hp : p ∈ ports s) :
    ∃ r index, PortAt p.1 r ∧ indexPort s r = some (index, p.2.2) ∧ index.toNat = p.2.1 := by
  simp only [ports, List.mem_cons, List.not_mem_nil, or_false] at hp
  rcases hp with rfl | rfl | rfl | rfl | rfl | rfl
  · exact ⟨_, _, portAt_firTre, rfl, toNat_zext _⟩
  · exact ⟨_, _, portAt_firTim, rfl, toNat_zext _⟩
  · exact ⟨_, _, portAt_firRre, rfl, toNat_zext _⟩
  · exact ⟨_, _, portAt_firRim, rfl, toNat_zext _⟩
  · exact ⟨_, _, portAt_mixLre, rfl, rfl⟩
  · exact ⟨_, _, portAt_mixLim, rfl, rfl⟩

/-- Settles O55: such an access records REG_RANGE, if no error is recorded, and does nothing else. -/
theorem indexPortOutOfRange : Obligations.IndexPortOutOfRange := by
  intro s v p hp hle
  obtain ⟨r, index, hport, hindex, hval⟩ := ports_index hp
  have hout := indexOutOfRange_of_le hindex (hval ▸ hle)
  rw [← hval, BitVec.ofNat_toNat, BitVec.setWidth_eq, hostMove_read_outOfRange hport hout,
    hostMove_write_outOfRange v hport hout, recordRegRange_eq]
  exact ⟨rfl, rfl⟩

/-- A register that stands for entry k of the memory `mem`: a write to it stores in that entry alone. -/
theorem portStores {mem : State → EntryMem} {put : State → EntryMem → State} {k : Nat} {v : Word}
    (hport : PortAt off r) (hin : indexOutOfRange s r = none)
    (hstore : regStore r v s = put s (entryWrite (mem s) k v))
    (hput : ∀ m, mem { put s m with reply := .completed } = m ∧
      indexOutOfRange { put s m with reply := .completed } r = indexOutOfRange s r ∧
      (entryAt m k = .written v → regValue { put s m with reply := .completed } r = v)) :
    PortStores s off mem put k v := by
  obtain ⟨hmem, hrange, hval⟩ := hput (entryWrite (mem s) k v)
  have hentry : entryAt (entryWrite (mem s) k v) k = .written v := by rw [entryAt_write, if_pos rfl]
  refine ⟨_, hostMove_write v hport hin, ?_, ⟨?_, fun j hj => ?_⟩, ?_⟩ <;> rw [hstore]
  · rw [hmem]
  · rw [hmem, hentry]
  · rw [hmem, entryAt_write, if_neg hj.symm]
  · have hread := hostMove_read hport (hrange.trans hin)
    rwa [hval hentry] at hread

/-- CONV_LUT[k] stands at its offset of 10 R37. -/
theorem portAt_convLut {k : Nat} (hk : k < 256) : PortAt (lutOffset k) (.convLut k) := by
  have hoff : (lutOffset k).toNat = 0x400 + 4 * k := by
    rw [lutOffset, BitVec.toNat_ofNat]
    omega
  constructor
  · simp only [properAccess, hoff, Bool.and_eq_true, beq_iff_eq, true_and]
    omega
  · rw [regAt, hoff, if_pos (by omega), show (0x400 + 4 * k - 0x400) / 4 = k by omega]

/-- Settles O56, port by port: each index is in range, and each register stands for one entry. -/
theorem internalMemoryPorts : Obligations.InternalMemoryPorts := by
  intro s v
  refine ⟨fun h => ?_, fun h => ?_, fun h => ?_, fun k hk => ?_⟩
  · have hre : indexOutOfRange s .firTre = none := indexOutOfRange_of_lt rfl (by rw [toNat_zext]; omega)
    have him : indexOutOfRange s .firTim = none := hre
    exact ⟨hostMove_read portAt_firTre hre, hostMove_read portAt_firTim him,
      portStores portAt_firTre hre rfl fun _ => ⟨rfl, rfl, congrArg (entryValue _ .tapRe)⟩,
      portStores portAt_firTim him rfl fun _ => ⟨rfl, rfl, congrArg (entryValue _ .tapIm)⟩⟩
  · have hre : indexOutOfRange s .firRre = none := indexOutOfRange_of_lt rfl (by rw [toNat_zext]; omega)
    have him : indexOutOfRange s .firRim = none := hre
    exact ⟨hostMove_read portAt_firRre hre, hostMove_read portAt_firRim him,
      portStores portAt_firRre hre rfl fun _ => ⟨rfl, rfl, congrArg (entryValue _ .remRe)⟩,
      portStores portAt_firRim him rfl fun _ => ⟨rfl, rfl, congrArg (entryValue _ .remIm)⟩⟩
  · have hre : indexOutOfRange s .mixLre = none := indexOutOfRange_of_lt rfl h
    have him : indexOutOfRange s .mixLim = none := hre
    refine ⟨hostMove_read portAt_mixLre hre, hostMove_read portAt_mixLim him, ?_⟩
    rintro off hoff
    rcases List.mem_pair.mp hoff with rfl | rfl
    · exact hostMove_write v portAt_mixLre hre
    · exact hostMove_write v portAt_mixLim him
  · exact ⟨hostMove_read (portAt_convLut hk) rfl,
      portStores (portAt_convLut hk) rfl rfl fun _ => ⟨rfl, rfl, congrArg (entryValue _ .convLut)⟩⟩

/-! ### Accesses without effect -/

/-- Every offset of the tables of the map is one the statements list (10 R37). -/
theorem tables_listed : ∀ c ∈ globalRegs ++ convRegs ++ mixRegs ++ firRegs ++ demRegs,
    BitVec.ofNat 12 c.1 ∈ plainRegisters.map PlainRegister.off ∨ BitVec.ofNat 12 c.1 ∈ otherOffsets := by decide

theorem listed_of_regAt (h : regAt off.toNat = some r) : Listed off := by
  rcases regAt_cases h with ⟨k, hk, hoff, -⟩ | hmem
  · refine .inr (.inr ⟨k, hk, ?_⟩)
    rw [lutOffset, ← hoff, BitVec.ofNat_toNat, BitVec.setWidth_eq]
  · have hlisted := tables_listed _ hmem
    rw [BitVec.ofNat_toNat, BitVec.setWidth_eq] at hlisted
    exact hlisted.imp List.mem_map.mp .inl

/-- Settles O57: at such an offset the map has no register, and other accesses are not proper. -/
theorem otherAccessesHaveNoEffect : Obligations.OtherAccessesHaveNoEffect := by
  intro s off bytes v h
  by_cases hproper : properAccess off bytes = true
  · have hreg : regAt off.toNat = none := by
      simp only [properAccess, Bool.and_eq_true, beq_iff_eq] at hproper
      obtain ⟨hbytes, hoff⟩ := hproper
      have hlisted : ¬Listed off := (h.resolve_left (· hbytes)).resolve_left (· hoff)
      exact Option.eq_none_iff_forall_ne_some.mpr fun r hr => hlisted (listed_of_regAt hr)
    simp [hostMove, portRead, portWrite, portReadValue, hreg]
  · simp [hostMove, portRead, portWrite, portReadValue, hproper]

/-! ### Plain registers -/

/-- The state a write to a register in range leaves. -/
def afterWrite (r : Reg) (v : Word) (s : State) : State := { regStore r v s with reply := .completed }

/-- What a plain register is to the port: its register of the map, whose read returns its field, whose write stores
the bits of its field, and what that write leaves alone (10 R35, R36, R57). -/
structure PlainAt (p : PlainRegister) (r : Reg) : Prop where
  port : PortAt p.off r
  inRange : ∀ s, indexOutOfRange s r = none
  value : ∀ s, regValue s r = p.field s
  stored : ∀ v s, p.field (afterWrite r v s) = v &&& p.bits
  others : ∀ v s, (plainRegisters.filter fun q => q.off != p.off).map (fun q => q.field (afterWrite r v s)) =
    (plainRegisters.filter fun q => q.off != p.off).map fun q => q.field s
  internal : ∀ v s, InternalKept s (afterWrite r v s)
  lutValid : ∀ v s, (afterWrite r v s).mix.lutValid =
    if p.off ∈ [0x204#12, 0x208#12, 0x20C#12] then false
    else if p.off = 0x200#12 then s.mix.lutValid && (v.getLsbD 0 == s.mix.signed) else s.mix.lutValid
  rest : ∀ v s, afterWrite r v s = { s with
    doneIe := (afterWrite r v s).doneIe, errIe := (afterWrite r v s).errIe, conv := (afterWrite r v s).conv
    mix := (afterWrite r v s).mix, fir := (afterWrite r v s).fir, dem := (afterWrite r v s).dem
    reply := .completed }

/-! #### Fields as words -/

theorem append_eq_twoBits (a b : Bool) : 0#30 ++ bit b ++ bit a = twoBits a b := by
  cases a <;> cases b <;> rfl

theorem append_eq_oneBit (a : Bool) : 0#31 ++ bit a = twoBits a false := by cases a <;> rfl

theorem and_bits_32 (v : Word) : v &&& 0xFFFFFFFF#32 = v := BitVec.and_allOnes

/-- The low n bits of a word, the others 0. -/
theorem and_lowBits (v : Word) {n : Nat} (hn : n ≤ 32) :
    v &&& BitVec.ofNat 32 (2 ^ n - 1) = (v.setWidth n).setWidth 32 := by
  have hpow : 2 ^ n ≤ 2 ^ 32 := Nat.pow_le_pow_right (by decide) hn
  have hmask : 2 ^ n - 1 < 2 ^ 32 := by omega
  have hmod : v.toNat % 2 ^ n < 2 ^ 32 := (Nat.mod_lt _ (by positivity)).trans_le hpow
  refine BitVec.eq_of_toNat_eq ?_
  rw [BitVec.toNat_and, BitVec.toNat_ofNat, Nat.mod_eq_of_lt hmask, Nat.and_two_pow_sub_one_eq_mod,
    BitVec.toNat_setWidth, BitVec.toNat_setWidth, Nat.mod_eq_of_lt hmod]

theorem and_bits_24 (v : Word) : v &&& 0x00FFFFFF#32 = (v.setWidth 24).setWidth 32 := and_lowBits v (n := 24) (by decide)

theorem and_bits_16 (v : Word) : v &&& 0x0000FFFF#32 = (v.setWidth 16).setWidth 32 := and_lowBits v (n := 16) (by decide)

theorem and_bits_2 (v : Word) : v &&& 3#32 = twoBits (v.getLsbD 0) (v.getLsbD 1) := by
  have h : ∀ x : BitVec 2, x.setWidth 32 = twoBits (x.getLsbD 0) (x.getLsbD 1) := by decide
  have hlow := and_lowBits v (n := 2) (by decide)
  simpa [BitVec.getLsbD_setWidth] using hlow.trans (h (v.setWidth 2))

theorem and_bits_1 (v : Word) : v &&& 1#32 = twoBits (v.getLsbD 0) false := by
  have h : ∀ x : BitVec 1, x.setWidth 32 = twoBits (x.getLsbD 0) false := by decide
  have hlow := and_lowBits v (n := 1) (by decide)
  simpa [BitVec.getLsbD_setWidth] using hlow.trans (h (v.setWidth 1))

/-- Every plain register of the statements is one of the map: only its read and the bits it stores need more than the
definitions. -/
theorem plainAt_of_mem {p : PlainRegister} (h : p ∈ plainRegisters) : ∃ r, PlainAt p r := by
  fin_cases h
  all_goals
    refine ⟨_, ⟨rfl, rfl⟩, fun _ => rfl, fun _ => ?_, fun _ _ => ?_, fun _ _ => rfl,
      fun _ _ => ⟨rfl, rfl, rfl, rfl, rfl, rfl, rfl⟩, fun _ _ => rfl, fun _ _ => rfl⟩
    · simp only [regValue, ctrlWord, append_eq_twoBits, append_eq_oneBit]
    · simp only [afterWrite, regStore, writeCtrl, writeMixCtrl, and_bits_32, and_bits_24, and_bits_16, and_bits_2,
        and_bits_1]

theorem plain_reads {p : PlainRegister} (h : p ∈ plainRegisters) (s : State) : Reads s p.off (p.field s) := by
  obtain ⟨r, hr⟩ := plainAt_of_mem h
  exact hr.value s ▸ hostMove_read hr.port (hr.inRange s)

/-- Settles O58, from what each plain register is to the port. -/
theorem registersHoldWrittenBits : Obligations.RegistersHoldWrittenBits := by
  intro s v p hp
  obtain ⟨r, hr⟩ := plainAt_of_mem hp
  refine ⟨plain_reads hp s, afterWrite r v s, hostMove_write v hr.port (hr.inRange s), hr.stored v s,
    hr.stored v s ▸ plain_reads hp _, fun q hq hne => ?_, hr.internal v s, hr.lutValid v s, hr.rest v s⟩
  have hkept : q.field (afterWrite r v s) = q.field s :=
    List.map_inj_left.mp (hr.others v s) q (List.mem_filter.mpr ⟨hq, bne_iff_ne.mpr hne⟩)
  exact ⟨hkept, hkept ▸ plain_reads hq _⟩

/-! ### Read-only registers and reset -/

theorem reads_id (s : State) : Reads s 0x000#12 0x41444C37#32 := hostMove_read (r := .id) ⟨rfl, rfl⟩ rfl

theorem reads_cmd (s : State) : Reads s 0x018#12 0#32 := hostMove_read (r := .cmd) ⟨rfl, rfl⟩ rfl

theorem reads_errInfo (s : State) : Reads s 0x01C#12 s.errInfo := hostMove_read (r := .errInfo) ⟨rfl, rfl⟩ rfl

theorem reads_errAddr (s : State) : Reads s 0x020#12 s.errAddr := hostMove_read (r := .errAddr) ⟨rfl, rfl⟩ rfl

/-- PARAM0 and PARAM1 hold a legal parameter whole (00 R10, 10 R33, R34). -/
theorem reads_params (h : s.params.Legal) :
    Reads s 0x004#12 (BitVec.ofNat 32 s.params.firMaxOrder) ∧
    Reads s 0x008#12 (BitVec.ofNat 32 s.params.mixCoslenMax) := by
  obtain ⟨⟨-, hfir⟩, ⟨-, hmix⟩, -⟩ := h
  have h0 : Reads s 0x004#12 ((BitVec.ofNat 16 s.params.firMaxOrder).setWidth 32) :=
    hostMove_read (r := .param0) ⟨rfl, rfl⟩ rfl
  have h1 : Reads s 0x008#12 ((BitVec.ofNat 24 s.params.mixCoslenMax).setWidth 32) :=
    hostMove_read (r := .param1) ⟨rfl, rfl⟩ rfl
  rw [BitVec.setWidth_ofNat_of_le_of_lt (by decide) (by omega)] at h0 h1
  exact ⟨h0, h1⟩

/-- Settles O59: the value and the store of each of these registers in the map. -/
theorem readOnlyRegisters : Obligations.ReadOnlyRegisters := by
  intro s v hlegal
  obtain ⟨h0, h1⟩ := reads_params hlegal
  refine ⟨reads_id s, h0, h1, reads_cmd s, reads_errInfo s, reads_errAddr s, fun off hoff => ?_⟩
  fin_cases hoff
  · exact hostMove_write v (r := .id) ⟨rfl, rfl⟩ rfl
  · exact hostMove_write v (r := .param0) ⟨rfl, rfl⟩ rfl
  · exact hostMove_write v (r := .param1) ⟨rfl, rfl⟩ rfl
  · exact hostMove_write v (r := .errInfo) ⟨rfl, rfl⟩ rfl
  · exact hostMove_write v (r := .errAddr) ⟨rfl, rfl⟩ rfl

/-- The state after reset but for what a reset keeps or counts (70 R340). -/
def resetWith (params : Params) (dmem : Memory) (host : List HostTurn) (fresh resets : Nat) : State :=
  { State.reset with params := params, dmem := dmem, host := host, fresh := fresh, resets := resets }

section

variable (params : Params) (dmem : Memory) (host : List HostTurn) (fresh resets : Nat)

theorem resetWith_reads_plain {p : PlainRegister} (h : p ∈ plainRegisters) :
    Reads (resetWith params dmem host fresh resets) p.off 0#32 := by
  have hzero : plainRegisters.map (fun q => q.field (resetWith params dmem host fresh resets)) =
      plainRegisters.map fun _ => 0#32 := rfl
  exact List.map_inj_left.mp hzero p h ▸ plain_reads h _

theorem resetWith_reads_record {off : BitVec 12} (hoff : off ∈ [0x014#12, 0x018#12, 0x01C#12, 0x020#12]) :
    Reads (resetWith params dmem host fresh resets) off 0#32 := by
  fin_cases hoff
  · have hzero : statusWord (resetWith params dmem host fresh resets) = 0#32 :=
      BitVec.eq_of_toNat_eq (statusWord_toNat _)
    exact hzero ▸ reads_status _
  · exact reads_cmd _
  · exact reads_errInfo _
  · exact reads_errAddr _

end

/-- A reset with no command pending abandons no element. -/
theorem hostReset_dmem (h : s.pending = none) : (hostReset s).dmem = s.dmem := by
  simp only [hostReset, pendingPlan, h, abandonStores]

/-- Settles O60: State.reset and every state a reset leaves are reset states but for what a reset keeps or counts. -/
theorem resetValues : Obligations.ResetValues := by
  unfold Obligations.ResetValues
  intro asReset
  have key params dmem host fresh resets : asReset (resetWith params dmem host fresh resets) := by
    refine ⟨rfl, rfl, rfl, rfl, reads_id _, reads_params, fun _ => resetWith_reads_record _ _ _ _ _, 
      fun _ => resetWith_reads_plain _ _ _ _ _, fun m hm k => ?_⟩
    fin_cases hm <;> rfl
  exact ⟨key .., fun s => ⟨hostReset s, rfl, key .., rfl, hostReset_dmem⟩⟩

end Sys2Proof.Machine

/-! ### Results in DMEM -/

namespace Sys2Proof.Machine

open Sys2Proof.Claims

/-! #### What a command with output elements leaves -/

/-- The state a command with output elements leaves when it executes (40 R160, R168). -/
def storedState (i : Instr) (s : State) : State := complete (storeAll (planOf i s).stores s)

theorem exec_eq_storedState {i : Instr} {s : State} (h : Executes i s)
    (hi : effectOf i s = storeAll (planOf i s).stores s) : exec i s = .next (storedState i s) := by
  obtain ⟨hn, hf⟩ := executes_iff.mp h
  rw [exec_eq_runPlan, runPlan_executes hn hf, hi, storedState]

theorem finished_storedState {i : Instr} {s : State} {n : Nat} (hn : (targets i s).length = n) :
    Finished s (storedState i s) n := by
  refine ⟨⟨rfl, rfl, rfl, rfl, rfl, rfl⟩, ⟨rfl, rfl, rfl, rfl, rfl, rfl⟩, ⟨rfl, rfl, rfl, rfl⟩, ?_⟩
  rw [← hn, ← stores_targets, List.length_map]
  show freshAfter s _ = _
  unfold freshAfter
  split_ifs <;> rfl

theorem bytesKept_storedState (i : Instr) (s : State) :
    BytesKept s (storedState i s) fun a => ∃ x ∈ targets i s, InWord x a := fun _ ha =>
  memRead8_writeStores_outside s fun st hst hin =>
    ha ⟨st.addr, stores_targets i s ▸ List.mem_map_of_mem hst, hin⟩

/-- A result is free exactly in a race on a byte it uses (20 R112). -/
theorem yields_racedWord {s : State} {n : Nat} {sps : List Span} {used : Nat → Prop} {v : Word}
    (h : ∀ a, (∃ sp ∈ sps, spanCovers sp a = true) ↔ used a) : Yields s n used v (racedWord s sps n v) := by
  have hrace : s.raced.any (fun a => sps.any fun sp => spanCovers sp a) = true ↔ ∃ a ∈ s.raced, used a := by
    simp only [List.any_eq_true, h]
  exact ⟨fun hno => if_neg fun hr => by obtain ⟨a, ha, hu⟩ := hrace.mp hr; exact hno a ha hu,
    fun hr => if_pos (hrace.mpr hr)⟩

/-- The element `st` stands at `addr` and holds `v`, computed from the bytes `reads`. -/
structure Describes (st : Store) (addr : Nat) (reads : Nat → Prop) (v : Word) : Prop where
  addr_eq : st.addr = addr
  value_eq : st.value = v
  reads_iff : ∀ a, (∃ sp ∈ st.reads, spanCovers sp a = true) ↔ reads a

theorem storesRead_singleton {st : Store} {a : Nat} :
    StoresRead [st] a ↔ ∃ sp ∈ st.reads, spanCovers sp a = true := by
  simp only [StoresRead, List.mem_singleton, exists_eq_left]

/-- The words at the two addresses share no byte. -/
abbrev Apart (x y : Nat) : Prop := x + 4 ≤ y ∨ y + 4 ≤ x

/-- The n-th element of a command, when no later one shares a byte with it, holds its result afterwards. -/
theorem stored_storedState {i : Instr} {s : State} {n addr : Nat} {reads : Nat → Prop} {v : Word} {st : Store}
    (hst : (planOf i s).stores[n]? = some st) (hd : Describes st addr reads v)
    (hlater : ∀ x ∈ (targets i s).drop (n + 1), Apart addr x) : Stored s (storedState i s) n addr reads v := by
  obtain ⟨hn, hget⟩ := List.getElem?_eq_some_iff.mp hst
  obtain ⟨rfl, rfl, hreads⟩ := hd
  have hsplit : (planOf i s).stores = (planOf i s).stores.take n ++ st :: (planOf i s).stores.drop (n + 1) := by
    rw [← hget, List.getElem_cons_drop, List.take_append_drop]
  have hword : memRead32 (storedState i s).dmem st.addr =
      racedWord s ({ addr := st.addr, len := 4 } :: st.reads) n st.value := by
    rw [storedState, complete_dmem, storeAll_dmem, hsplit, memRead32_writeStores s fun c hc =>
      (hlater c.addr (by rw [← stores_targets, ← List.map_drop]; exact List.mem_map_of_mem hc)).symm]
    rw [List.length_take_of_le hn.le, Nat.zero_add]
  show Yields s n _ _ (memRead32 (storedState i s).dmem st.addr)
  rw [hword]
  refine yields_racedWord fun a => ?_
  rw [← hreads a]
  simp only [List.exists_mem_cons_iff, spanCovers_iff]

/-- The last element of a command holds its result. -/
theorem stored_storedState_last {i : Instr} {s : State} {n addr : Nat} {reads : Nat → Prop} {v : Word} {st : Store}
    (hst : (planOf i s).stores[n]? = some st) (hd : Describes st addr reads v) (hlast : (targets i s).length = n + 1) :
    Stored s (storedState i s) n addr reads v :=
  stored_storedState hst hd (by rw [List.drop_of_length_le hlast.le]; exact nofun)

/-- Where no two elements of a command share a byte, each holds its result. -/
theorem stored_storedState_of_apart {i : Instr} {s : State} {n addr : Nat} {reads : Nat → Prop} {v : Word} {st : Store}
    (hap : (targets i s).Pairwise Apart) (hst : (planOf i s).stores[n]? = some st) (hd : Describes st addr reads v) :
    Stored s (storedState i s) n addr reads v := by
  have hget : (targets i s)[n]? = some addr := by rw [← stores_targets, List.getElem?_map, hst, ← hd.addr_eq]; rfl
  obtain ⟨hn, rfl⟩ := List.getElem?_eq_some_iff.mp hget
  refine stored_storedState hst hd fun x hx => ?_
  have hdrop := hap.drop (i := n)
  rw [List.drop_eq_getElem_cons hn] at hdrop
  exact List.rel_of_pairwise_cons hdrop hx

/-! #### The elements of a block -/

/-- Elements of one output buffer. -/
theorem apart_same (base : Word) {j k : Nat} (h : j ≠ k) : Apart (base.toNat + 4 * j) (base.toNat + 4 * k) := by
  omega

/-- The elements of one position in two aligned output buffers. -/
theorem apart_of_aligned {bs : List Buffer} {size k : Nat} {re im : Word} (hb : ∀ b ∈ bs, BufferPasses size b)
    (hre : floatsOut re k k ∈ bs) (him : floatsOut im k k ∈ bs) (h : re ≠ im) :
    Apart (re.toNat + 4 * k) (im.toNat + 4 * k) := by
  have hre : re.toNat % 4 = 0 := (hb _ hre).1.resolve_left nofun
  have him : im.toNat % 4 = 0 := (hb _ him).1.resolve_left nofun
  have hne : re.toNat ≠ im.toNat := fun heq => h (BitVec.eq_of_toNat_eq heq)
  omega

/-- Elements of two output buffers whose extents share no byte (40 R167). -/
theorem apart_of_not_meet {re im : Word} {m n j k : Nat} (h : ¬Meet (floatsOut re 0 m) (floatsOut im 0 n))
    (hj : j ≤ m) (hk : k ≤ n) : Apart (re.toNat + 4 * j) (im.toNat + 4 * k) := by
  unfold Meet extentEnd at h
  dsimp only at h
  omega

/-- The elements of one output buffer share no byte. -/
theorem single_apart (base : Word) (m : Nat) : ((List.range m).map fun k => base.toNat + 4 * k).Pairwise Apart :=
  List.pairwise_map.mpr (List.pairwise_lt_range.imp fun h => apart_same base h.ne)

/-- The elements of a pair of output buffers share no byte. -/
theorem pair_apart {re im : Word} {m : Nat} (h : ¬Meet (floatsOut re 0 (m - 1)) (floatsOut im 0 (m - 1))) :
    ((List.range m).flatMap fun k => [re.toNat + 4 * k, im.toNat + 4 * k]).Pairwise Apart := by
  have hcross {j k : Nat} (hj : j ∈ List.range m) (hk : k ∈ List.range m) :
      Apart (re.toNat + 4 * j) (im.toNat + 4 * k) :=
    apart_of_not_meet h (Nat.le_sub_one_of_lt (List.mem_range.mp hj)) (Nat.le_sub_one_of_lt (List.mem_range.mp hk))
  refine List.pairwise_flatMap.mpr ⟨fun k hk => List.pairwise_pair.mpr (hcross hk hk), ?_⟩
  refine List.pairwise_lt_range.imp_of_mem fun {j k} hj hk hlt x hx y hy => ?_
  rcases List.mem_pair.mp hx with rfl | rfl <;> rcases List.mem_pair.mp hy with rfl | rfl
  · exact apart_same re hlt.ne
  · exact hcross hj hk
  · exact (hcross hk hj).symm
  · exact apart_same im hlt.ne

/-- The elements of an interleaved block share no byte (41 R192, 42 R215). -/
theorem interleaved_apart {re im : Word} {m : Nat} (h : NoOverlap (interleavedOut re im m)) :
    (List.range m).Pairwise fun j k =>
      Apart (if j % 2 = 0 then re.toNat + 4 * (j / 2) else im.toNat + 4 * (j / 2))
        (if k % 2 = 0 then re.toNat + 4 * (k / 2) else im.toNat + 4 * (k / 2)) := by
  have hcross {j k : Nat} (hj : j < m) (hk : k < m) (hodd : ¬k % 2 = 0) :
      Apart (re.toNat + 4 * (j / 2)) (im.toNat + 4 * (k / 2)) := by
    rw [interleavedOut, if_neg (by omega)] at h
    exact apart_of_not_meet (List.pairwise_pair.mp h rfl) (by omega) (by omega)
  refine List.pairwise_lt_range.imp_of_mem fun {j k} hj hk hlt => ?_
  have hj := List.mem_range.mp hj
  have hk := List.mem_range.mp hk
  split_ifs with hpj hpk hpk
  · exact apart_same re (by omega)
  · exact hcross hj hk hpk
  · exact (hcross hk hj hpj).symm
  · exact apart_same im (by omega)

theorem convTarget_of_planar {s : State} (h : s.conv.ilv = false) :
    convTarget s = fun k => s.conv.outRe.toNat + 4 * k := funext fun _ => if_pos h

theorem convTarget_of_interleaved {s : State} (h : s.conv.ilv = true) :
    convTarget s = fun k =>
      if k % 2 = 0 then s.conv.outRe.toNat + 4 * (k / 2) else s.conv.outIm.toNat + 4 * (k / 2) :=
  funext fun _ => if_neg (by simp [h])

theorem mixTargets_of_planar {s : State} (h : s.mix.ilv = false) :
    mixTargets s = fun k => [s.mix.outRe.toNat + 4 * k, s.mix.outIm.toNat + 4 * k] := funext fun _ => if_pos h

theorem mixTargets_of_interleaved {s : State} (h : s.mix.ilv = true) :
    mixTargets s = fun k =>
      [if k % 2 = 0 then s.mix.outRe.toNat + 4 * (k / 2) else s.mix.outIm.toNat + 4 * (k / 2)] := by
  funext k
  rw [mixTargets, if_neg (by simp [h])]
  split_ifs <;> rfl

/-- No two output elements of a block that executes share a byte (40 R167). -/
theorem block_targets_apart {i : Instr} {s : State} (hi : i ∈ blocks) (hexec : Executes i s) :
    (targets i s).Pairwise Apart := by
  obtain ⟨-, -, hover⟩ := hexec
  have h : NoOverlap (listed i s) := hover hi
  cases i with
  | convBlock =>
    obtain ⟨-, hout⟩ := List.pairwise_cons.mp h
    refine List.pairwise_map.mpr ?_
    split_ifs at hout with hilv
    · exact convTarget_of_planar hilv ▸ List.pairwise_map.mp (single_apart ..)
    · exact convTarget_of_interleaved (Bool.eq_true_of_not_eq_false hilv) ▸ interleaved_apart hout
  | mixBlock =>
    obtain ⟨-, hout⟩ := List.pairwise_cons.mp h
    rw [targets]
    split_ifs at hout with hilv
    · exact mixTargets_of_planar hilv ▸ pair_apart (List.pairwise_pair.mp hout rfl)
    · rw [mixTargets_of_interleaved (Bool.eq_true_of_not_eq_false hilv)]
      exact List.flatMap_pure_eq_map .. ▸ List.pairwise_map.mpr (interleaved_apart hout)
  | firRrBlock | demBlock => exact single_apart ..
  | firRcBlock | firCcBlock =>
    obtain ⟨-, hout⟩ := List.pairwise_cons.mp h
    exact pair_apart (List.pairwise_pair.mp (List.pairwise_cons.mp hout).2 rfl)
  | _ => exact absurd hi (by simp [blocks])

/-- Position k of a block with one element for each position. -/
theorem getElem?_map_range {α : Type} (f : Nat → α) {m k : Nat} (hk : k < m) :
    ((List.range m).map f)[k]? = some (f k) := by
  rw [List.getElem?_map, List.getElem?_range hk, Option.map_some]

/-- What holds of an element of a block holds of an element of one of its positions. -/
theorem exists_mem_flatMap_range {α : Type} {f : Nat → List α} {m : Nat} {p : α → Prop} :
    (∃ x ∈ (List.range m).flatMap f, p x) ↔ ∃ k < m, ∃ x ∈ f k, p x := by
  constructor
  · rintro ⟨x, hx, hp⟩
    obtain ⟨k, hk, hx⟩ := List.mem_flatMap.mp hx
    exact ⟨k, List.mem_range.mp hk, x, hx, hp⟩
  · rintro ⟨k, hk, x, hx, hp⟩
    exact ⟨x, List.mem_flatMap.mpr ⟨k, List.mem_range.mpr hk, hx⟩, hp⟩

theorem length_flatMap_pair {α : Type} (f g : Nat → α) (m : Nat) :
    ((List.range m).flatMap fun k => [f k, g k]).length = 2 * m := by
  simp [List.length_flatMap, Nat.mul_comm]

/-- Position k of a block with two elements for each position. -/
theorem getElem?_flatMap_pair {α : Type} (f g : Nat → α) {m k : Nat} (hk : k < m) :
    ((List.range m).flatMap fun k => [f k, g k])[2 * k]? = some (f k) ∧
    ((List.range m).flatMap fun k => [f k, g k])[2 * k + 1]? = some (g k) := by
  induction m with
  | zero => exact absurd hk k.not_lt_zero
  | succ m ih =>
    have hlen := length_flatMap_pair f g m
    rw [List.range_succ, List.flatMap_append, List.flatMap_singleton]
    rcases Nat.lt_succ_iff_lt_or_eq.mp hk with hk | rfl
    · rw [List.getElem?_append_left (by omega), List.getElem?_append_left (by omega)]
      exact ih hk
    · rw [List.getElem?_append_right (by omega), List.getElem?_append_right (by omega), hlen, Nat.sub_self,
        Nat.add_sub_cancel_left]
      exact ⟨rfl, rfl⟩

/-- The two elements of a command at one position of a real and an imaginary buffer: where the buffers are the same the
imaginary value stays (40 R168). -/
theorem pair_elem_stored {i : Instr} {s : State} {k : Nat} {f g : Store} {re im vRe vIm : Word}
    {readsRe readsIm : Nat → Prop} (h : Executes i s) (hplan : (planOf i s).stores = [f, g])
    (htargets : targets i s = [re.toNat + 4 * k, im.toNat + 4 * k])
    (hre : floatsOut re k k ∈ listed i s) (him : floatsOut im k k ∈ listed i s)
    (hf : Describes f (re.toNat + 4 * k) readsRe vRe) (hg : Describes g (im.toNat + 4 * k) readsIm vIm) :
    (re ≠ im → Stored s (storedState i s) 0 (re.toNat + 4 * k) readsRe vRe) ∧
    Stored s (storedState i s) 1 (im.toNat + 4 * k) readsIm vIm := by
  refine ⟨fun hne => stored_storedState (congrArg (·[0]?) hplan) hf fun x hx => ?_,
    stored_storedState_last (congrArg (·[1]?) hplan) hg (congrArg List.length htargets)⟩
  rw [htargets] at hx
  obtain rfl := List.mem_singleton.mp hx
  obtain ⟨-, hb, -⟩ := h
  exact apart_of_aligned hb hre him hne

/-- The two elements at position k of a block. -/
theorem pair_block_stored {i : Instr} {s : State} {m k addrRe addrIm : Nat} {f g : Nat → Store} {vRe vIm : Word}
    {readsRe readsIm : Nat → Prop} (hap : (targets i s).Pairwise Apart)
    (hplan : (planOf i s).stores = (List.range m).flatMap fun k => [f k, g k]) (hk : k < m)
    (hf : Describes (f k) addrRe readsRe vRe) (hg : Describes (g k) addrIm readsIm vIm) :
    Stored s (storedState i s) (2 * k) addrRe readsRe vRe ∧
    Stored s (storedState i s) (2 * k + 1) addrIm readsIm vIm := by
  obtain ⟨hgetRe, hgetIm⟩ := getElem?_flatMap_pair f g hk
  exact ⟨stored_storedState_of_apart hap (hplan ▸ hgetRe) hf, stored_storedState_of_apart hap (hplan ▸ hgetIm) hg⟩

/-! #### Converter -/

/-- The byte index of 41 R190: inverting bit 7 is adding 128 to the two's-complement value. -/
theorem lutIndex_eq_byteIndex : ∀ (signed : Bool) (b : Byte), lutIndex signed b = byteIndex signed b := by
  decide

theorem convBody_describes (s : State) (k : Nat) :
    Describes (convBody s k) (convTarget s k) (convUses s k) (convResult s k) :=
  ⟨convTarget_eq s k, congrArg (convLut s) (lutIndex_eq_byteIndex ..), fun a =>
    storesRead_singleton.symm.trans (convBody_reads s k a)⟩

/-- Settles O22: the only element of the command is the LUT entry of its byte. -/
theorem convElemWritesLutEntry : Obligations.ConvElemWritesLutEntry := by
  intro s i h
  refine ⟨storedState (.convElem i) s, exec_eq_storedState h rfl, finished_storedState rfl,
    stored_storedState_last rfl (convBody_describes s i) rfl, ?_⟩
  simpa [targets] using bytesKept_storedState (.convElem i) s

/-- Settles O23: no two elements of the block share a byte, and each is the LUT entry of its byte. -/
theorem convBlockWritesEveryPosition : Obligations.ConvBlockWritesEveryPosition := by
  intro s h
  have hap : (targets .convBlock s).Pairwise Apart := block_targets_apart (by simp) h
  refine ⟨storedState .convBlock s, exec_eq_storedState h rfl, finished_storedState (by simp [targets]),
    fun k hk => stored_storedState_of_apart hap (getElem?_map_range _ hk) (convBody_describes s k), ?_⟩
  simpa [targets] using bytesKept_storedState .convBlock s

/-! #### Mixer -/

theorem mixLutIndex_eq_mixIndex (s : State) (k : Nat) : mixLutIndex s k = mixIndex s k :=
  congrArg (_ + ·) (lutIndex_eq_byteIndex ..)

theorem mixReads_iff (s : State) (k a : Nat) : (∃ sp ∈ mixReads s k, spanCovers sp a = true) ↔ mixUses s k a := by
  simp only [mixReads, List.mem_singleton, exists_eq_left, byteSpan_covers, mixUses]

theorem mixStoreRe_describes (s : State) (k slot : Nat) :
    Describes (mixStoreRe s k slot) (s.mix.outRe.toNat + 4 * slot) (mixUses s k) (mlutRe s (mixIndex s k)) :=
  ⟨rfl, congrArg (mlutRe s) (mixLutIndex_eq_mixIndex s k), mixReads_iff s k⟩

theorem mixStoreIm_describes (s : State) (k slot : Nat) :
    Describes (mixStoreIm s k slot) (s.mix.outIm.toNat + 4 * slot) (mixUses s k) (mlutIm s (mixIndex s k)) :=
  ⟨rfl, congrArg (mlutIm s) (mixLutIndex_eq_mixIndex s k), mixReads_iff s k⟩

theorem mixBody_of_planar {s : State} (h : s.mix.ilv = false) :
    mixBody s = fun k => [mixStoreRe s k k, mixStoreIm s k k] := funext fun _ => if_neg (by simp [h])

theorem mixBody_of_interleaved {s : State} (h : s.mix.ilv = true) :
    mixBody s = fun k => [if k % 2 = 0 then mixStoreRe s k (k / 2) else mixStoreIm s k (k / 2)] := by
  funext k
  rw [mixBody, if_pos h]
  split_ifs <;> rfl

/-- Settles O24: the last element of the command holds its result, and the one before it where the two are apart. -/
theorem mixElemWritesLutEntries : Obligations.MixElemWritesLutEntries := by
  intro s i h
  have hexec : exec (.mixElem i) s = .next (storedState (.mixElem i) s) := exec_eq_storedState h rfl
  cases hilv : s.mix.ilv with
  | false =>
    have htargets := congrFun (mixTargets_of_planar hilv) i
    refine ⟨_, hexec, finished_storedState (congrArg List.length htargets), fun _ => ?_, nofun,
      bytesKept_storedState (.mixElem i) s⟩
    exact pair_elem_stored h (congrFun (mixBody_of_planar hilv) i) htargets (by simp [listed, hilv])
      (by simp [listed, hilv]) (mixStoreRe_describes s i i) (mixStoreIm_describes s i i)
  | true =>
    have hplan := congrFun (mixBody_of_interleaved hilv) i
    have hlen : (targets (.mixElem i) s).length = 1 :=
      congrArg List.length (congrFun (mixTargets_of_interleaved hilv) i)
    refine ⟨_, hexec, finished_storedState hlen, nofun, fun _ => ⟨fun hpar => ?_, fun hpar => ?_⟩,
      bytesKept_storedState (.mixElem i) s⟩
    · rw [if_pos hpar] at hplan
      exact stored_storedState_last (congrArg (·[0]?) hplan) (mixStoreRe_describes s i _) hlen
    · rw [if_neg (by omega)] at hplan
      exact stored_storedState_last (congrArg (·[0]?) hplan) (mixStoreIm_describes s i _) hlen

theorem mixBlock_stores (s : State) :
    (planOf .mixBlock s).stores = (List.range (mixCount s)).flatMap (mixBody s) := rfl

/-- Settles O25: no two elements of the block share a byte, and each holds its result. -/
theorem mixBlockWritesEveryPosition : Obligations.MixBlockWritesEveryPosition := by
  intro s h
  have hap : (targets .mixBlock s).Pairwise Apart := block_targets_apart (by simp) h
  have hexec : exec .mixBlock s = .next (storedState .mixBlock s) := exec_eq_storedState h rfl
  have hkept : BytesKept s (storedState .mixBlock s) fun a => ∃ k < mixCount s, ∃ x ∈ mixTargets s k, InWord x a := by
    simpa only [targets, exists_mem_flatMap_range] using bytesKept_storedState .mixBlock s
  cases hilv : s.mix.ilv with
  | false =>
    have hplan := mixBlock_stores s
    rw [mixBody_of_planar hilv] at hplan
    refine ⟨_, hexec, finished_storedState ?_, fun _ k hk => ?_, nofun, hkept⟩
    · rw [targets, mixTargets_of_planar hilv]
      exact length_flatMap_pair ..
    · exact pair_block_stored hap hplan hk (mixStoreRe_describes s k k) (mixStoreIm_describes s k k)
  | true =>
    have hplan := mixBlock_stores s
    rw [mixBody_of_interleaved hilv, ← List.map_eq_flatMap] at hplan
    refine ⟨_, hexec, finished_storedState ?_, nofun, fun _ k hk => ?_, hkept⟩
    · rw [targets, mixTargets_of_interleaved hilv]
      simp
    · have hget := (congrArg (·[k]?) hplan).trans (getElem?_map_range _ hk)
      refine ⟨fun hpar => ?_, fun hpar => ?_⟩
      · rw [if_pos hpar] at hget
        exact stored_storedState_of_apart hap hget (mixStoreRe_describes s k _)
      · rw [if_neg (by omega)] at hget
        exact stored_storedState_of_apart hap hget (mixStoreIm_describes s k _)

/-! #### FIR -/

theorem accumulate_eq_firSum (term : Nat → Word) (n : Nat) : accumulate term n = firSum term n := by
  induction n with
  | zero => rfl
  | succ n ih =>
    rw [accumulate, List.range_succ, List.foldl_append, firSum, ← ih]
    rfl

theorem tapCount_eq_taps (s : State) : tapCount s.fir = taps s := by
  unfold tapCount taps
  split_ifs <;> rfl

theorem firRealRe_eq (s : State) : firRealRe s = realSumRe s := funext fun _ =>
  (accumulate_eq_firSum ..).trans (tapCount_eq_taps s ▸ rfl)

theorem firRealIm_eq (s : State) : firRealIm s = realSumIm s := funext fun _ =>
  (accumulate_eq_firSum ..).trans (tapCount_eq_taps s ▸ rfl)

theorem firComplexRe_eq (s : State) : firComplexRe s = complexSumRe s := funext fun _ =>
  (accumulate_eq_firSum ..).trans (tapCount_eq_taps s ▸ rfl)

theorem firComplexIm_eq (s : State) : firComplexIm s = complexSumIm s := funext fun _ =>
  (accumulate_eq_firSum ..).trans (tapCount_eq_taps s ▸ rfl)

/-- The element k of the output buffer `out` that reads window k of the channel at `base`. -/
def channelStore (s : State) (out base : Word) (value : Nat → Word) (k : Nat) : Store :=
  { addr := floatAddr out k, value := value k, reads := [windowSpan s.fir base k] }

/-- The element k of the output buffer `out` that reads window k of both channels. -/
def complexStore (s : State) (out : Word) (value : Nat → Word) (k : Nat) : Store :=
  { addr := floatAddr out k, value := value k, reads := [windowSpan s.fir s.fir.inRe k, windowSpan s.fir s.fir.inIm k] }

theorem channelStore_describes (s : State) (out base : Word) (value : Nat → Word) (k : Nat) :
    Describes (channelStore s out base value k) (out.toNat + 4 * k) (firUses s base k) (value k) :=
  ⟨rfl, rfl, fun a => by simp only [channelStore, List.mem_singleton, exists_eq_left, windowSpan_covers]⟩

theorem complexStore_describes (s : State) (out : Word) (value : Nat → Word) (k : Nat) :
    Describes (complexStore s out value k) (out.toNat + 4 * k)
      (fun a => firUses s s.fir.inRe k a ∨ firUses s s.fir.inIm k a) (value k) :=
  ⟨rfl, rfl, fun a => by
    simp only [complexStore, List.exists_mem_cons_iff, List.not_mem_nil, false_and, exists_false, or_false,
      windowSpan_covers]⟩

theorem firRrBody_eq (s : State) : firRrBody s = fun k => [channelStore s s.fir.outRe s.fir.inRe (realSumRe s) k] := by
  rw [← firRealRe_eq]
  rfl

theorem firRcBody_eq (s : State) :
    firRcBody s = fun k => [channelStore s s.fir.outRe s.fir.inRe (realSumRe s) k,
      channelStore s s.fir.outIm s.fir.inIm (realSumIm s) k] := by
  rw [← firRealRe_eq, ← firRealIm_eq]
  rfl

theorem firCcBody_eq (s : State) :
    firCcBody s = fun k => [complexStore s s.fir.outRe (complexSumRe s) k,
      complexStore s s.fir.outIm (complexSumIm s) k] := by
  rw [← firComplexRe_eq, ← firComplexIm_eq]
  rfl

/-- Settles O26: the only element of the command is the sum of its window. -/
theorem firRrElemWritesSum : Obligations.FirRrElemWritesSum := by
  intro s i h
  have hplan := congrFun (firRrBody_eq s) i
  refine ⟨_, exec_eq_storedState h rfl, finished_storedState rfl,
    stored_storedState_last (congrArg (·[0]?) hplan) (channelStore_describes ..) rfl, ?_⟩
  simpa [targets] using bytesKept_storedState (.firRrElem i) s

/-- Settles O28: no two elements of the block share a byte, and each is the sum of its window. -/
theorem firRrBlockWritesSums : Obligations.FirRrBlockWritesSums := by
  intro s h
  have hap : (targets .firRrBlock s).Pairwise Apart := block_targets_apart (by simp) h
  have hplan : (planOf .firRrBlock s).stores = (List.range (firCount s)).flatMap (firRrBody s) := rfl
  rw [firRrBody_eq, ← List.map_eq_flatMap] at hplan
  refine ⟨_, exec_eq_storedState h rfl, finished_storedState (by simp [targets]), fun k hk =>
    stored_storedState_of_apart hap ((congrArg (·[k]?) hplan).trans (getElem?_map_range _ hk))
      (channelStore_describes ..), ?_⟩
  simpa [targets] using bytesKept_storedState .firRrBlock s

/-- An element command of both channels. -/
theorem fir_pair_elem_results {i : Instr} {s : State} {k : Nat} {f g : Nat → Store} {vRe vIm : Word}
    {readsRe readsIm : Nat → Prop} (h : Executes i s) (heffect : effectOf i s = storeAll (planOf i s).stores s)
    (hplan : (planOf i s).stores = [f k, g k]) (htargets : targets i s = [firTargetRe s k, firTargetIm s k])
    (hre : floatsOut s.fir.outRe k k ∈ listed i s) (him : floatsOut s.fir.outIm k k ∈ listed i s)
    (hf : Describes (f k) (firTargetRe s k) readsRe vRe) (hg : Describes (g k) (firTargetIm s k) readsIm vIm) :
    ∃ t, exec i s = .next t ∧
      (Finished s t 2 ∧ BytesKept s t (fun a => InWord (firTargetRe s k) a ∨ InWord (firTargetIm s k) a)) ∧
      (s.fir.outRe ≠ s.fir.outIm → Stored s t 0 (firTargetRe s k) readsRe vRe) ∧
      Stored s t 1 (firTargetIm s k) readsIm vIm := by
  have hkept := bytesKept_storedState i s
  simp only [htargets, List.exists_mem_cons_iff, List.not_mem_nil, false_and, exists_false, or_false] at hkept
  exact ⟨_, exec_eq_storedState h heffect, ⟨finished_storedState (congrArg List.length htargets), hkept⟩,
    pair_elem_stored h hplan htargets hre him hf hg⟩

/-- Settles O27: both elements hold the sums of their windows, the real one where the two are apart. -/
theorem firComplexElemsWriteSums : Obligations.FirComplexElemsWriteSums := by
  intro s i
  exact ⟨fun h => fir_pair_elem_results h rfl (congrFun (firRcBody_eq s) i) rfl (by simp [listed]) (by simp [listed])
      (channelStore_describes ..) (channelStore_describes ..),
    fun h => fir_pair_elem_results h rfl (congrFun (firCcBody_eq s) i) rfl (by simp [listed]) (by simp [listed])
      (complexStore_describes ..) (complexStore_describes ..)⟩

/-- A block command of both channels. -/
theorem fir_pair_block_results {i : Instr} {s : State} {f g : Nat → Store} {readsRe readsIm : Nat → Nat → Prop}
    {vRe vIm : Nat → Word} (hi : i ∈ blocks) (h : Executes i s)
    (heffect : effectOf i s = storeAll (planOf i s).stores s)
    (hplan : (planOf i s).stores = (List.range (firCount s)).flatMap fun k => [f k, g k])
    (htargets : targets i s = (List.range (firCount s)).flatMap fun k => [firTargetRe s k, firTargetIm s k])
    (hf : ∀ k, Describes (f k) (firTargetRe s k) (readsRe k) (vRe k))
    (hg : ∀ k, Describes (g k) (firTargetIm s k) (readsIm k) (vIm k)) :
    ∃ t, exec i s = .next t ∧
      (Finished s t (2 * firCount s) ∧
        BytesKept s t (fun a => ∃ k < firCount s, InWord (firTargetRe s k) a ∨ InWord (firTargetIm s k) a)) ∧
      ∀ k < firCount s, Stored s t (2 * k) (firTargetRe s k) (readsRe k) (vRe k) ∧
        Stored s t (2 * k + 1) (firTargetIm s k) (readsIm k) (vIm k) := by
  have hkept := bytesKept_storedState i s
  simp only [htargets, exists_mem_flatMap_range, List.exists_mem_cons_iff, List.not_mem_nil, false_and, exists_false,
    or_false] at hkept
  exact ⟨_, exec_eq_storedState h heffect, ⟨finished_storedState (htargets ▸ length_flatMap_pair ..), hkept⟩,
    fun k hk => pair_block_stored (block_targets_apart hi h) hplan hk (hf k) (hg k)⟩

/-- Settles O29: no two elements of the blocks share a byte, and each is the sum of its windows. -/
theorem firComplexBlocksWriteSums : Obligations.FirComplexBlocksWriteSums := by
  intro s
  exact ⟨fun h => fir_pair_block_results (by simp) h rfl (congrArg (List.flatMap · _) (firRcBody_eq s)) rfl
      (fun _ => channelStore_describes ..) fun _ => channelStore_describes ..,
    fun h => fir_pair_block_results (by simp) h rfl (congrArg (List.flatMap · _) (firCcBody_eq s)) rfl
      (fun _ => complexStore_describes ..) fun _ => complexStore_describes ..⟩

/-! #### Demodulator -/

theorem demBody_describes (s : State) (k : Nat) :
    Describes (demBody s k) (demTarget s k) (demUses s k) (demResult s k) :=
  ⟨rfl, rfl, fun a => storesRead_singleton.symm.trans (demBody_reads s k a)⟩

/-- Settles O30: the only element of the command is the phase of its sample. -/
theorem demElemWritesPhase : Obligations.DemElemWritesPhase := by
  intro s i h
  refine ⟨_, exec_eq_storedState h rfl, finished_storedState rfl,
    stored_storedState_last rfl (demBody_describes s i) rfl, ?_⟩
  simpa [targets] using bytesKept_storedState (.demElem i) s

/-- Settles O31: no two elements of the block share a byte, and each is the phase of its sample. -/
theorem demBlockWritesPhases : Obligations.DemBlockWritesPhases := by
  intro s h
  have hap : (targets .demBlock s).Pairwise Apart := block_targets_apart (by simp) h
  refine ⟨_, exec_eq_storedState h rfl, finished_storedState (by simp [targets]),
    fun k hk => stored_storedState_of_apart hap (getElem?_map_range _ hk) (demBody_describes s k), ?_⟩
  simpa [targets] using bytesKept_storedState .demBlock s

/-! ### Host DMEM accesses -/

/-- The bytes of a word put together from four. -/
theorem extractLsb'_of_bytes (b0 b1 b2 b3 : Byte) :
    (b3 ++ b2 ++ b1 ++ b0).extractLsb' 0 8 = b0 ∧ (b3 ++ b2 ++ b1 ++ b0).extractLsb' 8 8 = b1 ∧
    (b3 ++ b2 ++ b1 ++ b0).extractLsb' 16 8 = b2 ∧ (b3 ++ b2 ++ b1 ++ b0).extractLsb' 24 8 = b3 := by
  refine ⟨BitVec.extractLsb'_append_eq_right, ?_, ?_, ?_⟩
  · rw [BitVec.extractLsb'_append_eq_of_le (by decide)]
    exact BitVec.extractLsb'_append_eq_right
  · rw [BitVec.extractLsb'_append_eq_of_le (by decide), BitVec.extractLsb'_append_eq_of_le (by decide)]
    exact BitVec.extractLsb'_append_eq_right
  · rw [BitVec.extractLsb'_append_eq_of_le (by decide), BitVec.extractLsb'_append_eq_of_le (by decide),
      BitVec.extractLsb'_append_eq_of_le (by decide)]
    exact BitVec.extractLsb'_eq_self

theorem hostReads_hostByte (s : State) (n a : Nat) : HostReads s n a (hostByte s n a) := by
  have hfree : (readRaces s a || s.raced.contains a) = true ↔ a ∈ s.raced ∨ PendingWrites s a := by
    rw [Bool.or_eq_true, readRaces_iff, List.contains_iff_mem, or_comm]
  exact ⟨fun h => if_pos (hfree.mpr h), fun h => if_neg fun hr => h (hfree.mp hr)⟩

/-- The word a host read of 4 bytes returns. -/
def hostWord (s : State) (addr : Nat) : Word :=
  hostByte s 3 (addr + 3) ++ hostByte s 2 (addr + 2) ++ hostByte s 1 (addr + 1) ++ hostByte s 0 addr

theorem hostReads_hostWord (s : State) (addr : Nat) {k : Nat} (hk : k < 4) :
    HostReads s k (addr + k) ((hostWord s addr).extractLsb' (8 * k) 8) := by
  obtain ⟨h0, h1, h2, h3⟩ := extractLsb'_of_bytes (hostByte s 0 addr) (hostByte s 1 (addr + 1))
    (hostByte s 2 (addr + 2)) (hostByte s 3 (addr + 3))
  have hbyte := hostReads_hostByte s k (addr + k)
  interval_cases k
  · exact h0.symm ▸ hbyte
  · exact h1.symm ▸ hbyte
  · exact h2.symm ▸ hbyte
  · exact h3.symm ▸ hbyte

theorem racedAfter_of_iff {s t : State} {races : Nat → Bool} {bytes : List Nat} {touched race : Nat → Prop}
    (ht : t.raced = racedAfter races bytes s) (hbytes : ∀ a, a ∈ bytes ↔ touched a)
    (hraces : ∀ a, races a = true ↔ race a) : RacedAfter s t touched race := fun a => by
  rw [ht, mem_racedAfter, hbytes, hraces]

theorem dmemExists_iff {s : State} {a : Nat} : dmemExists s a = true ↔ a < s.params.dmemSize := decide_eq_true_iff

/-- Settles O32: read after write, and the races of the bytes written. -/
theorem hostDmemWrites : Obligations.HostDmemWrites := by
  intro s addr
  refine ⟨fun v => ⟨fun h => ?_, fun h => ?_⟩, fun b => ⟨fun h => ?_, fun h => ?_⟩⟩
  · exact ⟨_, if_pos (dmemExists_iff.mpr (by omega)), rfl, memRead32_write32_same ..,
      fun _ => memRead8_write32_outside _ _, racedAfter_of_iff rfl (fun _ => mem_wordBytes) (writeRaces_iff s)⟩
  · exact if_neg (by rw [dmemExists_iff]; omega)
  · exact ⟨_, if_pos (dmemExists_iff.mpr h), rfl, (memRead8_write8 ..).trans (if_pos rfl),
      fun _ ha => memRead8_write8_other _ _ (Ne.symm ha),
      racedAfter_of_iff rfl (fun _ => List.mem_singleton) (writeRaces_iff s)⟩
  · exact if_neg (by rw [dmemExists_iff]; omega)

/-- Settles O33: the bytes the read puts together, and the races of the bytes read. -/
theorem hostDmemReads : Obligations.HostDmemReads := by
  intro s addr drawn
  have hdrawn (n : Nat) : drawn n = if s.pending.isSome then s.fresh + n else s.fresh := by
    show s.fresh + _ = _
    split_ifs <;> rfl
  refine ⟨fun h => ?_, fun h => ?_, fun h => ?_, fun h => ?_⟩
  · exact ⟨_, hostWord s addr, if_pos (dmemExists_iff.mpr (by omega)), by rw [hdrawn]; rfl,
      fun _ => hostReads_hostWord s addr, racedAfter_of_iff rfl (fun _ => mem_wordBytes) (readRaces_iff s)⟩
  · exact if_neg (by rw [dmemExists_iff]; omega)
  · exact ⟨_, hostByte s 0 addr, if_pos (dmemExists_iff.mpr h), by rw [hdrawn], hostReads_hostByte s 0 addr,
      racedAfter_of_iff rfl (fun _ => List.mem_singleton) (readRaces_iff s)⟩
  · exact if_neg (by rw [dmemExists_iff]; omega)

end Sys2Proof.Machine

/-! ### The decoder and the encoder -/

namespace Sys2Proof.Machine

open Sys2Proof.Claims Sys2Proof.Laws

/-! #### A word is its OP and its IMM field (30 R130) -/

theorem opField_toNat (w : Word) : (opField w).toNat = w.toNat % 256 := by
  rw [opField, BitVec.extractLsb'_toNat, Nat.shiftRight_zero]

theorem immField_toNat (w : Word) : (immField w).toNat = w.toNat / 256 := by
  rw [immField, BitVec.extractLsb'_toNat, Nat.shiftRight_eq_div_pow]
  exact Nat.mod_eq_of_lt (by omega)

theorem word_eq_of_fields {v w : Word} (hop : opField v = opField w) (himm : immField v = immField w) : v = w := by
  have hmod := congrArg BitVec.toNat hop
  have hdiv := congrArg BitVec.toNat himm
  rw [opField_toNat, opField_toNat] at hmod
  rw [immField_toNat, immField_toNat] at hdiv
  exact BitVec.eq_of_toNat_eq (by omega)

/-! #### The decoder reads exactly the opcode map -/

theorem decodeClassZ_eq_ok_iff {w : Word} {i j : Instr} :
    decodeClassZ w i = .ok j ↔ i = j ∧ immField w = 0#24 := by
  unfold decodeClassZ
  split_ifs with h <;> simp [h]

theorem fields_of_decodeClassZ {w : Word} {i j : Instr} (h : decodeClassZ w i = .ok j) (hi : operand i = none)
    (hop : (opField w).toNat = (opcode i).toNat) :
    opField w = opcode j ∧ (immField w).toNat = (operand j).getD 0 := by
  obtain ⟨rfl, himm⟩ := decodeClassZ_eq_ok_iff.mp h
  exact ⟨BitVec.eq_of_toNat_eq hop, by rw [himm, hi]; rfl⟩

theorem fields_of_decodeClassI {w : Word} {f : Nat → Instr} {j : Instr} (h : decodeClassI w f = .ok j)
    (hf : ∀ n, operand (f n) = some n) (hop : ∀ n, (opField w).toNat = (opcode (f n)).toNat) :
    opField w = opcode j ∧ (immField w).toNat = (operand j).getD 0 := by
  obtain rfl := Except.ok.inj h
  exact ⟨BitVec.eq_of_toNat_eq (hop _), by rw [hf]; rfl⟩

/-- Arm by arm of the decision procedure of 30 R136: seven class I arms, the undefined opcodes, and class Z. -/
theorem fields_of_decode {w : Word} {i : Instr} (h : decode w = .ok i) :
    opField w = opcode i ∧ (immField w).toNat = (operand i).getD 0 := by
  unfold decode at h
  split at h
  case h_3 hop | h_5 hop | h_8 hop | h_11 hop | h_12 hop | h_13 hop | h_20 hop =>
    exact fields_of_decodeClassI h (fun _ => rfl) fun _ => hop
  case h_24 => nomatch h
  all_goals exact fields_of_decodeClassZ h rfl ‹_›

theorem decode_of_fields {w : Word} {i : Instr} (hop : opField w = opcode i)
    (himm : (immField w).toNat = (operand i).getD 0) : decode w = .ok i := by
  unfold decode
  rw [hop]
  cases i with
  | convElem n | mixElem n | mixAdvance n | firRcElem n | firRrElem n | firCcElem n | demElem n =>
    obtain rfl : (immField w).toNat = n := himm
    rfl
  | _ => exact decodeClassZ_eq_ok_iff.mpr ⟨rfl, BitVec.eq_of_toNat_eq himm⟩

/-- A word decodes to a command when its OP field is the command's opcode and its IMM field the operand, 0 for class Z
(30 R130 to R136). -/
theorem decode_eq_ok_iff {w : Word} {i : Instr} :
    decode w = .ok i ↔ opField w = opcode i ∧ (immField w).toNat = (operand i).getD 0 :=
  ⟨fields_of_decode, fun ⟨hop, himm⟩ => decode_of_fields hop himm⟩

/-! #### The round trips -/

theorem wellFormed_iff (i : Instr) : wellFormed i = true ↔ (operand i).getD 0 < 2 ^ 24 := by
  cases i with
  | convElem | mixElem | mixAdvance | firRcElem | firRrElem | firCcElem | demElem => exact decide_eq_true_iff
  | _ => exact iff_of_true rfl (by decide)

/-- Settles O1: the two fields of the command's word are its opcode and its operand, which are all the decoder reads. -/
theorem decodeOfEncode : Obligations.DecodeOfEncode := by
  intro i hi
  refine decode_eq_ok_iff.mpr ⟨opField_encode i, ?_⟩
  rw [immField_encode, BitVec.toNat_ofNat, Nat.mod_eq_of_lt ((wellFormed_iff i).mp hi)]

/-- Settles O2: the word decoded and the word of the command have the same two fields. -/
theorem encodeOfDecode : Obligations.EncodeOfDecode := by
  intro w i h
  obtain ⟨hop, himm⟩ := decode_eq_ok_iff.mp h
  refine ⟨word_eq_of_fields ((opField_encode i).trans hop.symm) ?_, ?_⟩
  · rw [immField_encode, ← himm, BitVec.ofNat_toNat, BitVec.setWidth_eq]
  · rw [wellFormed_iff, ← himm]
    exact (immField w).isLt

/-! #### Illegal words (30 R133, R134) -/

/-- The opcode of a command with an operand is one of class I, of a command without one of class Z (30 R132). -/
theorem opcode_class (i : Instr) :
    ((opcode i).toNat ∈ classIOps ∧ (opcode i).toNat ∉ classZOps) ∨
    ((opcode i).toNat ∈ classZOps ∧ operand i = none) := by
  cases i with
  | convElem | mixElem | mixAdvance | firRcElem | firRrElem | firCcElem | demElem =>
    exact .inl (by simp only [opcode]; decide)
  | _ => exact .inr (by decide)

theorem exists_command_of_classI {op : Nat} (h : op ∈ classIOps) (n : Nat) :
    ∃ i, (opcode i).toNat = op ∧ (operand i).getD 0 = n := by
  simp only [classIOps, List.mem_cons, List.not_mem_nil, or_false] at h
  obtain rfl | rfl | rfl | rfl | rfl | rfl | rfl := h
  exacts [⟨.convElem n, rfl, rfl⟩, ⟨.mixElem n, rfl, rfl⟩, ⟨.mixAdvance n, rfl, rfl⟩, ⟨.firRcElem n, rfl, rfl⟩,
    ⟨.firRrElem n, rfl, rfl⟩, ⟨.firCcElem n, rfl, rfl⟩, ⟨.demElem n, rfl, rfl⟩]

theorem exists_command_of_classZ {op : Nat} (h : op ∈ classZOps) :
    ∃ i, (opcode i).toNat = op ∧ (operand i).getD 0 = 0 := by
  simp only [classZOps, List.mem_cons, List.not_mem_nil, or_false] at h
  obtain rfl | rfl | rfl | rfl | rfl | rfl | rfl | rfl | rfl | rfl | rfl | rfl | rfl | rfl | rfl | rfl := h
  exacts [⟨.nop, rfl, rfl⟩, ⟨.resetState, rfl, rfl⟩, ⟨.convBlock, rfl, rfl⟩, ⟨.mixBlock, rfl, rfl⟩,
    ⟨.mixGenlut, rfl, rfl⟩, ⟨.mixRefresh, rfl, rfl⟩, ⟨.mixReset, rfl, rfl⟩, ⟨.firRcBlock, rfl, rfl⟩,
    ⟨.firRrBlock, rfl, rfl⟩, ⟨.firCcBlock, rfl, rfl⟩, ⟨.firRefreshC, rfl, rfl⟩, ⟨.firRefreshR, rfl, rfl⟩,
    ⟨.firClear, rfl, rfl⟩, ⟨.demBlock, rfl, rfl⟩, ⟨.demSave, rfl, rfl⟩, ⟨.demReset, rfl, rfl⟩]

theorem not_illegalWord_of_decode {w : Word} {i : Instr} (h : decode w = .ok i) : ¬IllegalWord w := by
  obtain ⟨hop, himm⟩ := decode_eq_ok_iff.mp h
  rw [IllegalWord, ← opField_toNat, ← immField_toNat, hop, himm]
  rintro (⟨hnotI, hnotZ⟩ | ⟨hZ, hne⟩) <;> obtain ⟨hI, hnZ⟩ | ⟨hz, hnone⟩ := opcode_class i
  · exact hnotI hI
  · exact hnotZ hz
  · exact hnZ hZ
  · exact hne (by rw [hnone]; rfl)

theorem exists_decode_of_not_illegalWord {w : Word} (h : ¬IllegalWord w) : ∃ i, decode w = .ok i := by
  rw [IllegalWord, ← opField_toNat, ← immField_toNat, not_or, not_and_or, not_not, not_not, not_and, not_not] at h
  obtain ⟨hI | hZ, himm⟩ := h
  · obtain ⟨i, hop, hoperand⟩ := exists_command_of_classI hI (immField w).toNat
    exact ⟨i, decode_eq_ok_iff.mpr ⟨BitVec.eq_of_toNat_eq hop.symm, hoperand.symm⟩⟩
  · obtain ⟨i, hop, hoperand⟩ := exists_command_of_classZ hZ
    exact ⟨i, decode_eq_ok_iff.mpr ⟨BitVec.eq_of_toNat_eq hop.symm, (himm hZ).trans hoperand.symm⟩⟩

theorem coreStep_of_illegalWord {w : Word} (s : State) (h : IllegalWord w) :
    coreStep w s = .next (illegalCommand w s) := by
  unfold coreStep
  split
  · next hd => exact absurd h (not_illegalWord_of_decode hd)
  · rfl

/-- Settles O3: the words no command has are the illegal ones, and the core step of one is the error record. -/
theorem illegalWordsRaise : Obligations.IllegalWordsRaise :=
  fun _ s => ⟨coreStep_of_illegalWord s, exists_decode_of_not_illegalWord⟩

/-- Settles O4: the two fields of each word are the opcode and the operand of its command. -/
theorem writtenWordsDecode : Obligations.WrittenWordsDecode := by
  simp only [Obligations.WrittenWordsDecode, decode_eq_ok_iff]
  decide

end Sys2Proof.Machine

/-! ### How a command ends -/

namespace Sys2Proof.Machine

open Sys2Proof.Claims

variable {i : Instr} {s : State}

theorem exec_of_noop (h : (planOf i s).noop = true) : exec i s = .next (completedFrom s) := by
  rw [exec_eq_runPlan, runPlan_noop h, complete]

/-- An error of the check phase is recorded, and nothing else changes (40 R162, 60 R310). -/
theorem exec_of_failure {f : Failure} (hn : (planOf i s).noop = false)
    (hf : planFailure s.params.dmemSize (planOf i s) = some f) :
    exec i s = .next (raisedFrom s f.cause (encode i) f.addr) := by
  rw [exec_eq_runPlan, runPlan_raises hn hf, raiseError]

theorem exec_of_passes (hn : (planOf i s).noop = false) (hf : planFailure s.params.dmemSize (planOf i s) = none) :
    exec i s = .next (complete (effectOf i s)) := by
  rw [exec_eq_runPlan, runPlan_executes hn hf]

theorem exec_of_testless (h : planOf i s = {}) : exec i s = .next (complete (effectOf i s)) := by
  rw [exec_eq_runPlan, h, runPlan_testless]

/-- No effect touches the error record, so a command that executes completes without error (40 R160). -/
theorem completed_effectOf (i : Instr) (s : State) : Completed s (complete (effectOf i s)) := by
  refine ⟨rfl, rfl, rfl, ?_⟩
  cases i <;> exact ⟨rfl, rfl, rfl⟩

/-! #### No-ops and commands that test nothing -/

/-- Settles O9: the plan of an element command is a no-op for an index that is not valid. -/
theorem invalidIndexIsNoop : Obligations.InvalidIndexIsNoop := by
  intro s k
  refine ⟨fun h => ?_, fun h => ?_, fun h => ⟨?_, ?_, ?_⟩, fun h => ?_⟩
  all_goals exact exec_of_noop (decide_eq_true h)

/-- Settles O10: the plan of a block command is a no-op for M = 0, that of DEM_SAVE for L = 0. -/
theorem emptyBlockIsNoop : Obligations.EmptyBlockIsNoop := by
  intro s
  refine ⟨fun h => ?_, fun h => ?_, fun h => ⟨?_, ?_, ?_⟩, fun h => ?_,
    fun h => exec_of_noop (i := .demSave) (decide_eq_true h)⟩
  all_goals exact exec_of_noop (decide_eq_true (Nat.sub_eq_zero_of_le h))

/-- Settles O17: the three commands test nothing and execute. -/
theorem nopAndKernelResets : Obligations.NopAndKernelResets := fun _ =>
  ⟨exec_of_testless (i := .nop) rfl, exec_of_testless (i := .demReset) rfl, exec_of_testless (i := .mixReset) rfl⟩

theorem entryAt_fill_of_lt (m : EntryMem) {n k : Nat} (f : Nat → Entry) (h : k < n) :
    entryAt (entriesFill m n f) k = f k := by rw [entryAt_fill, if_pos h]

theorem entryAt_fill_of_le (m : EntryMem) {n k : Nat} (f : Nat → Entry) (h : n ≤ k) :
    entryAt (entriesFill m n f) k = entryAt m k := by rw [entryAt_fill, if_neg (Nat.not_lt_of_le h)]

/-- The remainder is zeroed up to its depth, whatever the order is (43 R251). -/
theorem clearRemainder_entries (s : State) (m : Nat) :
    (m < s.params.firMaxOrder - 1 → entryAt (clearRemainder s).fir.remRe m = .written 0#32 ∧
      entryAt (clearRemainder s).fir.remIm m = .written 0#32) ∧
    (s.params.firMaxOrder - 1 ≤ m → entryAt (clearRemainder s).fir.remRe m = entryAt s.fir.remRe m ∧
      entryAt (clearRemainder s).fir.remIm m = entryAt s.fir.remIm m) :=
  ⟨fun h => ⟨entryAt_fill_of_lt _ _ h, entryAt_fill_of_lt _ _ h⟩,
    fun h => ⟨entryAt_fill_of_le _ _ h, entryAt_fill_of_le _ _ h⟩⟩

/-- Settles O16: both commands test nothing, so they execute, and both clear the remainder. -/
theorem remainderClearsZeroAll : Obligations.RemainderClearsZeroAll := by
  intro s
  have hreset := exec_of_testless (i := .resetState) (s := s) rfl
  have hclear := exec_of_testless (i := .firClear) (s := s) rfl
  exact ⟨⟨_, hreset, ⟨completed_effectOf .resetState s, exec_control hreset, exec_memory hreset rfl, exec_conv hreset,
      exec_mix hreset rfl, rfl, clearRemainder_entries s⟩, rfl⟩,
    _, hclear, ⟨completed_effectOf .firClear s, exec_control hclear, exec_memory hclear rfl, exec_conv hclear,
      exec_mix hclear rfl, rfl, clearRemainder_entries s⟩, rfl⟩

/-! #### The error a check phase finds -/

/-- The causes of configuration tests, whose ERRADDR is 0 (60 R302 to R306). -/
def configurationCauses : List Cause := [.badOrder, .badDecim, .badCoslen, .badRate, .lutStale]

/-- The causes of buffer tests, whose ERRADDR is a buffer's base (60 R307 to R309). -/
def bufferCauses : List Cause := [.align, .memRange, .overlap]

theorem tests_causes (i : Instr) (s : State) : ∀ t ∈ (planOf i s).tests, t.2 ∈ configurationCauses := by
  have hnone : ∀ t ∈ ([] : List (Bool × Cause)), t.2 ∈ configurationCauses := nofun
  have hmix : ∀ t ∈ mixTests s, t.2 ∈ configurationCauses := by simp [mixTests, configurationCauses]
  have hfir : ∀ t ∈ firTests s, t.2 ∈ configurationCauses := by simp [firTests, configurationCauses]
  cases i with
  | mixElem | mixBlock => exact hmix
  | mixGenlut => simp [planOf, planMixGenlut, configurationCauses]
  | mixAdvance | mixRefresh => simp [planOf, planMixAdvance, planMixRefresh, configurationCauses]
  | firRcElem | firRrElem | firCcElem | firRcBlock | firRrBlock | firCcBlock | firRefreshC | firRefreshR => exact hfir
  | _ => exact hnone

theorem testFailure_some {ts : List (Bool × Cause)} {f : Failure} (h : testFailure ts = some f) :
    f.addr = 0#32 ∧ ∃ t ∈ ts, t.2 = f.cause := by
  induction ts with
  | nil => exact nomatch h
  | cons t rest ih =>
    obtain ⟨failed, c⟩ := t
    rw [testFailure] at h
    split_ifs at h
    · obtain rfl := Option.some.inj h
      exact ⟨rfl, _, List.mem_cons_self, rfl⟩
    · obtain ⟨haddr, t, ht, hc⟩ := ih h
      exact ⟨haddr, t, List.mem_cons_of_mem _ ht, hc⟩

theorem bufferFailure_some {size : Nat} {b : Buffer} {f : Failure} (h : bufferFailure size b = some f) :
    f.cause ∈ bufferCauses ∧ f.addr = b.base := by
  unfold bufferFailure at h
  split_ifs at h
  all_goals
    obtain rfl := Option.some.inj h
    exact ⟨by simp [bufferCauses], rfl⟩

theorem overlapFailure_some {before bs : List Buffer} {f : Failure} (h : overlapFailure before bs = some f) :
    f.cause ∈ bufferCauses ∧ ∃ b ∈ bs, f.addr = b.base := by
  induction bs generalizing before with
  | nil => exact nomatch h
  | cons b rest ih =>
    rw [overlapFailure] at h
    split_ifs at h
    · obtain rfl := Option.some.inj h
      exact ⟨by simp [bufferCauses], b, List.mem_cons_self, rfl⟩
    · obtain ⟨hc, x, hx, haddr⟩ := ih h
      exact ⟨hc, x, List.mem_cons_of_mem b hx, haddr⟩

/-- What the check phase can find (40 R163): the error of a configuration test, with ERRADDR 0, or, when these pass, the
error of a buffer, with its base. -/
theorem planFailure_some {size : Nat} {p : Plan} {f : Failure} (h : planFailure size p = some f) :
    (f.addr = 0#32 ∧ ∃ t ∈ p.tests, t.2 = f.cause) ∨
    ((∀ t ∈ p.tests, t.1 = false) ∧ f.cause ∈ bufferCauses ∧ ∃ b ∈ p.buffers, f.addr = b.base) := by
  unfold planFailure at h
  split at h
  next g hg =>
    obtain rfl := Option.some.inj h
    exact .inl (testFailure_some hg)
  next ht =>
    refine .inr ⟨testFailure_none_iff.mp ht, ?_⟩
    split at h
    next g hg =>
      obtain rfl := Option.some.inj h
      obtain ⟨b, hb, hfail⟩ := List.exists_of_findSome?_eq_some hg
      obtain ⟨hc, haddr⟩ := bufferFailure_some hfail
      exact ⟨hc, b, hb, haddr⟩
    next =>
      split_ifs at h
      exact overlapFailure_some h

/-- Settles O8, by the ways a plan can end: no-op, an error of the check phase, or execution. -/
theorem commandCompletesOrRaises : Obligations.CommandCompletesOrRaises := by
  intro i s
  cases hn : (planOf i s).noop with
  | true => exact ⟨_, exec_of_noop hn, .inl ⟨rfl, rfl, rfl, rfl, rfl, rfl⟩⟩
  | false =>
    cases hf : planFailure s.params.dmemSize (planOf i s) with
    | none => exact ⟨_, exec_of_passes hn hf, .inl (completed_effectOf i s)⟩
    | some f =>
      refine ⟨_, exec_of_failure hn hf, .inr ⟨f.cause, f.addr, rfl, ?_⟩⟩
      rcases planFailure_some hf with ⟨haddr, t, ht, hc⟩ | ⟨ht, hc, hb⟩
      · have hconf : f.cause ∈ configurationCauses := hc ▸ tests_causes i s t ht
        simp only [configurationCauses, List.mem_cons, List.not_mem_nil, or_false] at hconf
        rcases hconf with h | h | h | h | h <;> simp [h, haddr]
      · rw [plan_buffers (reachesBuffers_iff.mpr ⟨hn, ht⟩)] at hb
        simp only [bufferCauses, List.mem_cons, List.not_mem_nil, or_false] at hc
        rcases hc with h | h | h <;> simpa [h] using hb

/-! #### The first buffer that fails -/

/-- Settles O14: the buffers before `b` pass, so the check phase finds the error of `b`. -/
theorem bufferErrors : Obligations.BufferErrors := by
  intro i s before after b c hr hl hbefore hb
  obtain ⟨hn, ht⟩ := reachesBuffers_iff.mp hr
  have hsize : ∀ x ∈ before ++ b :: after, 1 ≤ x.size := hl ▸ listed_size
  have hpass : before.findSome? (bufferFailure s.params.dmemSize) = none :=
    List.findSome?_eq_none_iff.mpr fun x hx =>
      (bufferPasses_iff (hsize x (List.mem_append_left _ hx))).mp (hbefore x hx)
  have hfail := (bufferFails_iff (hsize b (by simp))).mp hb
  refine exec_of_failure (f := ⟨c, b.base⟩) hn ?_
  simp [planFailure, testFailure_none_iff.mpr ht, plan_buffers hr, hl, List.findSome?_append, hpass, hfail]

/-- The overlap test passes over buffers none of which is an output that meets another buffer. -/
theorem overlapFailure_append {seen before bs : List Buffer}
    (h : ∀ pre c post, before = pre ++ c :: post → c.output = true →
      ∀ x ∈ seen ++ (pre ++ post ++ bs), buffersMeet c x = false) :
    overlapFailure seen (before ++ bs) = overlapFailure (seen ++ before) bs := by
  induction before generalizing seen with
  | nil => simp
  | cons b rest ih =>
    have hskip : ¬(b.output && (seen ++ (rest ++ bs)).any (buffersMeet b)) = true := by
      rw [Bool.and_eq_true, List.any_eq_true]
      rintro ⟨ho, x, hx, hm⟩
      exact absurd hm (by simp [h [] b rest rfl ho x hx])
    rw [List.cons_append, overlapFailure, if_neg hskip, ih, List.append_assoc, List.singleton_append]
    intro pre c post hsplit ho x hx
    exact h (b :: pre) c post (by rw [hsplit, List.cons_append]) ho x (by simpa using hx)

/-- Settles O15: the other tests pass, and no output buffer before `b` meets another buffer. -/
theorem overlapErrors : Obligations.OverlapErrors := by
  intro i s before after b hi hr hpass hl hout hmeets hfirst
  obtain ⟨hn, ht⟩ := reachesBuffers_iff.mp hr
  have hsize : ∀ x ∈ before ++ b :: after, 1 ≤ x.size := hl ▸ listed_size
  have hbuf : (listed i s).findSome? (bufferFailure s.params.dmemSize) = none :=
    List.findSome?_eq_none_iff.mpr fun x hx => (bufferPasses_iff (listed_size x hx)).mp (hpass x hx)
  have hover : overlapFailure [] (before ++ b :: after) = some ⟨.overlap, b.base⟩ := by
    rw [overlapFailure_append, List.nil_append, overlapFailure, if_pos]
    · obtain ⟨x, hx, hm⟩ := hmeets
      rw [hout, Bool.true_and, List.any_eq_true]
      exact ⟨x, hx, (meet_iff (hsize b (by simp)) (hsize x (by grind))).mp hm⟩
    · intro pre c post hsplit ho x hx
      have hno := hfirst pre c post hsplit ho x hx
      subst hsplit
      rw [meet_iff (hsize c (by simp)) (hsize x (by grind))] at hno
      exact Bool.eq_false_of_not_eq_true hno
  refine exec_of_failure (f := ⟨.overlap, b.base⟩) hn ?_
  rw [hl] at hbuf
  simp [planFailure, testFailure_none_iff.mpr ht, plan_buffers hr, hl, hbuf, plan_block_iff.mpr hi, hover]

/-! #### Commands that store to DMEM -/

theorem effectOf_of_storing (h : Storing i) : effectOf i s = storeAll (planOf i s).stores s := by
  rcases h with ⟨n, rfl | rfl | rfl | rfl | rfl | rfl⟩ | hi
  iterate 6 rfl
  fin_cases hi <;> rfl

/-- Settles O35: storing elements changes the bytes of these elements alone. -/
theorem storingCommandsFrame : Obligations.StoringCommandsFrame := by
  intro i s t hi h
  have heffect : effectOf i s = storeAll (planOf i s).stores s := effectOf_of_storing hi
  refine ⟨⟨exec_conv h, exec_mix h ?_, exec_fir h ?_, exec_dem h ?_⟩, exec_control h, fun a ha => ?_⟩
  iterate 3 rw [heffect]; rfl
  obtain ⟨u, d, e, info, addr, rfl, rfl | ⟨-, rfl⟩⟩ := exec_ends h
  · rfl
  · rw [endedWith, heffect]
    exact memRead8_writeStores_outside s ha

/-! #### The order of a block's elements -/

/-- The byte lies in the buffer's extent (40 R164). -/
def InExtent (b : Buffer) (a : Nat) : Prop := b.base.toNat + b.size * b.kmin ≤ a ∧ a < extentEnd b

theorem meet_of_inExtent {b c : Buffer} {a : Nat} (hb : InExtent b a) (hc : InExtent c a) : Meet b c :=
  ⟨lt_of_le_of_lt hb.1 hc.2, lt_of_le_of_lt hc.1 hb.2⟩

theorem inExtent_bytesIn {base : Word} {n k : Nat} (hk : k < n) :
    InExtent (bytesIn base 0 (n - 1)) (base.toNat + k) := by
  unfold InExtent extentEnd
  dsimp only
  omega

/-- The bytes of element k of a float buffer. -/
theorem inExtent_float {base : Word} {kmin kmax k a : Nat} {output : Bool} (hmin : kmin ≤ k) (hmax : k ≤ kmax)
    (ha : InWord (base.toNat + 4 * k) a) : InExtent ⟨base, 4, kmin, kmax, output⟩ a := by
  unfold InExtent extentEnd
  dsimp only
  omega

/-- The block samples of one output are among those of the hull of a block's windows (43 R253). -/
theorem inExtent_firIn {base : Word} {n k a : Nat} (hk : k < n) (h : firUses s base k a) :
    InExtent (firIn s base 0 (n - 1)) a := by
  obtain ⟨tap, htap, hpos, ha⟩ := h
  have hmul : k * s.fir.decim.toNat ≤ (n - 1) * s.fir.decim.toNat := Nat.mul_le_mul_right _ (Nat.le_sub_one_of_lt hk)
  refine inExtent_float ?_ ?_ ha
  all_goals
    unfold sampleOf at hpos ⊢
    rw [← Nat.cast_mul] at hpos ⊢
  · unfold inputStart
    omega
  · unfold inputEnd
    unfold taps at htap
    omega

/-- The samples of one demodulator element are among those of the block (44 R283). -/
theorem inExtent_of_demUses {n k a : Nat} (hk : k < n) (h : demUses s k a) :
    ∃ base ∈ [s.dem.inRe, s.dem.inIm],
      InExtent (floatsIn base s.dem.ioff.toNat (s.dem.ioff.toNat + n - 1)) a := by
  obtain ⟨base, hbase, ha | ⟨hk0, ha⟩⟩ := h
  · exact ⟨base, hbase, inExtent_float (k := s.dem.ioff.toNat + k) (by omega) (by omega) ha⟩
  · exact ⟨base, hbase, inExtent_float (k := s.dem.ioff.toNat + k - 1) (by omega) (by omega) ha⟩

/-- Every byte a block reads lies in the extent of one of its input buffers. -/
theorem use_inInput {a : Nat} (hi : i ∈ blocks) (h : uses i s a) :
    ∃ b ∈ listed i s, b.output = false ∧ InExtent b a := by
  have hpair {re im : Word} {n k : Nat} {rest : List Buffer} (hk : k < n)
      (h : firUses s re k a ∨ firUses s im k a) :
      ∃ b ∈ firIn s re 0 (n - 1) :: firIn s im 0 (n - 1) :: rest, b.output = false ∧ InExtent b a := by
    rcases h with h | h
    · exact ⟨_, List.mem_cons_self, rfl, inExtent_firIn hk h⟩
    · exact ⟨_, List.mem_cons_of_mem _ List.mem_cons_self, rfl, inExtent_firIn hk h⟩
  cases i with
  | convBlock | mixBlock =>
    obtain ⟨k, hk, rfl⟩ := h
    exact ⟨_, List.mem_cons_self, rfl, inExtent_bytesIn hk⟩
  | firRrBlock =>
    obtain ⟨k, hk, h⟩ := h
    exact ⟨_, List.mem_cons_self, rfl, inExtent_firIn hk h⟩
  | firRcBlock | firCcBlock =>
    obtain ⟨k, hk, h⟩ := h
    exact hpair hk h
  | demBlock =>
    obtain ⟨k, hk, h⟩ := h
    obtain ⟨base, hbase, ha⟩ := inExtent_of_demUses hk h
    rcases List.mem_pair.mp hbase with rfl | rfl
    · exact ⟨_, List.mem_cons_self, rfl, ha⟩
    · exact ⟨_, List.mem_cons_of_mem _ List.mem_cons_self, rfl, ha⟩
  | _ => exact absurd hi (by simp [blocks])

/-- An output buffer of a block starts at element 0. -/
theorem block_output_kmin (hi : i ∈ blocks) : ∀ b ∈ listed i s, b.output = true → b.kmin = 0 := by
  fin_cases hi <;> simp only [listed, interleavedOut, firIn]
  all_goals (repeat' split)
  all_goals simp

/-- Every byte a block writes lies in the extent of one of its output buffers. -/
theorem target_inOutputExtent {x a : Nat} (hi : i ∈ blocks) (hx : x ∈ targets i s) (ha : InWord x a) :
    ∃ c ∈ listed i s, c.output = true ∧ InExtent c a := by
  obtain ⟨base, kmin, kmax, k, hmem, hk, rfl⟩ := target_inOutput hx
  obtain rfl : kmin = 0 := block_output_kmin hi _ hmem rfl
  exact ⟨_, hmem, rfl, inExtent_float (Nat.zero_le k) hk ha⟩

/-- Where no output extent meets another extent, no byte lies in an input and an output extent. -/
theorem not_inExtent_of_noOverlap {bs : List Buffer} {b c : Buffer} {a : Nat} (h : NoOverlap bs) (hb : b ∈ bs)
    (hc : c ∈ bs) (hin : b.output = false) (hout : c.output = true) (hba : InExtent b a) : ¬InExtent c a := by
  intro hca
  have : Std.Symm fun b c : Buffer => (b.output || c.output) = true → ¬Meet b c :=
    ⟨fun x y hxy ho hm => hxy (Bool.or_comm .. ▸ ho) hm.symm⟩
  have hne : b ≠ c := fun heq => by simp [heq, hout] at hin
  exact List.Pairwise.forall h hb hc hne (by simp [hout]) (meet_of_inExtent hba hca)

/-- Words that agree have the same bytes. -/
theorem memRead8_eq_of_memRead32_eq {m n : Memory} {x a : Nat} (h : memRead32 m x = memRead32 n x) (ha : InWord x a) :
    memRead8 m a = memRead8 n a := by
  obtain ⟨hm0, hm1, hm2, hm3⟩ :=
    extractLsb'_of_bytes (memRead8 m x) (memRead8 m (x + 1)) (memRead8 m (x + 2)) (memRead8 m (x + 3))
  obtain ⟨hn0, hn1, hn2, hn3⟩ :=
    extractLsb'_of_bytes (memRead8 n x) (memRead8 n (x + 1)) (memRead8 n (x + 2)) (memRead8 n (x + 3))
  have hbyte (k : Nat) : (memRead32 m x).extractLsb' k 8 = (memRead32 n x).extractLsb' k 8 := by rw [h]
  obtain rfl | rfl | rfl | rfl : a = x ∨ a = x + 1 ∨ a = x + 2 ∨ a = x + 3 := by omega
  · exact hm0.symm.trans ((hbyte 0).trans hn0)
  · exact hm1.symm.trans ((hbyte 8).trans hn1)
  · exact hm2.symm.trans ((hbyte 16).trans hn2)
  · exact hm3.symm.trans ((hbyte 24).trans hn3)

/-- Without a race, an element that shares no byte with another holds its value, whatever the order of the writes. -/
theorem memRead32_writeStores_of_apart (hr : s.raced = []) {m : Memory} {n : Nat} {sts : List Store} {st : Store}
    (hap : sts.Pairwise fun x y => Apart x.addr y.addr) (hst : st ∈ sts) :
    memRead32 (writeStores s m n sts) st.addr = st.value := by
  obtain ⟨before, rest, rfl⟩ := List.append_of_mem hst
  obtain ⟨-, hrest, -⟩ := List.pairwise_append.mp hap
  rw [memRead32_writeStores s fun c hc => (List.rel_of_pairwise_cons hrest hc).symm, racedWord_of_noRace hr]

/-- Without a race, elements that share no byte can be written in any order. -/
theorem memRead8_writeStores_perm (hr : s.raced = []) {m : Memory} {n : Nat} {order sts : List Store}
    (hperm : order.Perm sts) (hap : sts.Pairwise fun x y => Apart x.addr y.addr) (a : Nat) :
    memRead8 (writeStores s m n order) a = memRead8 (writeStores s m n sts) a := by
  have hap' : order.Pairwise fun x y => Apart x.addr y.addr :=
    (hperm.pairwise_iff fun hxy => hxy.symm).mpr hap
  by_cases h : ∃ st ∈ sts, InWord st.addr a
  · obtain ⟨st, hst, ha⟩ := h
    refine memRead8_eq_of_memRead32_eq ?_ ha
    rw [memRead32_writeStores_of_apart hr hap hst, memRead32_writeStores_of_apart hr hap' (hperm.mem_iff.mpr hst)]
  · have hout : ∀ st ∈ sts, ¬InWord st.addr a := fun st hst ha => h ⟨st, hst, ha⟩
    rw [memRead8_writeStores_outside s hout,
      memRead8_writeStores_outside s fun st hst => hout st (hperm.mem_iff.mp hst)]

/-- Settles O45: the overlap test keeps the output extents apart from the input extents and from each other. -/
theorem blockOrderDoesNotMatter : Obligations.BlockOrderDoesNotMatter := by
  intro s i hi h hr
  have ⟨_, _, hover⟩ := h
  have hap : (planOf i s).stores.Pairwise fun x y => Apart x.addr y.addr :=
    List.pairwise_map.mp (stores_targets i s ▸ block_targets_apart hi h)
  refine ⟨fun a ha x hx hxa => ?_, fun order hperm => ?_⟩
  · obtain ⟨b, hb, hin, hba⟩ := use_inInput hi ha
    obtain ⟨c, hc, hout, hca⟩ := target_inOutputExtent hi hx hxa
    exact not_inExtent_of_noOverlap (hover hi) hb hc hin hout hba hca
  · exact ⟨_, exec_eq_storedState h (effectOf_of_storing (.inr hi)), memRead8_writeStores_perm hr hperm hap⟩

end Sys2Proof.Machine

/-! ### The mixer's phase and its LUT -/

namespace Sys2Proof.Machine

open Sys2Proof.Claims

variable {i : Instr} {s : State}

/-- A command that lists no buffer executes once its configuration tests pass (40 R163). -/
theorem executes_of_unbuffered (hr : ReachesBuffers i s) (hl : listed i s = []) (hi : i ∉ blocks) : Executes i s :=
  ⟨hr, hl ▸ nofun, fun h => absurd h hi⟩

theorem exec_eq_complete_effectOf (h : Executes i s) : exec i s = .next (complete (effectOf i s)) := by
  obtain ⟨hn, hf⟩ := executes_iff.mp h
  exact exec_of_passes hn hf

/-! #### MIX_BASE -/

/-- A legal C is below 2^24, so the new phase fits in MIX_BASE (10 R52). -/
theorem advancePhase_base_toNat (n : Nat) (h : 1 ≤ s.mix.coslen.toNat) :
    (advancePhase n s).mix.base.toNat = (s.mix.base.toNat + n) % s.mix.coslen.toNat := by
  have hmod := Nat.mod_lt (s.mix.base.toNat + n) h
  rw [advancePhase_mix, BitVec.toNat_ofNat, Nat.mod_eq_of_lt (hmod.trans s.mix.coslen.isLt)]

/-- Settles O18: with C legal both commands execute, and both advance the phase. -/
theorem phaseAdvances : Obligations.PhaseAdvances := by
  intro s hC
  have ⟨hpos, _⟩ := hC
  refine ⟨fun n => ⟨complete (advancePhase n s), ?_, rfl, advancePhase_base_toNat n hpos⟩,
    complete (advancePhase (complexOutputs s) s), ?_, rfl, advancePhase_base_toNat _ hpos⟩
  · exact exec_eq_complete_effectOf (i := .mixAdvance n) (executes_of_unbuffered hC rfl (by simp))
  · exact exec_eq_complete_effectOf (i := .mixRefresh) (executes_of_unbuffered hC rfl (by simp))

/-- The LUT index of position i takes MIX_BASE modulo C (42 R219). -/
theorem mixLutIndex_add_coslen {b : BitVec 24} (hb : b.toNat = s.mix.base.toNat + s.mix.coslen.toNat) (k : Nat) :
    mixLutIndex { s with mix := { s.mix with base := b } } k = mixLutIndex s k := by
  simp only [mixLutIndex, phaseIndex, hb, Nat.add_right_comm _ s.mix.coslen.toNat, Nat.add_mod_right]

/-- Settles O47: the plan sees MIX_BASE in the LUT index alone. -/
theorem mixerPeriodicity : Obligations.MixerPeriodicity := by
  intro s k b hb
  have hbase : ReplacesBanks fun t => { t with mix := { t.mix with base := b } } :=
    ⟨fun _ => rfl, fun _ => rfl, fun _ _ _ => rfl, fun _ => ⟨rfl, rfl, rfl⟩, fun _ _ _ => rfl⟩
  refine hbase.exec_mapNext_of_stores ?_ fun _ => rfl
  have hindex := mixLutIndex_add_coslen hb k
  simp only [planOf, planMixElem, mixBody, mixStoreRe, mixStoreIm, hindex]
  rfl

/-! #### The LUT MIX_GENLUT stores -/

/-- Row p, column v of the generated LUTs (10 R55, 42 R213). -/
theorem generateLut_entry (h : Executes .mixGenlut s) {p v : Nat} (hp : p < s.mix.coslen.toNat) (hv : v < 256) :
    mlutRe (generateLut s) (256 * p + v) =
        (Config.lutgen s.mix.signed s.mix.freq.toInt s.mix.rate.toNat p v).1 ∧
      mlutIm (generateLut s) (256 * p + v) =
        (Config.lutgen s.mix.signed s.mix.freq.toInt s.mix.rate.toNat p v).2 := by
  have hrow : (256 * p + v) / 256 = p := by omega
  have hcol : (256 * p + v) % 256 = v := by omega
  obtain ⟨-, hlut⟩ := lutCurrent_generateLut h rfl
  obtain ⟨hre, him⟩ := hlut (256 * p + v) (by simp only [generateLut_mix]; omega)
  rw [mlutRe, mlutIm, hre, him, entryValue_written, entryValue_written, lutgenAt, hrow, hcol]
  exact ⟨rfl, rfl⟩

/-- Settles O19: the command executes, and rows 0 to C - 1 are those LUT_VALID records. -/
theorem genlutFillsRows : Obligations.GenlutFillsRows := by
  intro s hC hrate
  have h : Executes .mixGenlut s := executes_of_unbuffered ⟨hC, hrate⟩ rfl (by simp)
  exact ⟨_, exec_eq_complete_effectOf h, rfl, fun p hp v hv => generateLut_entry h hp hv,
    fun k hk => ⟨entryAt_fill_of_le _ _ hk, entryAt_fill_of_le _ _ hk⟩⟩

end Sys2Proof.Machine

/-! ### FIR commands -/

namespace Sys2Proof.Machine

open Sys2Proof.Claims

variable {i : Instr} {s : State}

/-! #### Sums are never -0.0 -/

/-- A number that is not zero does not round to a zero: with no bit dropped it is kept, else the exponent is not 0. -/
theorem f32RoundMag_ne_zero {m : Nat} (hm : m ≠ 0) : f32RoundMag m 0 ≠ 0 := by
  have hpos : 0 < roundedField m 0 := by
    unfold roundedField
    rcases Nat.eq_zero_or_pos (droppedBits m 0) with h | h
    · have hkept := (roundHalfEven_bounds m 0).1
      rw [h]
      omega
    · omega
  rw [f32RoundMag_eq]
  omega

theorem eq_negZero_of_negative {a : Word} (hs : a.msb = true) (hu : 0 ≤ unitsOf a) : a = 0x80000000#32 := by
  rw [unitsOf_eq, hs, withSign, if_pos rfl] at hu
  exact pattern_ext hs (f32Mag_eq_zero_iff.mp (by omega))

theorem unitsOf_nonpos {a : Word} (hs : a.msb = true) : unitsOf a ≤ 0 := by
  rw [unitsOf_eq, hs, withSign, if_pos rfl]
  omega

/-- No sum whose first operand is not -0.0 is -0.0: a NaN is the canonical one, a sum that is not 0 does not round to a
zero, and an exact zero sum of two negative patterns has two zero operands (00 R17). -/
theorem fadd_ne_negZero {a : Word} (ha0 : a ≠ 0x80000000#32) (b : Word) : fadd a b ≠ 0x80000000#32 := by
  by_cases hn : IsNaN a ∨ IsNaN b
  · rw [fadd_of_nan hn]
    decide
  obtain ⟨ha, hb⟩ := not_or.mp hn
  by_cases hia : IsInfinite a
  · rw [fadd_of_infinite_left hia hb]
    split_ifs
    · decide
    · exact ha0
  have hfa := isFinite_of_not ha hia
  by_cases hib : IsInfinite b
  · rw [fadd_of_infinite_right hfa hib]
    rintro rfl
    exact absurd hib (by decide)
  have hfb := isFinite_of_not hb hib
  by_cases hsum : unitsOf a + unitsOf b = 0
  · rw [fadd_zero_sum_sign hfa hfb hsum]
    split_ifs with hs
    · obtain ⟨hsa, hsb⟩ := Bool.and_eq_true_iff.mp hs
      have := unitsOf_nonpos hsb
      exact absurd (eq_negZero_of_negative hsa (by omega)) ha0
    · decide
  · rw [fadd_of_finite hfa hfb, if_neg hsum]
    intro h
    have hmag := congrArg magnitude h
    rw [f32Round_magnitude] at hmag
    exact f32RoundMag_ne_zero (Int.natAbs_ne_zero.mpr hsum) hmag

/-- Settles O49, by induction on the number of terms. -/
theorem sumsAreNeverNegativeZero : Obligations.SumsAreNeverNegativeZero := by
  intro term n
  induction n with
  | zero => exact show 0#32 ≠ 0x80000000#32 by decide
  | succ n ih => exact fadd_ne_negZero ih (term n)

/-! #### Configuration errors -/

/-- The configuration tests come before all others, and a failing one leaves ERRADDR 0 (40 R163, 60 R310). -/
theorem exec_of_testFailure {c : Cause} (hn : (planOf i s).noop = false)
    (ht : testFailure (planOf i s).tests = some ⟨c, 0#32⟩) : exec i s = .next (raisedFrom s c (encode i) 0#32) :=
  exec_of_failure hn (by rw [planFailure, ht])

/-- BAD_ORDER is tested before BAD_DECIM (43 R252). -/
theorem firTests_failure {c : Cause}
    (h : ((s.fir.order.toNat = 0 ∨ s.params.firMaxOrder < s.fir.order.toNat) ∧ c = .badOrder) ∨
      ((1 ≤ s.fir.order.toNat ∧ s.fir.order.toNat ≤ s.params.firMaxOrder) ∧ s.fir.decim = 0#24 ∧ c = .badDecim)) :
    testFailure (firTests s) = some ⟨c, 0#32⟩ := by
  rcases h with ⟨hN, rfl⟩ | ⟨⟨hpos, hmax⟩, hD, rfl⟩
  · simp [firTests, testFailure, hN]
  · simp [firTests, testFailure, hD, Nat.ne_of_gt hpos, hmax]

/-- Settles O11: none of the commands is a no-op here, and each makes the tests `firTests`. -/
theorem firConfigurationErrors : Obligations.FirConfigurationErrors := by
  intro s c hc
  have ht := firTests_failure hc
  refine ⟨fun k hk => ?_, fun hOL => ?_, exec_of_testFailure (i := .firRefreshC) rfl ht,
    exec_of_testFailure (i := .firRefreshR) rfl ht⟩
  · have hn : invalidIndex k s.fir.ooff s.fir.olen = false := decide_eq_false (Nat.not_le_of_lt hk)
    exact ⟨exec_of_testFailure (i := .firRcElem k) hn ht, exec_of_testFailure (i := .firRrElem k) hn ht,
      exec_of_testFailure (i := .firCcElem k) hn ht⟩
  · have hn : decide (blockCount s.fir.ooff s.fir.olen = 0) = false := decide_eq_false (Nat.sub_ne_zero_of_lt hOL)
    exact ⟨exec_of_testFailure (i := .firRcBlock) hn ht, exec_of_testFailure (i := .firRrBlock) hn ht,
      exec_of_testFailure (i := .firCcBlock) hn ht⟩

/-! #### Outputs past the length -/

/-- The FIR commands that write DMEM (43 R243 to R248). -/
abbrev FirStoring (i : Instr) : Prop :=
  (∃ n, i = .firRcElem n ∨ i = .firRrElem n ∨ i = .firCcElem n) ∨ i ∈ [Instr.firRcBlock, .firRrBlock, .firCcBlock]

theorem storing_of_firStoring (h : FirStoring i) : Storing i := by
  have hblocks : [Instr.firRcBlock, .firRrBlock, .firCcBlock] ⊆ blocks := by decide
  exact h.imp (fun ⟨n, hn⟩ => ⟨n, by tauto⟩) (hblocks ·)

theorem lt_firCount_iff {k : Nat} : k < firCount s ↔ k + s.fir.ooff.toNat < s.fir.olen.toNat := Nat.lt_sub_iff_add_lt

/-- A command that passes the bounds rule writes elements of valid indexes: i of an element command (40 R161), those
below L - O of a block command (40 R165). -/
theorem target_index_valid (hi : FirStoring i) (hr : ReachesBuffers i s) {x : Nat} (hx : x ∈ targets i s) :
    ∃ k, k + s.fir.ooff.toNat < s.fir.olen.toNat ∧ (x = firTargetRe s k ∨ x = firTargetIm s k) := by
  rcases hi with ⟨n, rfl | rfl | rfl⟩ | hi
  · exact ⟨n, hr.1, List.mem_pair.mp hx⟩
  · exact ⟨n, hr.1, .inl (List.mem_singleton.mp hx)⟩
  · exact ⟨n, hr.1, List.mem_pair.mp hx⟩
  have hpair (hx : x ∈ (List.range (firCount s)).flatMap fun k => [firTargetRe s k, firTargetIm s k]) :
      ∃ k, k + s.fir.ooff.toNat < s.fir.olen.toNat ∧ (x = firTargetRe s k ∨ x = firTargetIm s k) := by
    obtain ⟨k, hk, hx⟩ := List.mem_flatMap.mp hx
    exact ⟨k, lt_firCount_iff.mp (List.mem_range.mp hk), List.mem_pair.mp hx⟩
  fin_cases hi
  · exact hpair hx
  · obtain ⟨k, hk, rfl⟩ := List.mem_map.mp hx
    exact ⟨k, lt_firCount_iff.mp (List.mem_range.mp hk), .inl rfl⟩
  · exact hpair hx

/-- Settles O38: a command that does not execute writes nothing, and one that executes writes its targets alone. -/
theorem firWritesNoOutputPastLength : Obligations.FirWritesNoOutputPastLength := by
  intro i s t hi h a ha
  obtain ⟨u, d, e, info, addr, rfl, rfl | ⟨hexec, rfl⟩⟩ := exec_ends h
  · rfl
  · rw [endedWith, effectOf_of_storing (storing_of_firStoring hi)]
    refine bytesKept_storedState i s a ?_
    rintro ⟨x, hx, hin⟩
    obtain ⟨k, hk, rfl | rfl⟩ := target_index_valid hi hexec.1 hx
    · exact ha ⟨k, hk, .inl hin⟩
    · exact ha ⟨k, hk, .inr hin⟩

/-! #### Remainder refreshes -/

/-- The entries a refresh computes are the samples F + m of the rule (43 R249). -/
theorem refreshed_refreshEntry (s : State) (old : EntryMem) (base : Word) (first m : Nat) :
    Refreshed s old base (first + m) m (refreshEntry s old base first m) := by
  have hspan : ∀ a, (∃ sp ∈ [({ addr := refreshAddr s base m, len := 4 } : Span)], spanCovers sp a = true) ↔
      InWord (refreshAddr s base m) a := fun a => by
    simp only [List.mem_singleton, exists_eq_left, spanCovers_iff]
  exact ⟨fun h => if_pos h, fun h => ⟨_, if_neg (not_lt.mpr h), yields_racedWord hspan⟩⟩

/-- The channel a refresh leaves: entries 0 to N - 2 refreshed, the others kept (43 R249). -/
theorem refreshedMem_fill (s : State) (old : EntryMem) (base : Word) (first : Nat) :
    RefreshedMem s old (entriesFill old (s.fir.order.toNat - 1) (refreshEntry s old base first)) base first := fun m =>
  ⟨fun h => by rw [entryAt_fill_of_lt _ _ h]; exact refreshed_refreshEntry s old base first m,
    entryAt_fill_of_le _ _⟩

theorem freshAfter_eq (s : State) (n : Nat) : freshAfter s n = s.fresh + (if s.raced = [] then 0 else n) := by
  unfold freshAfter
  split_ifs <;> rfl

/-- Settles O20: when the checks pass both commands execute, and each fills its channels with the samples. -/
theorem refreshCopiesSamples : Obligations.RefreshCopiesSamples := fun s =>
  ⟨fun h => ⟨_, exec_eq_complete_effectOf h, rfl, freshAfter_eq s _, refreshedMem_fill s _ _ 0⟩,
    fun h => ⟨_, exec_eq_complete_effectOf h, rfl, freshAfter_eq s _, refreshedMem_fill s _ _ 0,
      refreshedMem_fill s _ _ _⟩⟩

/-! #### Continuity -/

theorem firSum_congr {f g : Nat → Word} {n : Nat} (h : ∀ k < n, f k = g k) : firSum f n = firSum g n := by
  induction n with
  | zero => rfl
  | succ n ih => rw [firSum, firSum, ih fun k hk => h k (by omega), h n (by omega)]

theorem inputRe_of_neg {j : Int} (h : j < 0) : inputRe s j = remRe s ((s.fir.order.toNat : Int) - 1 + j).toNat :=
  if_pos h

theorem inputRe_of_nonneg {j : Int} (h : 0 ≤ j) :
    inputRe s j = memRead32 s.dmem (s.fir.inRe.toNat + 4 * j.toNat) := if_neg (not_lt.mpr h)

/-- What a remainder entry holds after a refresh without a race: extended input sample F + m (43 R249, R240). -/
theorem value_of_refreshed {n m : Nat} {e : Entry} (hr : s.raced = []) (h : Refreshed s s.fir.remRe s.fir.inRe n m e) :
    entryValue s .remRe e = inputRe s (refreshSample s m) := by
  obtain ⟨hneg, hpos⟩ := h
  rcases lt_or_ge (refreshSample s m) 0 with hj | hj
  · rw [hneg hj, inputRe_of_neg hj, remRe]
  · obtain ⟨w, rfl, hv, -⟩ := hpos hj
    rw [hv (by simp [hr]), inputRe_of_nonneg hj, entryValue_written, refreshAddr]

/-- What an entry holds depends on the reset count alone (log entry 2). -/
theorem entryValue_congr {u : State} (h : u.resets = s.resets) (mem : InternalMem) (e : Entry) :
    entryValue u mem e = entryValue s mem e := by
  cases e with
  | written v => rfl
  | unspecified origin => rw [entryValue, entryValue, h]

/-- The remainder a refresh leaves extends the next block's input by the samples before iO + M*D (43 R249, R254). -/
theorem inputRe_of_refreshed {u : State} (hr : s.raced = [])
    (hmem : RefreshedMem s s.fir.remRe u.fir.remRe s.fir.inRe 0) (hresets : u.resets = s.resets)
    (horder : u.fir.order = s.fir.order) {j : Int} (hj : j < 0) (hfirst : 0 ≤ (s.fir.order.toNat : Int) - 1 + j) :
    inputRe u j = inputRe s (s.fir.ioff.toNat + firCount s * s.fir.decim.toNat + j) := by
  obtain ⟨m, hm⟩ := Int.eq_ofNat_of_zero_le hfirst
  have hentry := (hmem m).1 (by omega)
  have hsample : refreshSample s m = s.fir.ioff.toNat + firCount s * s.fir.decim.toNat + j := by
    unfold refreshSample
    omega
  rw [inputRe_of_neg hj, horder, hm, Int.toNat_natCast, remRe, entryValue_congr hresets,
    value_of_refreshed hr hentry, hsample]

/-- Settles O46: both outputs sum the same products, over samples of the second block and, before it, over the stream's
samples that the refresh left in the remainder. -/
theorem firContinuity : Obligations.FirContinuity := by
  intro long second len first hx hI hO hraced hexec ⟨t, ht, hrem⟩ hresets hx2 hI2 _ hN hD htap i hinput
  obtain ⟨t', ht', -, -, hmem⟩ := (refreshCopiesSamples first).1 hexec
  obtain rfl := Host.Outcome.next.inj (ht'.symm.trans ht)
  rw [← hrem] at hmem
  have hsame {j : Int} (hfirst : 0 ≤ (long.fir.order.toNat : Int) - 1 + j) (hlast : j ≤ i * long.fir.decim.toNat) :
      inputRe second j = inputRe long (len.toNat * long.fir.decim.toNat + j) := by
    rcases lt_or_ge j 0 with hj | hj
    · have hcount : (first.fir.ioff.toNat : Int) + firCount first * first.fir.decim.toNat =
          len.toNat * long.fir.decim.toNat := by simp [firCount, first, hI, hO]
      exact hcount ▸ inputRe_of_refreshed (s := first) hraced hmem hresets hN hj hfirst
    · obtain ⟨n, rfl⟩ := Int.eq_ofNat_of_zero_le hj
      rw [inputRe_of_nonneg hj, inputRe_of_nonneg (by positivity), Int.toNat_natCast,
        hinput n (by exact_mod_cast hlast)]
      norm_cast
  have htaps : taps second = taps long := by simp only [taps, hN, hx, hx2]
  rw [realSumRe, realSumRe, htaps]
  refine firSum_congr fun k hk => ?_
  have hkN : k < long.fir.order.toNat := by simpa [taps, hx] using hk
  have hsample : sampleOf second i k = i * long.fir.decim.toNat - long.fir.order.toNat + 1 + k := by
    simp [sampleOf, hI2, hN, hD]
  have hshift : sampleOf long (len.toNat + i) k = len.toNat * long.fir.decim.toNat + sampleOf second i k := by
    rw [hsample]
    simp only [sampleOf, hI]
    push_cast
    ring
  have hprod : (0 : Int) ≤ i * long.fir.decim.toNat := by positivity
  rw [tapRe, htap, entryValue_congr hresets, hshift, hsame (by omega) (by omega), tapRe]

end Sys2Proof.Machine

/-! ### DEM_SAVE -/

namespace Sys2Proof.Machine

open Sys2Proof.Claims

/-- A captured part is the word of sample iO + L - 1, free where one of its four bytes is raced (44 R284, 20 R112). -/
theorem yields_savedWord (s : State) (base : Word) (n : Nat) :
    Yields s n (InWord (saveAddr s base)) (memRead32 s.dmem (saveAddr s base))
      (racedWord s [floatSpan base (saveIndex s) (saveIndex s)] n
        (memRead32 s.dmem (floatAddr base (saveIndex s)))) :=
  yields_racedWord fun a => by simp only [List.mem_singleton, exists_eq_left, saveSpans_cover]

/-- Settles O21: when the checks pass the command executes, and its effect captures both parts of the sample. -/
theorem demSaveCapturesLastSample : Obligations.DemSaveCapturesLastSample := fun s h =>
  ⟨_, exec_eq_complete_effectOf h, rfl, freshAfter_eq s 2, yields_savedWord s s.dem.inRe 0,
    yields_savedWord s s.dem.inIm 1⟩

end Sys2Proof.Machine

/-! ### Mixer configuration errors -/

namespace Sys2Proof.Machine

open Sys2Proof.Claims

variable {s : State}

/-- BAD_COSLEN is the first test of every mixer command that makes it (42 R213 to R217). -/
theorem coslenTest_failure (h : s.mix.coslen.toNat = 0 ∨ s.params.mixCoslenMax < s.mix.coslen.toNat)
    (rest : List (Bool × Cause)) :
    testFailure ((badCoslen s, .badCoslen) :: rest) = some ⟨.badCoslen, 0#32⟩ := by
  simp [testFailure, badCoslen, h]

/-- A legal C leaves the answer to the tests that follow (60 R305, R306). -/
theorem coslenTest_passes (h : CoslenLegal s) (rest : List (Bool × Cause)) :
    testFailure ((badCoslen s, .badCoslen) :: rest) = testFailure rest := by
  obtain ⟨hpos, hmax⟩ := h
  simp [testFailure, badCoslen, Nat.ne_of_gt hpos, hmax]

theorem mixElem_noop_of_valid {k : Nat} (h : k + s.mix.ooff.toNat < s.mix.olen.toNat) :
    (planOf (.mixElem k) s).noop = false := decide_eq_false (Nat.not_le_of_lt h)

theorem mixBlock_noop_of_nonempty (h : s.mix.ooff.toNat < s.mix.olen.toNat) :
    (planOf .mixBlock s).noop = false := decide_eq_false (Nat.sub_ne_zero_of_lt h)

/-- Settles O12: BAD_COSLEN is the first test of the five commands; MIX_RESET tests nothing. -/
theorem mixCoslenErrors : Obligations.MixCoslenErrors := by
  intro s hC
  have ht := coslenTest_failure hC
  exact ⟨fun k hk => exec_of_testFailure (mixElem_noop_of_valid hk) (ht _),
    fun h => exec_of_testFailure (mixBlock_noop_of_nonempty h) (ht _),
    exec_of_testFailure (i := .mixGenlut) rfl (ht _),
    fun n => exec_of_testFailure (i := .mixAdvance n) rfl (ht _),
    exec_of_testFailure (i := .mixRefresh) rfl (ht _),
    _, exec_of_testless rfl, completed_effectOf .mixReset s⟩

/-- Settles O13: the BAD_COSLEN test passes, and the test after it fails. -/
theorem mixRateAndStaleErrors : Obligations.MixRateAndStaleErrors := by
  intro s hC
  refine ⟨fun hrate => exec_of_testFailure (i := .mixGenlut) rfl ?_, fun hstale => ?_⟩
  · exact (coslenTest_passes hC _).trans (by simp [testFailure, hrate])
  · have ht : testFailure (mixTests s) = some ⟨.lutStale, 0#32⟩ :=
      (coslenTest_passes hC _).trans (by simp [testFailure, hstale])
    exact ⟨fun k hk => exec_of_testFailure (mixElem_noop_of_valid hk) ht,
      fun h => exec_of_testFailure (mixBlock_noop_of_nonempty h) ht⟩

end Sys2Proof.Machine

/-! ### The error record, DONE and irq -/

namespace Sys2Proof.Machine

open Sys2Proof.Claims

variable {s t : State} {m : HostMove}

/-! #### What a host move can do -/

/-- All a host move can do: reset the core, access DMEM and draw free words, record REG_RANGE, or write a register in
range; but for the reset it also gets a reply (60 R330). -/
theorem hostMove_cases (h : hostMove m s = .next t) :
    m = .reset ∨
    (∃ dmem raced fresh reply, t = { s with dmem := dmem, raced := raced, fresh := fresh, reply := reply }) ∨
    (∃ off index reply, t = { recordRegRange off index s with reply := reply }) ∨
    ∃ off v r, m = .regWrite off 4 v ∧ PortAt off r ∧ t = { regStore r v s with reply := .completed } := by
  cases m with
  | regWrite off bytes v =>
    cases h
    rcases portWrite_cases off bytes v s with he | ⟨index, he⟩ | ⟨rfl, r, hport, he⟩ <;> rw [he]
    · exact .inr (.inl ⟨_, _, _, _, rfl⟩)
    · exact .inr (.inr (.inl ⟨_, _, _, rfl⟩))
    · exact .inr (.inr (.inr ⟨_, _, _, rfl, hport, rfl⟩))
  | regRead off bytes =>
    cases h
    rcases portRead_cases off bytes s with he | ⟨index, he⟩ <;> rw [he]
    · exact .inr (.inl ⟨_, _, _, _, rfl⟩)
    · exact .inr (.inr (.inl ⟨_, _, _, rfl⟩))
  | memWrite | memWrite8 | memRead | memRead8 =>
    simp only [hostMove, hostMemWrite, hostMemWrite8, hostMemRead, hostMemRead8] at h
    split at h
    case isFalse => exact nomatch h
    cases h
    exact .inr (.inl ⟨_, _, _, _, rfl⟩)
  | reset => exact .inl rfl
  | observeIrq =>
    cases h
    exact .inr (.inl ⟨_, _, _, _, rfl⟩)

/-! #### What keeps the record and DONE -/

/-- The error record and P are as before. -/
abbrev RecordKept (s t : State) : Prop :=
  t.error = s.error ∧ t.errInfo = s.errInfo ∧ t.errAddr = s.errAddr ∧ t.pending = s.pending

/-- The host moves that clear bit n of STATUS: a reset, and a write of a 1 to it (10 R39, 70 R340). -/
def ClearsStatusBit (n : Nat) (m : HostMove) : Prop :=
  m = .reset ∨ ∃ v, v.getLsbD n = true ∧ m = .regWrite 0x014#12 4 v

/-- A register write keeps a recorded error, unless it clears it (60 R315). -/
theorem regStore_record {r : Reg} {v : Word} (he : s.error ≠ none) :
    RecordKept s (regStore r v s) ∨ r = .status ∧ v.getLsbD 2 = true := by
  cases r with
  | status =>
    cases hv : v.getLsbD 2 with
    | false =>
      rw [regStore, writeStatus_eq, hv]
      exact .inl ⟨rfl, rfl, rfl, rfl⟩
    | true => exact .inr ⟨rfl, rfl⟩
  | cmd => exact .inl (by simp [RecordKept, regStore, issueCommand_eq, he])
  | _ => exact .inl ⟨rfl, rfl, rfl, rfl⟩

/-- A register write keeps DONE, unless it clears it (60 R316). -/
theorem regStore_done (r : Reg) (v : Word) (s : State) :
    (regStore r v s).done = s.done ∨ r = .status ∧ v.getLsbD 1 = true := by
  cases r with
  | status =>
    cases hv : v.getLsbD 1 with
    | false => exact .inl (by rw [regStore, writeStatus_eq, hv, Bool.not_false, Bool.and_true])
    | true => exact .inr ⟨rfl, rfl⟩
  | cmd => exact .inl (by rw [regStore, issueCommand_eq])
  | _ => exact .inl rfl

/-- A write to STATUS is one to offset 0x014 (10 R37). -/
theorem clearsStatusBit_of_port {n : Nat} {off : BitVec 12} {v : Word} (hport : PortAt off .status)
    (hv : v.getLsbD n = true) : ClearsStatusBit n (.regWrite off 4 v) :=
  .inr ⟨v, hv, by rw [portAt_unique hport (o := 0x014#12) ⟨rfl, rfl⟩ nofun]⟩

theorem hostMove_record (he : s.error ≠ none) (h : hostMove m s = .next t) :
    RecordKept s t ∨ ClearsStatusBit 2 m := by
  rcases hostMove_cases h with rfl | ⟨_, _, _, _, rfl⟩ | ⟨_, _, _, rfl⟩ | ⟨_, v, r, rfl, hport, rfl⟩
  · exact .inr (.inl rfl)
  · exact .inl ⟨rfl, rfl, rfl, rfl⟩
  · rw [recordRegRange_eq, if_neg he]
    exact .inl ⟨rfl, rfl, rfl, rfl⟩
  · refine (regStore_record he).imp_right ?_
    rintro ⟨rfl, hv⟩
    exact clearsStatusBit_of_port hport hv

@[simp] theorem recordRegRange_done (off index : Word) (s : State) : (recordRegRange off index s).done = s.done := by
  rw [recordRegRange_eq]
  split_ifs <;> rfl

theorem hostMove_done (h : hostMove m s = .next t) : t.done = s.done ∨ ClearsStatusBit 1 m := by
  rcases hostMove_cases h with rfl | ⟨_, _, _, _, rfl⟩ | ⟨off, index, _, rfl⟩ | ⟨_, v, r, rfl, hport, rfl⟩
  · exact .inr (.inl rfl)
  · exact .inl rfl
  · exact .inl (recordRegRange_done off index s)
  · refine (regStore_done r v s).imp_right ?_
    rintro ⟨rfl, hv⟩
    exact clearsStatusBit_of_port hport hv

/-! #### A step -/

/-- The host's turn takes the head's move off the queue, and changes nothing else. -/
theorem nextMove_of_hostTurn {s' : State} (h : hostTurn s = some (m, s')) :
    NextMove s m ∧ ∃ queue, s' = { s with host := queue } := by
  obtain ⟨turn, rest, hq, rfl, rfl, -⟩ := hostTurn_eq_some h
  exact ⟨by rw [NextMove, hq, turnMove_eq_headMove]; rfl, _, rfl⟩

/-- With an error recorded no command is pending, so only the host can change the record (60 R314, R315). -/
theorem step_record (hok : s.CommandOk) (he : s.error ≠ none) (h : step s = .next t) :
    RecordKept s t ∨ ∃ m, NextMove s m ∧ ClearsStatusBit 2 m := by
  rcases step_cases h with ⟨m, s', hturn, hmove⟩ | ⟨-, w, _, hp, -⟩ | ⟨-, w, _, hp, -⟩ | ⟨-, -, rfl⟩
  · obtain ⟨hnext, queue, rfl⟩ := nextMove_of_hostTurn hturn
    exact (hostMove_record (s := { s with host := queue }) he hmove).imp_right fun hc => ⟨m, hnext, hc⟩
  · exact absurd (hok.1 (by simp [hp])) he
  · exact absurd (hok.1 (by simp [hp])) he
  · exact .inl ⟨rfl, rfl, rfl, rfl⟩

/-- A command sets DONE or, when it raises an error, keeps it (40 R160, 60 R310). -/
theorem exec_done {i : Instr} (hd : s.done = true) (h : exec i s = .next t) : t.done = true := by
  rcases exec_cases h with ⟨-, rfl⟩ | ⟨-, f, -, rfl⟩ | ⟨-, -, u, rfl⟩
  · rfl
  · exact hd
  · rfl

theorem step_done (hd : s.done = true) (h : step s = .next t) :
    t.done = true ∨ ∃ m, NextMove s m ∧ ClearsStatusBit 1 m := by
  rcases step_cases h with ⟨m, s', hturn, hmove⟩ | ⟨-, w, i, -, -, hexec⟩ | ⟨-, w, e, -, -, rfl⟩ | ⟨-, -, rfl⟩
  · obtain ⟨hnext, queue, rfl⟩ := nextMove_of_hostTurn hturn
    exact (hostMove_done hmove).imp (·.trans hd) fun hc => ⟨m, hnext, hc⟩
  · exact .inl (exec_done hd hexec)
  · exact .inl hd
  · exact .inl hd

/-- The next move clears bit n of STATUS, in the words of the statement. -/
theorem nextMove_clears {n : Nat} (h : ∃ m, NextMove s m ∧ ClearsStatusBit n m) :
    NextMove s .reset ∨ ∃ v : Word, v.getLsbD n = true ∧ NextMove s (.regWrite 0x014#12 4 v) := by
  obtain ⟨m, hnext, rfl | ⟨v, hv, rfl⟩⟩ := h
  · exact .inl hnext
  · exact .inr ⟨v, hv, hnext⟩

/-- Settles O44, from what a step does to a recorded error and to DONE. -/
theorem errorAndDoneKept : Obligations.ErrorAndDoneKept := by
  intro s t h
  refine ⟨fun c hok he => ?_, fun hd => (step_done hd h).imp_right nextMove_clears⟩
  have hne : s.error ≠ none := he ▸ nofun
  have hnone : s.pending = none := by
    by_contra hp
    exact hne (hok.1 (Option.isSome_iff_ne_none.mpr hp))
  rcases step_record hok hne h with ⟨herr, hinfo, haddr, hp⟩ | hc
  · exact .inl ⟨herr.trans he, hinfo, haddr, hp.trans hnone⟩
  · exact .inr (nextMove_clears hc)

/-! #### irq -/

theorem portReadValue_of_portAt {off : BitVec 12} {r : Reg} (h : PortAt off r) (hi : indexOutOfRange s r = none) :
    portReadValue off 4 s = regValue s r := by
  obtain ⟨hproper, hr⟩ := h
  simp [portReadValue, hproper, hr, hi]

/-- DONEIE and ERRIE in CTRL (10 R38). -/
theorem ctrlWord_bits (s : State) : (ctrlWord s).getLsbD 0 = s.doneIe ∧ (ctrlWord s).getLsbD 1 = s.errIe := by
  refine ⟨?_, ?_⟩ <;> simp only [ctrlWord, bit, BitVec.getLsbD_append, BitVec.getLsbD_ofBool] <;> simp

/-- Settles O54: the bits CTRL and STATUS return are the four fields the level is made of. -/
theorem irqLevel : Obligations.IrqLevel := by
  intro s
  obtain ⟨hdoneIe, herrIe⟩ := ctrlWord_bits s
  obtain ⟨-, hdone, herr, -⟩ := statusWord_bits s
  have hctrl : portReadValue 0x010#12 4 s = ctrlWord s := portReadValue_of_portAt (r := .ctrl) ⟨rfl, rfl⟩ rfl
  have hstatus : portReadValue 0x014#12 4 s = statusWord s := portReadValue_of_portAt (r := .status) ⟨rfl, rfl⟩ rfl
  refine ⟨irq s, rfl, ?_⟩
  rw [hctrl, hstatus, hdoneIe, herrIe, hdone, herr, irq, Bool.or_eq_true, Bool.and_eq_true, Bool.and_eq_true]

end Sys2Proof.Machine

/-! ### The command a reset abandons -/

namespace Sys2Proof.Machine

open Sys2Proof.Claims

variable {i : Instr} {s : State}

/-! #### Different elements of a command share no byte -/

/-- Output elements are elements of aligned buffers (40 R164). -/
theorem target_aligned (h : Executes i s) {x : Nat} (hx : x ∈ targets i s) : x % 4 = 0 := by
  obtain ⟨-, hb, -⟩ := h
  obtain ⟨base, kmin, kmax, k, hmem, -, rfl⟩ := target_inOutput hx
  have hbase : base.toNat % 4 = 0 := (hb _ hmem).1.resolve_left nofun
  omega

theorem target_apart_of_ne (h : Executes i s) {x y : Nat} (hx : x ∈ targets i s) (hy : y ∈ targets i s) (hne : x ≠ y) :
    Apart x y := by
  have hx4 := target_aligned h hx
  have hy4 := target_aligned h hy
  omega

/-! #### Abandoned elements are stored as if each were raced -/

/-- A result stored at a raced byte is free (20 R112). -/
theorem racedWord_of_raced_addr {addr n : Nat} {sps : List Span} {v : Word} (h : addr ∈ s.raced) :
    racedWord s ({ addr, len := 4 } :: sps) n v = Config.freeWord (s.fresh + n) :=
  if_pos (List.any_eq_true.mpr ⟨addr, h, by simp [spanCovers]⟩)

/-- Both draw one free word per element, so what is known of storing elements holds of abandoning them (70 R340). -/
theorem abandonStores_eq_writeStores {m : Memory} {n : Nat} {sts : List Store} (h : ∀ st ∈ sts, st.addr ∈ s.raced) :
    abandonStores m (s.fresh + n) sts = writeStores s m n sts := by
  induction sts generalizing m n with
  | nil => rfl
  | cons st rest ih =>
    obtain ⟨hst, hrest⟩ := List.forall_mem_cons.mp h
    rw [abandonStores, writeStores, racedWord_of_raced_addr hst, Nat.add_assoc, ih hrest]

/-- The state with every element of `sts` raced. -/
def raceAll (sts : List Store) (s : State) : State := { s with raced := sts.map fun st => st.addr }

theorem addr_mem_raceAll {st : Store} {sts : List Store} (h : st ∈ sts) : st.addr ∈ (raceAll sts s).raced :=
  List.mem_map_of_mem h

theorem hostReset_dmem_of_willExecute (h : WillExecute s i) :
    (hostReset s).dmem = writeStores (raceAll (planOf i s).stores s) s.dmem 0 (planOf i s).stores := by
  rw [← abandonStores_eq_writeStores fun _ => addr_mem_raceAll, ← pendingPlan_of_willExecute h]
  rfl

theorem hostReset_dmem_of_none (h : ∀ i, ¬WillExecute s i) : (hostReset s).dmem = s.dmem := by
  simp only [hostReset, pendingPlan_of_none h, abandonStores]

theorem hostReset_fresh (h : WillExecute s i) : (hostReset s).fresh = s.fresh + (targets i s).length := by
  rw [hostReset, pendingPlan_of_willExecute h, ← stores_targets, List.length_map]

/-- An element that the abandoned command would not have written again holds its own free word. -/
theorem hostReset_target (h : WillExecute s i) {x : Nat} {before after : List Nat}
    (hsplit : targets i s = before ++ x :: after) (hx : x ∉ after) :
    memRead32 (hostReset s).dmem x = Config.freeWord (s.fresh + before.length) := by
  have ⟨_, _, _, he⟩ := h
  have hmem : ∀ y ∈ x :: after, y ∈ targets i s := fun y hy => hsplit ▸ List.mem_append_right _ hy
  have hlater : ∀ y ∈ after, Apart y x := fun y hy =>
    target_apart_of_ne he (hmem y (List.mem_cons_of_mem _ hy)) (hmem x List.mem_cons_self) fun heq => hx (heq ▸ hy)
  rw [← stores_targets] at hsplit
  obtain ⟨first, last, hstores, rfl, hlast⟩ := List.map_eq_append_iff.mp hsplit
  obtain ⟨st, rest, rfl, rfl, rfl⟩ := List.map_eq_cons_iff.mp hlast
  have hst : st ∈ (planOf i s).stores := hstores ▸ List.mem_append_right _ List.mem_cons_self
  have hword := memRead32_writeStores (raceAll (planOf i s).stores s) (m := s.dmem) (n := 0) (before := first)
    fun c hc => hlater c.addr (List.mem_map_of_mem hc)
  rw [← hstores, racedWord_of_raced_addr (addr_mem_raceAll hst), ← hostReset_dmem_of_willExecute h] at hword
  rw [hword, Nat.zero_add, List.length_map]
  rfl

theorem bytesKept_hostReset (h : WillExecute s i) :
    BytesKept s (hostReset s) fun a => ∃ x ∈ targets i s, InWord x a := fun a ha => by
  rw [hostReset_dmem_of_willExecute h]
  exact memRead8_writeStores_outside _ fun st hst hin =>
    ha ⟨st.addr, stores_targets i s ▸ List.mem_map_of_mem hst, hin⟩

/-- Settles O34: the elements are stored as in a race, and are apart because their buffers are aligned. -/
theorem resetAbandonsCommand : Obligations.ResetAbandonsCommand := fun s =>
  ⟨hostReset s, rfl, rfl, rfl, rfl, rfl,
    fun _ h => ⟨hostReset_fresh h, fun _ _ _ => hostReset_target h, bytesKept_hostReset h⟩,
    fun h a => by rw [hostReset_dmem_of_none h]⟩

end Sys2Proof.Machine
